-- ==== Sys2Proof/Word.lean ====
section
/-! DEFINITION. The two word widths of the machine (spec/00_scope.md R6, R7): a data byte is 8 bits
(`XLEN`), an instruction word, the program counter and every data address in a register pair are
16 bits (`IWORD`, `PC_BITS`). -/

namespace Sys2Proof

/-- One byte of the data space, and one general register (R6 `XLEN`, R21). -/
abbrev Byte := BitVec 8

/-- One word of the program store; also the width of `pc`, `SP` and the pointer pairs (R6, R22 to R24). -/
abbrev Word := BitVec 16

/-- `v[7:0]` of a 16-bit value (R7). -/
def lowByte (v : Word) : Byte := BitVec.ofNat 8 v.toNat

/-- `v[15:8]` of a 16-bit value (R7). -/
def highByte (v : Word) : Byte := BitVec.ofNat 8 (v.toNat / 256)

/-- `hi ++ lo`: the 16-bit value of a little-endian pair (R7, R65, R73). -/
def joinBytes (hi lo : Byte) : Word := BitVec.ofNat 16 (hi.toNat * 256 + lo.toNat)

end Sys2Proof
end

