-- ==== Sys2Proof/Syntax.lean ====
section
/-! DEFINITION. The instructions of `REF_ITABLE`: one constructor for each of the 86 rows of
spec/opcode_table.json (spec/30_encoding.md R104, R117), with the operands of the row's format
(R106). The 40 or so alias mnemonics of R114 are other names for words of these rows. -/

namespace Sys2Proof

/-- A general register number, r0 to r31 (R21). Formats that reach fewer registers (R107) are checked
by `wellFormed`. -/
abbrev Reg := Fin 32

/-- A bit number of a byte, or a flag number (R27, R108). -/
abbrev BitIx := Fin 8

inductive Instr where
  -- arithmetic and logic, spec/41_ref_arith_logic.md
  | add (d r : Reg)
  | adc (d r : Reg)
  | sub (d r : Reg)
  | subi (d : Reg) (k : Byte)
  | sbc (d r : Reg)
  | sbci (d : Reg) (k : Byte)
  | cp (d r : Reg)
  | cpc (d r : Reg)
  | cpi (d : Reg) (k : Byte)
  | and (d r : Reg)
  | andi (d : Reg) (k : Byte)
  | or (d r : Reg)
  | ori (d : Reg) (k : Byte)
  | eor (d r : Reg)
  | com (d : Reg)
  | neg (d : Reg)
  | inc (d : Reg)
  | dec (d : Reg)
  | asr (d : Reg)
  | lsr (d : Reg)
  | ror (d : Reg)
  | swap (d : Reg)
  | adiw (d : Reg) (k : BitVec 6)
  | sbiw (d : Reg) (k : BitVec 6)
  | mul (d r : Reg)
  | muls (d r : Reg)
  | mulsu (d r : Reg)
  | fmul (d r : Reg)
  | fmuls (d r : Reg)
  | fmulsu (d r : Reg)
  -- control transfer, spec/42_ref_control_transfer.md
  | rjmp (k : BitVec 12)
  | jmp (k : BitVec 22)
  | ijmp
  | rcall (k : BitVec 12)
  | call (k : BitVec 22)
  | icall
  | ret
  | reti
  | brbs (s : BitIx) (k : BitVec 7)
  | brbc (s : BitIx) (k : BitVec 7)
  | cpse (d r : Reg)
  | sbrc (r : Reg) (b : BitIx)
  | sbrs (r : Reg) (b : BitIx)
  | sbic (a : Fin 32) (b : BitIx)
  | sbis (a : Fin 32) (b : BitIx)
  -- data transfer, spec/43_ref_data_transfer.md
  | mov (d r : Reg)
  | movw (d r : Reg)
  | ldi (d : Reg) (k : Byte)
  | ldX (d : Reg)
  | ldXInc (d : Reg)
  | ldXDec (d : Reg)
  | ldYInc (d : Reg)
  | ldYDec (d : Reg)
  | lddY (d : Reg) (q : BitVec 6)
  | ldZInc (d : Reg)
  | ldZDec (d : Reg)
  | lddZ (d : Reg) (q : BitVec 6)
  | stX (r : Reg)
  | stXInc (r : Reg)
  | stXDec (r : Reg)
  | stYInc (r : Reg)
  | stYDec (r : Reg)
  | stdY (q : BitVec 6) (r : Reg)
  | stZInc (r : Reg)
  | stZDec (r : Reg)
  | stdZ (q : BitVec 6) (r : Reg)
  | lds (d : Reg) (k : Word)
  | sts (k : Word) (r : Reg)
  | push (r : Reg)
  | pop (d : Reg)
  | inp (d : Reg) (a : Fin 64)
  | out (a : Fin 64) (r : Reg)
  | lpm
  | lpmZ (d : Reg)
  | lpmZInc (d : Reg)
  -- bit operations and MCU control, spec/44_ref_bit_and_mcu.md
  | bset (s : BitIx)
  | bclr (s : BitIx)
  | bst (r : Reg) (b : BitIx)
  | bld (d : Reg) (b : BitIx)
  | sbi (a : Fin 32) (b : BitIx)
  | cbi (a : Fin 32) (b : BitIx)
  | nop
  | wdr
  | sleep
  | brk
  | spm
deriving DecidableEq, Repr

end Sys2Proof
end

