-- ==== Sys2Proof/Decode.lean ====
section
/-! DEFINITION. Decoding and encoding of `REF_ITABLE` (spec/30_encoding.md R103 to R111, R117, R118):
the pattern table, the decoder over words and over bytes, and the encoder. Bits and fields are
numbered as R7 numbers them. -/

namespace Sys2Proof

/-! ## Fields of the first word (R106, R108) -/

/-- `w[lo+n-1 : lo]` as a number (R7). -/
def field (w : Word) (lo n : Nat) : Nat := w.toNat / 2 ^ lo % 2 ^ n

/-- The 5-bit register field `op[8:4]` (formats `RR`, `RD`, `LS`, `LS2`, `LDD`, `IO`, `RB`). -/
def dReg (w : Word) : Reg := Fin.ofNat 32 (field w 4 5)

/-- The second register of format `RR`: `op[9] ++ op[3:0]`. -/
def rRR (w : Word) : Reg := Fin.ofNat 32 (field w 9 1 * 16 + field w 0 4)

/-- Formats `RI` and `M16`: d = 16 + `op[7:4]`. -/
def dRI (w : Word) : Reg := Fin.ofNat 32 (16 + field w 4 4)

/-- Format `RI`: K = `op[11:8] ++ op[3:0]`. -/
def kRI (w : Word) : Byte := BitVec.ofNat 8 (field w 8 4 * 16 + field w 0 4)

/-- Format `M16`: r = 16 + `op[3:0]`. -/
def rM16 (w : Word) : Reg := Fin.ofNat 32 (16 + field w 0 4)

/-- Format `M8`: d = 16 + `op[6:4]`. -/
def dM8 (w : Word) : Reg := Fin.ofNat 32 (16 + field w 4 3)

/-- Format `M8`: r = 16 + `op[2:0]`. -/
def rM8 (w : Word) : Reg := Fin.ofNat 32 (16 + field w 0 3)

/-- Format `MW`: d = 2 * `op[7:4]`. -/
def dMW (w : Word) : Reg := Fin.ofNat 32 (2 * field w 4 4)

/-- Format `MW`: r = 2 * `op[3:0]`. -/
def rMW (w : Word) : Reg := Fin.ofNat 32 (2 * field w 0 4)

/-- Format `WI`: d = 24 + 2 * `op[5:4]`. -/
def dWI (w : Word) : Reg := Fin.ofNat 32 (24 + 2 * field w 4 2)

/-- Format `WI`: K = `op[7:6] ++ op[3:0]`. -/
def kWI (w : Word) : BitVec 6 := BitVec.ofNat 6 (field w 6 2 * 16 + field w 0 4)

/-- Format `LDD`: q = `op[13] ++ op[11:10] ++ op[2:0]`. -/
def qLDD (w : Word) : BitVec 6 := BitVec.ofNat 6 (field w 13 1 * 32 + field w 10 2 * 8 + field w 0 3)

/-- Format `IO`: A = `op[10:9] ++ op[3:0]`. -/
def aIO (w : Word) : Fin 64 := Fin.ofNat 64 (field w 9 2 * 16 + field w 0 4)

/-- Format `IOB`: A = `op[7:3]`. -/
def aIOB (w : Word) : Fin 32 := Fin.ofNat 32 (field w 3 5)

/-- The bit or flag number `op[2:0]` (formats `IOB`, `RB`, `BR`). -/
def bitLow (w : Word) : BitIx := Fin.ofNat 8 (field w 0 3)

/-- The flag number `op[6:4]` of format `SF`. -/
def sSF (w : Word) : BitIx := Fin.ofNat 8 (field w 4 3)

/-- Format `J12`: k = `op[11:0]`. -/
def kJ12 (w : Word) : BitVec 12 := BitVec.ofNat 12 (field w 0 12)

/-- Format `BR`: k = `op[9:3]`. -/
def kBR (w : Word) : BitVec 7 := BitVec.ofNat 7 (field w 3 7)

/-- Format `J22`: k = `op[8:4] ++ op[0] ++ word2[15:0]`. -/
def kJ22 (w w2 : Word) : BitVec 22 :=
  BitVec.ofNat 22 ((field w 4 5 * 2 + field w 0 1) * 65536 + w2.toNat)

/-! ## The pattern table (R103, R104, R117) -/

/-- One row: a word `op` is this row's when `op & mask = pattern`; `build` reads the operands from the
first word and, where `words` is 2, from the second. -/
structure Row where
  mask : Word
  pattern : Word
  words : Nat
  build : Word → Word → Instr

/-- `op[15:12]` = 0000 (R109). -/
def tableMoves : List Row :=
  [ ⟨0xFFFF#16, 0x0000#16, 1, fun _ _ => .nop⟩,
    ⟨0xFF00#16, 0x0100#16, 1, fun w _ => .movw (dMW w) (rMW w)⟩,
    ⟨0xFF00#16, 0x0200#16, 1, fun w _ => .muls (dRI w) (rM16 w)⟩,
    ⟨0xFF88#16, 0x0300#16, 1, fun w _ => .mulsu (dM8 w) (rM8 w)⟩,
    ⟨0xFF88#16, 0x0308#16, 1, fun w _ => .fmul (dM8 w) (rM8 w)⟩,
    ⟨0xFF88#16, 0x0380#16, 1, fun w _ => .fmuls (dM8 w) (rM8 w)⟩,
    ⟨0xFF88#16, 0x0388#16, 1, fun w _ => .fmulsu (dM8 w) (rM8 w)⟩,
    ⟨0xFC00#16, 0x0400#16, 1, fun w _ => .cpc (dReg w) (rRR w)⟩,
    ⟨0xFC00#16, 0x0800#16, 1, fun w _ => .sbc (dReg w) (rRR w)⟩,
    ⟨0xFC00#16, 0x0C00#16, 1, fun w _ => .add (dReg w) (rRR w)⟩ ]

/-- `op[15:12]` = 0001 and 0010 (R109). -/
def tableRR : List Row :=
  [ ⟨0xFC00#16, 0x1000#16, 1, fun w _ => .cpse (dReg w) (rRR w)⟩,
    ⟨0xFC00#16, 0x1400#16, 1, fun w _ => .cp (dReg w) (rRR w)⟩,
    ⟨0xFC00#16, 0x1800#16, 1, fun w _ => .sub (dReg w) (rRR w)⟩,
    ⟨0xFC00#16, 0x1C00#16, 1, fun w _ => .adc (dReg w) (rRR w)⟩,
    ⟨0xFC00#16, 0x2000#16, 1, fun w _ => .and (dReg w) (rRR w)⟩,
    ⟨0xFC00#16, 0x2400#16, 1, fun w _ => .eor (dReg w) (rRR w)⟩,
    ⟨0xFC00#16, 0x2800#16, 1, fun w _ => .or (dReg w) (rRR w)⟩,
    ⟨0xFC00#16, 0x2C00#16, 1, fun w _ => .mov (dReg w) (rRR w)⟩ ]

/-- `op[15:12]` = 0011 to 0111 (R109). -/
def tableRI : List Row :=
  [ ⟨0xF000#16, 0x3000#16, 1, fun w _ => .cpi (dRI w) (kRI w)⟩,
    ⟨0xF000#16, 0x4000#16, 1, fun w _ => .sbci (dRI w) (kRI w)⟩,
    ⟨0xF000#16, 0x5000#16, 1, fun w _ => .subi (dRI w) (kRI w)⟩,
    ⟨0xF000#16, 0x6000#16, 1, fun w _ => .ori (dRI w) (kRI w)⟩,
    ⟨0xF000#16, 0x7000#16, 1, fun w _ => .andi (dRI w) (kRI w)⟩ ]

/-- `op[15:12]` = 1000 and 1010 (R109). -/
def tableDisp : List Row :=
  [ ⟨0xD208#16, 0x8000#16, 1, fun w _ => .lddZ (dReg w) (qLDD w)⟩,
    ⟨0xD208#16, 0x8008#16, 1, fun w _ => .lddY (dReg w) (qLDD w)⟩,
    ⟨0xD208#16, 0x8200#16, 1, fun w _ => .stdZ (qLDD w) (dReg w)⟩,
    ⟨0xD208#16, 0x8208#16, 1, fun w _ => .stdY (qLDD w) (dReg w)⟩ ]

/-- `1001 000.`: loads, LPM Rd, POP (R109). -/
def tableLoad : List Row :=
  [ ⟨0xFE0F#16, 0x9000#16, 2, fun w w2 => .lds (dReg w) w2⟩,
    ⟨0xFE0F#16, 0x9001#16, 1, fun w _ => .ldZInc (dReg w)⟩,
    ⟨0xFE0F#16, 0x9002#16, 1, fun w _ => .ldZDec (dReg w)⟩,
    ⟨0xFE0F#16, 0x9004#16, 1, fun w _ => .lpmZ (dReg w)⟩,
    ⟨0xFE0F#16, 0x9005#16, 1, fun w _ => .lpmZInc (dReg w)⟩,
    ⟨0xFE0F#16, 0x9009#16, 1, fun w _ => .ldYInc (dReg w)⟩,
    ⟨0xFE0F#16, 0x900A#16, 1, fun w _ => .ldYDec (dReg w)⟩,
    ⟨0xFE0F#16, 0x900C#16, 1, fun w _ => .ldX (dReg w)⟩,
    ⟨0xFE0F#16, 0x900D#16, 1, fun w _ => .ldXInc (dReg w)⟩,
    ⟨0xFE0F#16, 0x900E#16, 1, fun w _ => .ldXDec (dReg w)⟩,
    ⟨0xFE0F#16, 0x900F#16, 1, fun w _ => .pop (dReg w)⟩ ]

/-- `1001 001.`: stores, PUSH (R109). -/
def tableStore : List Row :=
  [ ⟨0xFE0F#16, 0x9200#16, 2, fun w w2 => .sts w2 (dReg w)⟩,
    ⟨0xFE0F#16, 0x9201#16, 1, fun w _ => .stZInc (dReg w)⟩,
    ⟨0xFE0F#16, 0x9202#16, 1, fun w _ => .stZDec (dReg w)⟩,
    ⟨0xFE0F#16, 0x9209#16, 1, fun w _ => .stYInc (dReg w)⟩,
    ⟨0xFE0F#16, 0x920A#16, 1, fun w _ => .stYDec (dReg w)⟩,
    ⟨0xFE0F#16, 0x920C#16, 1, fun w _ => .stX (dReg w)⟩,
    ⟨0xFE0F#16, 0x920D#16, 1, fun w _ => .stXInc (dReg w)⟩,
    ⟨0xFE0F#16, 0x920E#16, 1, fun w _ => .stXDec (dReg w)⟩,
    ⟨0xFE0F#16, 0x920F#16, 1, fun w _ => .push (dReg w)⟩ ]

/-- `1001 010.`: one-register operations, flags, jumps, MCU control (R109). -/
def tableOne : List Row :=
  [ ⟨0xFE0F#16, 0x9400#16, 1, fun w _ => .com (dReg w)⟩,
    ⟨0xFE0F#16, 0x9401#16, 1, fun w _ => .neg (dReg w)⟩,
    ⟨0xFE0F#16, 0x9402#16, 1, fun w _ => .swap (dReg w)⟩,
    ⟨0xFE0F#16, 0x9403#16, 1, fun w _ => .inc (dReg w)⟩,
    ⟨0xFE0F#16, 0x9405#16, 1, fun w _ => .asr (dReg w)⟩,
    ⟨0xFE0F#16, 0x9406#16, 1, fun w _ => .lsr (dReg w)⟩,
    ⟨0xFE0F#16, 0x9407#16, 1, fun w _ => .ror (dReg w)⟩,
    ⟨0xFE0F#16, 0x940A#16, 1, fun w _ => .dec (dReg w)⟩,
    ⟨0xFF8F#16, 0x9408#16, 1, fun w _ => .bset (sSF w)⟩,
    ⟨0xFF8F#16, 0x9488#16, 1, fun w _ => .bclr (sSF w)⟩,
    ⟨0xFFFF#16, 0x9409#16, 1, fun _ _ => .ijmp⟩,
    ⟨0xFFFF#16, 0x9509#16, 1, fun _ _ => .icall⟩,
    ⟨0xFFFF#16, 0x9508#16, 1, fun _ _ => .ret⟩,
    ⟨0xFFFF#16, 0x9518#16, 1, fun _ _ => .reti⟩,
    ⟨0xFFFF#16, 0x9588#16, 1, fun _ _ => .sleep⟩,
    ⟨0xFFFF#16, 0x9598#16, 1, fun _ _ => .brk⟩,
    ⟨0xFFFF#16, 0x95A8#16, 1, fun _ _ => .wdr⟩,
    ⟨0xFFFF#16, 0x95C8#16, 1, fun _ _ => .lpm⟩,
    ⟨0xFFFF#16, 0x95E8#16, 1, fun _ _ => .spm⟩,
    ⟨0xFE0E#16, 0x940C#16, 2, fun w w2 => .jmp (kJ22 w w2)⟩,
    ⟨0xFE0E#16, 0x940E#16, 2, fun w w2 => .call (kJ22 w w2)⟩ ]

/-- `1001 011.` to `1001 11..`: ADIW, SBIW, I/O bits, MUL (R109). -/
def tableWordIo : List Row :=
  [ ⟨0xFF00#16, 0x9600#16, 1, fun w _ => .adiw (dWI w) (kWI w)⟩,
    ⟨0xFF00#16, 0x9700#16, 1, fun w _ => .sbiw (dWI w) (kWI w)⟩,
    ⟨0xFF00#16, 0x9800#16, 1, fun w _ => .cbi (aIOB w) (bitLow w)⟩,
    ⟨0xFF00#16, 0x9900#16, 1, fun w _ => .sbic (aIOB w) (bitLow w)⟩,
    ⟨0xFF00#16, 0x9A00#16, 1, fun w _ => .sbi (aIOB w) (bitLow w)⟩,
    ⟨0xFF00#16, 0x9B00#16, 1, fun w _ => .sbis (aIOB w) (bitLow w)⟩,
    ⟨0xFC00#16, 0x9C00#16, 1, fun w _ => .mul (dReg w) (rRR w)⟩ ]

/-- `op[15:12]` = 1011 to 1111 (R109). -/
def tableHigh : List Row :=
  [ ⟨0xF800#16, 0xB000#16, 1, fun w _ => .inp (dReg w) (aIO w)⟩,
    ⟨0xF800#16, 0xB800#16, 1, fun w _ => .out (aIO w) (dReg w)⟩,
    ⟨0xF000#16, 0xC000#16, 1, fun w _ => .rjmp (kJ12 w)⟩,
    ⟨0xF000#16, 0xD000#16, 1, fun w _ => .rcall (kJ12 w)⟩,
    ⟨0xF000#16, 0xE000#16, 1, fun w _ => .ldi (dRI w) (kRI w)⟩,
    ⟨0xFC00#16, 0xF000#16, 1, fun w _ => .brbs (bitLow w) (kBR w)⟩,
    ⟨0xFC00#16, 0xF400#16, 1, fun w _ => .brbc (bitLow w) (kBR w)⟩,
    ⟨0xFE08#16, 0xF800#16, 1, fun w _ => .bld (dReg w) (bitLow w)⟩,
    ⟨0xFE08#16, 0xFA00#16, 1, fun w _ => .bst (dReg w) (bitLow w)⟩,
    ⟨0xFE08#16, 0xFC00#16, 1, fun w _ => .sbrc (dReg w) (bitLow w)⟩,
    ⟨0xFE08#16, 0xFE00#16, 1, fun w _ => .sbrs (dReg w) (bitLow w)⟩ ]

/-- `REF_ITABLE` as patterns (R103, R104): the 86 rows of spec/opcode_table.json. -/
def table : List Row :=
  tableMoves ++ tableRR ++ tableRI ++ tableDisp ++ tableLoad ++ tableStore ++ tableOne ++ tableWordIo ++ tableHigh

/-- The row of an opcode word, if any (R102, R103). At most one row matches (R118). -/
def lookup (op : Word) : Option Row := table.find? fun r => op &&& r.mask == r.pattern

/-- A word that is the first of a two-word instruction (R105). -/
def isTwoWord (w : Word) : Bool :=
  w &&& 0xFE0F#16 == 0x9000#16 || w &&& 0xFE0F#16 == 0x9200#16 ||
  w &&& 0xFE0E#16 == 0x940C#16 || w &&& 0xFE0E#16 == 0x940E#16

/-! ## The decoder -/

/-- Why a sequence of words or bytes does not begin with an instruction. -/
inductive Reject where
  /-- There is no word to decode. -/
  | noWord
  /-- No row matches the word: `ITABLE(op)` is "no instruction" (R102, R110). -/
  | noInstruction (op : Word)
  /-- The word is the first of a two-word instruction and no word follows (R105, R142). -/
  | secondWordMissing (op : Word)
deriving DecidableEq, Repr

/-- The instruction a sequence of program words begins with, and the words after it. -/
def decodeWords : List Word → Except Reject (Instr × List Word)
  | [] => .error .noWord
  | op :: rest =>
    match lookup op with
    | none => .error (.noInstruction op)
    | some row =>
      if row.words = 1 then .ok (row.build op 0, rest)
      else match rest with
        | [] => .error (.secondWordMissing op)
        | w2 :: rest' => .ok (row.build op w2, rest')

/-- The words of an image: word i is `bytes[2i] + 256 * bytes[2i+1]` (R32, R71, R352). A last single
byte, which R352 does not allow in an image, makes no word. -/
def wordsOfBytes : List Byte → List Word
  | lo :: hi :: rest => joinBytes hi lo :: wordsOfBytes rest
  | [_] => []
  | [] => []

/-- The instruction a byte sequence begins with, in the byte order of the image (R71). -/
def decodeBytes (bs : List Byte) : Except Reject Instr :=
  match decodeWords (wordsOfBytes bs) with
  | .ok (i, _) => .ok i
  | .error e => .error e

/-- The image bytes of a table word whose bits are `w`: four bytes, the least significant first, every
bit from `nbits` up being zero. -/
def tableBytes (nbits w : Nat) : List Byte :=
  let v := w % 2 ^ nbits
  [BitVec.ofNat 8 v, BitVec.ofNat 8 (v / 256), BitVec.ofNat 8 (v / 65536),
    BitVec.ofNat 8 (v / 16777216)]

/-- The instruction the decoder reads from a word numbered as spec/opcode_table.json numbers it. -/
def decodeTableWord (nbits w : Nat) : Option Instr :=
  match decodeBytes (tableBytes nbits w) with
  | .ok i => some i
  | .error _ => none

/-! ## The encoder (R106, R108) -/

/-- `pattern` with the number `v` placed in the bits from `lo` up. -/
def put (pattern : Word) (lo v : Nat) : Word := pattern ||| BitVec.ofNat 16 (v * 2 ^ lo)

/-- A register in `op[8:4]` and nothing else (formats `RD`, `LS`, first word of `LS2`). -/
def encD (p : Word) (d : Reg) : Word := put p 4 d.val

/-- Format `RR`. -/
def encRR (p : Word) (d r : Reg) : Word := put (put (put p 9 (r.val / 16)) 4 d.val) 0 (r.val % 16)

/-- Format `RI`. -/
def encRI (p : Word) (d : Reg) (k : Byte) : Word :=
  put (put (put p 8 (k.toNat / 16)) 4 (d.val % 16)) 0 (k.toNat % 16)

/-- Format `M16`. -/
def encM16 (p : Word) (d r : Reg) : Word := put (put p 4 (d.val % 16)) 0 (r.val % 16)

/-- Format `M8`. -/
def encM8 (p : Word) (d r : Reg) : Word := put (put p 4 (d.val % 8)) 0 (r.val % 8)

/-- Format `MW`. -/
def encMW (p : Word) (d r : Reg) : Word := put (put p 4 (d.val / 2)) 0 (r.val / 2)

/-- Format `WI`. -/
def encWI (p : Word) (d : Reg) (k : BitVec 6) : Word :=
  put (put (put p 6 (k.toNat / 16)) 4 (d.val % 8 / 2)) 0 (k.toNat % 16)

/-- Format `LDD`. -/
def encLDD (p : Word) (d : Reg) (q : BitVec 6) : Word :=
  put (put (put (put p 13 (q.toNat / 32)) 10 (q.toNat / 8 % 4)) 4 d.val) 0 (q.toNat % 8)

/-- Format `IOB`. -/
def encIOB (p : Word) (a : Fin 32) (b : BitIx) : Word := put (put p 3 a.val) 0 b.val

/-- Format `IO`. -/
def encIO (p : Word) (d : Reg) (a : Fin 64) : Word :=
  put (put (put p 9 (a.val / 16)) 4 d.val) 0 (a.val % 16)

/-- Format `J12`. -/
def encJ12 (p : Word) (k : BitVec 12) : Word := put p 0 k.toNat

/-- Format `BR`. -/
def encBR (p : Word) (s : BitIx) (k : BitVec 7) : Word := put (put p 3 k.toNat) 0 s.val

/-- Format `RB`. -/
def encRB (p : Word) (d : Reg) (b : BitIx) : Word := put (put p 4 d.val) 0 b.val

/-- Format `SF`. -/
def encSF (p : Word) (s : BitIx) : Word := put p 4 s.val

/-- The first word of format `J22`. -/
def encJ22 (p : Word) (k : BitVec 22) : Word :=
  put (put p 4 (k.toNat / 131072)) 0 (k.toNat / 65536 % 2)

/-- The words of a well-formed instruction. -/
def encode : Instr → List Word
  | .add d r => [encRR 0x0C00#16 d r]
  | .adc d r => [encRR 0x1C00#16 d r]
  | .sub d r => [encRR 0x1800#16 d r]
  | .subi d k => [encRI 0x5000#16 d k]
  | .sbc d r => [encRR 0x0800#16 d r]
  | .sbci d k => [encRI 0x4000#16 d k]
  | .cp d r => [encRR 0x1400#16 d r]
  | .cpc d r => [encRR 0x0400#16 d r]
  | .cpi d k => [encRI 0x3000#16 d k]
  | .and d r => [encRR 0x2000#16 d r]
  | .andi d k => [encRI 0x7000#16 d k]
  | .or d r => [encRR 0x2800#16 d r]
  | .ori d k => [encRI 0x6000#16 d k]
  | .eor d r => [encRR 0x2400#16 d r]
  | .com d => [encD 0x9400#16 d]
  | .neg d => [encD 0x9401#16 d]
  | .inc d => [encD 0x9403#16 d]
  | .dec d => [encD 0x940A#16 d]
  | .asr d => [encD 0x9405#16 d]
  | .lsr d => [encD 0x9406#16 d]
  | .ror d => [encD 0x9407#16 d]
  | .swap d => [encD 0x9402#16 d]
  | .adiw d k => [encWI 0x9600#16 d k]
  | .sbiw d k => [encWI 0x9700#16 d k]
  | .mul d r => [encRR 0x9C00#16 d r]
  | .muls d r => [encM16 0x0200#16 d r]
  | .mulsu d r => [encM8 0x0300#16 d r]
  | .fmul d r => [encM8 0x0308#16 d r]
  | .fmuls d r => [encM8 0x0380#16 d r]
  | .fmulsu d r => [encM8 0x0388#16 d r]
  | .rjmp k => [encJ12 0xC000#16 k]
  | .jmp k => [encJ22 0x940C#16 k, BitVec.ofNat 16 k.toNat]
  | .ijmp => [0x9409#16]
  | .rcall k => [encJ12 0xD000#16 k]
  | .call k => [encJ22 0x940E#16 k, BitVec.ofNat 16 k.toNat]
  | .icall => [0x9509#16]
  | .ret => [0x9508#16]
  | .reti => [0x9518#16]
  | .brbs s k => [encBR 0xF000#16 s k]
  | .brbc s k => [encBR 0xF400#16 s k]
  | .cpse d r => [encRR 0x1000#16 d r]
  | .sbrc d b => [encRB 0xFC00#16 d b]
  | .sbrs d b => [encRB 0xFE00#16 d b]
  | .sbic a b => [encIOB 0x9900#16 a b]
  | .sbis a b => [encIOB 0x9B00#16 a b]
  | .mov d r => [encRR 0x2C00#16 d r]
  | .movw d r => [encMW 0x0100#16 d r]
  | .ldi d k => [encRI 0xE000#16 d k]
  | .ldX d => [encD 0x900C#16 d]
  | .ldXInc d => [encD 0x900D#16 d]
  | .ldXDec d => [encD 0x900E#16 d]
  | .ldYInc d => [encD 0x9009#16 d]
  | .ldYDec d => [encD 0x900A#16 d]
  | .lddY d q => [encLDD 0x8008#16 d q]
  | .ldZInc d => [encD 0x9001#16 d]
  | .ldZDec d => [encD 0x9002#16 d]
  | .lddZ d q => [encLDD 0x8000#16 d q]
  | .stX d => [encD 0x920C#16 d]
  | .stXInc d => [encD 0x920D#16 d]
  | .stXDec d => [encD 0x920E#16 d]
  | .stYInc d => [encD 0x9209#16 d]
  | .stYDec d => [encD 0x920A#16 d]
  | .stdY q d => [encLDD 0x8208#16 d q]
  | .stZInc d => [encD 0x9201#16 d]
  | .stZDec d => [encD 0x9202#16 d]
  | .stdZ q d => [encLDD 0x8200#16 d q]
  | .lds d k => [encD 0x9000#16 d, k]
  | .sts k d => [encD 0x9200#16 d, k]
  | .push d => [encD 0x920F#16 d]
  | .pop d => [encD 0x900F#16 d]
  | .inp d a => [encIO 0xB000#16 d a]
  | .out a d => [encIO 0xB800#16 d a]
  | .lpm => [0x95C8#16]
  | .lpmZ d => [encD 0x9004#16 d]
  | .lpmZInc d => [encD 0x9005#16 d]
  | .bset s => [encSF 0x9408#16 s]
  | .bclr s => [encSF 0x9488#16 s]
  | .bst d b => [encRB 0xFA00#16 d b]
  | .bld d b => [encRB 0xF800#16 d b]
  | .sbi a b => [encIOB 0x9A00#16 a b]
  | .cbi a b => [encIOB 0x9800#16 a b]
  | .nop => [0x0000#16]
  | .wdr => [0x95A8#16]
  | .sleep => [0x9588#16]
  | .brk => [0x9598#16]
  | .spm => [0x95E8#16]

/-- The number of words of an instruction (R105). -/
def instrWords (i : Instr) : Nat := (encode i).length

end Sys2Proof
end

