-- ==== Sys2Proof/Config.lean ====
section
/-! DEFINITION. What is fixed for the life of a unit and what the spec leaves open: the numeric
parameters of spec/00_scope.md R6, the plain data a peripheral function is given and gives back
(spec/20_memory.md R66 to R68), a handler as the engine sees it (spec/40_engine_step.md R137), and the
free values (two more, over the state, stand in Machine/Unit.lean). -/

namespace Sys2Proof

/-- The backing buffer `B` of the data space (R20, R61) as a list of (address, byte) pairs; an address
not listed reads as zero. Canonical form: `Memory.wf`. Log entry 2. -/
abbrev Memory := List Host.Cell

/-- The opaque state of the peripherals (R33), as a list of numbers. Log entry 5. -/
abbrev Plat := List Nat

/-- The numeric parameters that R6 leaves OPEN and that the core consults. `N_VECTORS` and `PROG_WORDS`
are the lengths of `State.pend` and `State.prog`; `NREGS`, `REG_BASE`, `INT_COST` and `VEC_SCALE` are
fixed below. Log entry 1. -/
structure Params where
  dataSize : Nat
  sregAddr : Nat
  spAddr : Nat
  xAddr : Nat
  yAddr : Nat
  zAddr : Nat
  ioBase : Nat
deriving DecidableEq, Repr

/-- The constraints R6 puts on the parameters (decisions D3, D4). -/
abbrev Params.Ok (p : Params) : Prop :=
  p.dataSize ≤ 65536 ∧ 32 ≤ p.ioBase ∧
  p.sregAddr < p.dataSize ∧ p.spAddr + 1 < p.dataSize ∧
  32 ≤ p.sregAddr ∧ 32 ≤ p.spAddr ∧ p.sregAddr ≠ p.spAddr ∧ p.sregAddr ≠ p.spAddr + 1 ∧
  (p.xAddr % 2 = 0 ∧ p.xAddr < 31) ∧ (p.yAddr % 2 = 0 ∧ p.yAddr < 31) ∧
  (p.zAddr % 2 = 0 ∧ p.zAddr < 31) ∧
  p.xAddr ≠ p.yAddr ∧ p.xAddr ≠ p.zAddr ∧ p.yAddr ≠ p.zAddr

/-- What a peripheral sets or withdraws at the interrupt controller (R311, R312). -/
inductive IrqAct where
  | raise (v : Nat)
  | clear (v : Nat)
deriving DecidableEq, Repr

/-- Everything a hook or a peripheral's step may look at (R66, R67, R68, R332). `addr` and `written`
are the accessed address and the value written (both zero for a peripheral's own step, `written`
zero for a read hook). -/
structure HookIn where
  plat : Plat
  mem : Memory
  pend : List Bool
  addr : Nat
  written : Byte
deriving DecidableEq, Repr

/-- Everything a hook or a peripheral's step may do (R66, R67, R68, R85, R332): a new peripheral state,
raw byte writes in order, raises and clears in order, and, for a read hook, the byte read. -/
structure HookOut where
  plat : Plat
  pokes : List Host.Cell
  irqs : List IrqAct
  answer : Byte
deriving DecidableEq, Repr, Inhabited

/-- A handler as R137 allows one: a finite course of the accesses it may make, each going on with what it
read, ending with the number it returns. It has no way to `wait`, `total`, `pend`, `plat` or the hook
tables, to a state of its own, or to a fault of its own; a word access is two byte accesses (R65). -/
inductive HandlerProg where
  | done (k : Nat)
  | memRead (a : Nat) (next : Byte → HandlerProg)
  | memWrite (a : Nat) (v : Byte) (next : HandlerProg)
  | fetch (i : Word) (next : Word → HandlerProg)
  | readPc (next : Word → HandlerProg)
  | writePc (t : Word) (next : HandlerProg)

namespace Config

/-- `NREGS` (R6, R21). -/
def nregs : Nat := 32

/-- `REG_BASE` (R6, R21). -/
def regBase : Nat := 0

/-- `INT_COST` (R6, R133). -/
def intCost : Nat := 4

/-- `VEC_SCALE` (R6, R133). -/
def vecScale : Nat := 2

/-- The default of `N_VECTORS` (R6, decision D6). PRESUMED by the spec (ATmega328). Log entry 1. -/
def nVectors : Nat := 26

/-- The default parameters of R6 (decisions D3, D4). PRESUMED by the spec (ATmega328P). Log entry 1. -/
def params : Params :=
  { dataSize := 0x0900, sregAddr := 0x5F, spAddr := 0x5D, xAddr := 26, yAddr := 28, zAddr := 30,
    ioBase := 0x20 }

/-- FREE VALUE. The behaviour of the peripheral function number `n` (a read hook, a write hook or a
peripheral's step): the parameter `PLATFORM` of R6, any total function of what R66 to R68 and R332
let it see. It has no body, so no statement can depend on what it does. Log entry 4. -/
opaque freeBehaviour : Nat → HookIn → HookOut

/-- FREE VALUE. The instruction table number `n`: the parameter `ITABLE` of R6 and R101, from every opcode
word to a handler or "no instruction". It has no body, so no statement can depend on what a handler of
it does. Log entry 8. -/
opaque freeTable : Nat → Word → Option HandlerProg

end Config

end Sys2Proof
end

