-- ==== Sys2Proof/Machine/Memory.lean ====
section
/-! DEFINITION. The backing buffer `B` of the data space as a sparse list in canonical form: raw byte
access, without range check and without hooks (spec/10_state.md R20, spec/20_memory.md R61). -/

namespace Sys2Proof

/-- The byte at an address; an address not listed reads as zero (`MEM_INIT`, log entry 2). -/
def Memory.get : Memory → Nat → Byte
  | [], _ => 0#8
  | (k, b) :: m, a => if a = k then b else Memory.get m a

/-- The memory with one byte replaced, in canonical form again: rising addresses, no zero listed. -/
def Memory.set : Memory → Nat → Byte → Memory
  | [], a, v => if v = 0#8 then [] else [(a, v)]
  | (k, b) :: m, a, v =>
    if a < k then (if v = 0#8 then (k, b) :: m else (a, v) :: (k, b) :: m)
    else if a = k then (if v = 0#8 then m else (a, v) :: m)
    else (k, b) :: Memory.set m a v

/-- Addresses from `lo` up, strictly rising, and no entry equal to what an unlisted address reads as. -/
def Memory.wfFrom : Nat → Memory → Bool
  | _, [] => true
  | lo, (k, b) :: m => decide (lo ≤ k) && b != 0#8 && Memory.wfFrom (k + 1) m

/-- The canonical form: equal memories are equal lists. -/
def Memory.wf (m : Memory) : Bool := Memory.wfFrom 0 m

/-- Every listed address exists: it is below `DATA_SIZE` (R61). -/
def Memory.below (size : Nat) : Memory → Bool
  | [] => true
  | (k, _) :: m => decide (k < size) && Memory.below size m

/-- Raw writes in order, each ignored where the address does not exist (R68: a hook does not fault). -/
def Memory.pokes (size : Nat) : Memory → List Host.Cell → Memory
  | m, [] => m
  | m, (a, v) :: rest => Memory.pokes size (if a < size then m.set a v else m) rest

end Sys2Proof
end

