-- ==== Sys2Proof/Machine/State.lean ====
section
/-! DEFINITION. The state of the machine as plain data (spec/10_state.md R20, R37), the faults it stops
with (spec/60_exceptions.md R300), and the state after reset. -/

namespace Sys2Proof.Machine

/-- The address space of an `AddressRangeFault` (R300). -/
inductive Space where
  | data
  | program
deriving DecidableEq, Repr

/-- The reason of a `ConfigurationFault` (R300, R301). -/
inductive ConfigReason where
  | oddLength
  | empty
  | tooLong
deriving DecidableEq, Repr

/-- The three faults of the machine (R9, R300). A fault is terminal: no instruction can catch it and
only a reset ends it. -/
inductive Fault where
  /-- F1, raised by `resetUnit` at load time for an image no unit can be built from (R301). Safe: the
  spec refuses to reach a runnable state. -/
  | configuration (reason : ConfigReason)
  /-- F2, raised by an execute step for an opcode word without a handler, with the word and the address
  it was fetched from (R302), and by the refused instructions SLEEP, BREAK and SPM (R111). Safe: the
  spec stops here. -/
  | decode (op pc : Word)
  /-- F3, raised by a data access at or above `DATA_SIZE` (R83), by a fetch at or above `PROG_WORDS`
  (R72) and by `connect` (R69). Safe: the spec stops here. -/
  | addressRange (space : Space) (addr : Nat)
deriving DecidableEq, Repr

/-- Why the model has no next state although the machine raised no fault. -/
inductive Refusal where
  /-- Raised by an arm of `exec` that has no meaning yet; no arm is left without one. Safe. -/
  | notModelled (mnemonic : String)
  /-- Raised by `coreStep` and `advance` on a state whose fault latch is set: "if `halted` is not `none`
  there is no step at all" (R130, R34). Safe: the spec gives no transition. -/
  | halted (f : Fault)
deriving DecidableEq, Repr

/-- The expressions of a scripted peripheral function, evaluated on what the function is given. -/
inductive HookExpr where
  | lit (b : Byte)
  /-- The value being written (R67). -/
  | written
  /-- The stored byte at an address, read raw (R68). -/
  | byteAt (a : Nat)
  /-- Element `i` of the peripheral state, modulo 256. -/
  | platAt (i : Nat)
  | and (x y : HookExpr)
  | or (x y : HookExpr)
  | xor (x y : HookExpr)
  | add (x y : HookExpr)
deriving DecidableEq, Repr

/-- The effects R68 allows a peripheral function. -/
inductive HookAct where
  | poke (a : Nat) (e : HookExpr)
  | setPlat (i : Nat) (e : HookExpr)
  | raise (v : Nat)
  | clear (v : Nat)
deriving DecidableEq, Repr

/-- A peripheral's function: a read hook (R66), a write hook (R67) or a peripheral's step (R332). `free n`
is any function at all, of which nothing is known (`Config.freeBehaviour`); `script` is one written
out, for tests and simulation. Log entry 4. -/
inductive Behaviour where
  | free (n : Nat)
  | script (acts : List HookAct) (answer : HookExpr)
deriving DecidableEq, Repr

/-- The clock's ordered component list (R330): the peripherals registered before the core and those
registered after it. The core is in it exactly once by its form (R350, C8). -/
structure Clock where
  before : List Behaviour
  after : List Behaviour
deriving DecidableEq, Repr

/-- The values of a scripted handler, computed from its opcode and what it has read so far. -/
inductive HandlerVal where
  | lit (w : Word)
  | opcode
  /-- What the handler's read number `i` gave, the first being 0. -/
  | answer (i : Nat)
  | and (x y : HandlerVal)
  | or (x y : HandlerVal)
  | xor (x y : HandlerVal)
  | add (x y : HandlerVal)
  | sub (x y : HandlerVal)
  /-- `x` where `c` is not zero, else `y`. -/
  | select (c x y : HandlerVal)
deriving DecidableEq, Repr

/-- The accesses R137 allows a handler. `memRead`, `fetch` and `readPc` are its reads. -/
inductive HandlerOp where
  | memRead (a : HandlerVal)
  /-- Stores the low byte of `v`. -/
  | memWrite (a v : HandlerVal)
  | fetch (i : HandlerVal)
  | readPc
  | writePc (t : HandlerVal)
deriving DecidableEq, Repr

/-- What an instruction table other than `REF_ITABLE` gives for an opcode. `free n` is what the table
number `n`, of which nothing is known, gives for it (`Config.freeTable`); `script` is a handler written
out, for tests and simulation. Log entry 8. -/
inductive OwnHandler where
  | noInstruction
  | free (n : Nat)
  | script (ops : List HandlerOp) (cost : HandlerVal)
deriving DecidableEq, Repr

/-- An entry of `ITABLE`: the one `REF_ITABLE` has for the word, be it a handler or "no instruction"
(R103, R110), or one of the table's own. -/
inductive ITableEntry where
  | reference
  | own (h : OwnHandler)
deriving DecidableEq, Repr

/-- The instruction capability table `ITABLE` (R101): an entry for every opcode word, the listed ones
and one for all others. -/
structure ITable where
  listed : List (Word × ITableEntry)
  others : ITableEntry
deriving DecidableEq, Repr

/-- `REF_ITABLE`, the default of `ITABLE` (R2, R6). -/
def ITable.reference : ITable := { listed := [], others := .reference }

/-- The state of R20, and, from `params` on, what R20 calls configuration, fixed for the life of a reset. -/
structure State where
  /-- `B`, the data space; the registers, `SREG` and `SP` are bytes of it (R20, R35). -/
  mem : Memory
  /-- The program counter, a word address (R23). -/
  pc : Word
  /-- Steps the core still has to idle (R28). -/
  wait : Nat
  /-- Steps of the core since reset (R29). -/
  total : Nat
  /-- The pending flags, vector 0 first; `N_VECTORS` is the length (R30, R310). -/
  pend : List Bool
  /-- The state of the peripherals (R33). -/
  plat : Plat
  /-- The fault latch (R34). -/
  halted : Option Fault
  /-- The numeric parameters of the unit (R6). -/
  params : Params
  /-- The program store `P`; `PROG_WORDS` is the length (R32, R71). -/
  prog : List Word
  /-- The read hooks, at most one per address consulted, the last registered first (R31, R69). -/
  rdHooks : List (Nat × Behaviour)
  /-- The write hooks (R31, R69). -/
  wrHooks : List (Nat × Behaviour)
  /-- The clock's component list (R330). -/
  clock : Clock
  /-- The instruction table `ITABLE` (R6, R101). -/
  itable : ITable
deriving DecidableEq, Repr

/-- `SP_RESET` = `DATA_SIZE` - 1 (R6, R37, C4). -/
def State.spReset (p : Params) : Word := BitVec.ofNat 16 (p.dataSize - 1)

/-- The data space after reset (R350): `MEM_INIT` with the status slot zero and the stack-pointer slot
at `SP_RESET`, written raw. -/
def State.resetMem (p : Params) (memInit : Memory) : Memory :=
  ((memInit.set p.sregAddr 0).set p.spAddr (lowByte (spReset p))).set (p.spAddr + 1)
    (highByte (spReset p))

/-- The machine right after reset (R37), with the default parameters of R6, the bare engine (no
peripheral, R330), `MEM_INIT` zero and no image loaded yet. Log entries 1, 2, 3, 8, 12. `resetUnit`
gives the reset state for any image and platform. -/
def State.reset : State :=
  { mem := State.resetMem Config.params []
    pc := 0
    wait := 0
    total := 0
    pend := List.replicate Config.nVectors false
    plat := []
    halted := none
    params := Config.params
    prog := []
    rdHooks := []
    wrHooks := []
    clock := { before := [], after := [] }
    itable := ITable.reference }

end Sys2Proof.Machine
end

