-- ==== Sys2Proof/Machine/Hooks.lean ====
section
/-! DEFINITION. The interrupt controller (spec/60_exceptions.md R310 to R313) and the application of
peripheral functions, hooks and peripheral steps, to the state (spec/20_memory.md R66 to R68,
spec/60_exceptions.md R332). -/

namespace Sys2Proof.Machine

/-! ## The interrupt controller -/

/-- `Raise(v)` on the pending flags; a vector number out of range is ignored (R311). -/
def pendRaise (pend : List Bool) (v : Nat) : List Bool := pend.set v true

/-- `Clear(v)` on the pending flags; a vector number out of range is ignored (R312). -/
def pendClear (pend : List Bool) (v : Nat) : List Bool := pend.set v false

/-- `FirstPending(pend)`: the lowest pending vector, or none (R313). -/
def firstPending : List Bool → Option Nat
  | [] => none
  | true :: _ => some 0
  | false :: rest => (firstPending rest).map (· + 1)

/-- Raises and clears in order (R323: the later one wins). -/
def pendActs : List Bool → List IrqAct → List Bool
  | pend, [] => pend
  | pend, .raise v :: rest => pendActs (pendRaise pend v) rest
  | pend, .clear v :: rest => pendActs (pendClear pend v) rest

/-! ## Scripted peripheral functions (log entry 4) -/

/-- Element `i` of the peripheral state; one that was never set is zero. -/
def platGet : Plat → Nat → Nat
  | [], _ => 0
  | x :: _, 0 => x
  | _ :: rest, i + 1 => platGet rest i

/-- The peripheral state with element `i` replaced, lengthened with zeros where it is too short. -/
def platSet : Plat → Nat → Nat → Plat
  | [], 0, v => [v]
  | [], i + 1, v => 0 :: platSet [] i v
  | _ :: rest, 0, v => v :: rest
  | x :: rest, i + 1, v => x :: platSet rest i v

def evalHookExpr (i : HookIn) : HookExpr → Byte
  | .lit b => b
  | .written => i.written
  | .byteAt a => i.mem.get a
  | .platAt k => BitVec.ofNat 8 (platGet i.plat k)
  | .and x y => evalHookExpr i x &&& evalHookExpr i y
  | .or x y => evalHookExpr i x ||| evalHookExpr i y
  | .xor x y => evalHookExpr i x ^^^ evalHookExpr i y
  | .add x y => evalHookExpr i x + evalHookExpr i y

/-- The effects of a script, all its expressions evaluated on the input, in the order written. -/
def runScript (i : HookIn) : List HookAct → HookOut → HookOut
  | [], o => o
  | .poke a e :: rest, o => runScript i rest { o with pokes := o.pokes ++ [(a, evalHookExpr i e)] }
  | .setPlat k e :: rest, o =>
    runScript i rest { o with plat := platSet o.plat k (evalHookExpr i e).toNat }
  | .raise v :: rest, o => runScript i rest { o with irqs := o.irqs ++ [.raise v] }
  | .clear v :: rest, o => runScript i rest { o with irqs := o.irqs ++ [.clear v] }

/-- What a peripheral function answers on its input. -/
def behaviourOut : Behaviour → HookIn → HookOut
  | .free n, i => Config.freeBehaviour n i
  | .script acts answer, i =>
    runScript i acts { plat := i.plat, pokes := [], irqs := [], answer := evalHookExpr i answer }

/-! ## Peripheral functions on the state -/

/-- What a peripheral function is given of the state (R66, R67, R332). -/
def hookIn (s : State) (addr : Nat) (written : Byte) : HookIn :=
  { plat := s.plat, mem := s.mem, pend := s.pend, addr := addr, written := written }

/-- The effect of a peripheral function: it may change `plat`, `B` (raw) and `pend`, and nothing else
(R68, R332). -/
def applyOut (o : HookOut) (s : State) : State :=
  { s with
    plat := o.plat
    mem := s.mem.pokes s.params.dataSize o.pokes
    pend := pendActs s.pend o.irqs }

/-- The hook at an address, if any: the last registered (R31, R69). -/
def hookAt : List (Nat × Behaviour) → Nat → Option Behaviour
  | [], _ => none
  | (k, h) :: rest, a => if a = k then some h else hookAt rest a

/-- One step of a peripheral (R332). -/
def stepPeripheral (b : Behaviour) (s : State) : State := applyOut (behaviourOut b (hookIn s 0 0)) s

/-- One step of each peripheral of a list, in order (R330). -/
def stepPeripherals : List Behaviour → State → State
  | [], s => s
  | b :: rest, s => stepPeripherals rest (stepPeripheral b s)

end Sys2Proof.Machine
end

