-- ==== Sys2Proof/Machine/Ops.lean ====
section
/-! DEFINITION. The named operations every handler is written with: the trap multiplexer
(spec/20_memory.md R63 to R65), the program store (R72), registers, pointers, `SREG` and `SP`
(spec/10_state.md R21 to R27), the stack (spec/40_engine_step.md R139 to R141), and taking an
interrupt and returning from one (R133; spec/60_exceptions.md R318, R321). -/

namespace Sys2Proof.Machine

/-- A part of a step: from a state, a value and the next state, or a fault that ends the step (R9).
The accesses of a `do` block happen in the order written (R138). -/
abbrev Act (α : Type) := StateT State (Except Fault) α

/-- `raise F` (R9). -/
def raiseFault {α : Type} (f : Fault) : Act α := fun _ => .error f

/-! ## Data space -/

/-- `MemRead(a, 1)` (R63): range check, then the read hook, then the stored byte. -/
def memRead (a : Nat) : Act Byte := fun s =>
  if a < s.params.dataSize then
    match hookAt s.rdHooks a with
    | none => .ok (s.mem.get a, s)
    | some h =>
      let o := behaviourOut h (hookIn s a 0)
      .ok (o.answer, applyOut o s)
  else .error (.addressRange .data a)

/-- `MemWrite(a, 1, v)` (R64): range check, then the write hook, whose result is the whole effect (R67),
or else the store. -/
def memWrite (a : Nat) (v : Byte) : Act Unit := fun s =>
  if a < s.params.dataSize then
    match hookAt s.wrHooks a with
    | none => .ok ((), { s with mem := s.mem.set a v })
    | some h => .ok ((), applyOut (behaviourOut h (hookIn s a v)) s)
  else .error (.addressRange .data a)

/-- `MemRead(a, 2)` (R65): low byte first; `a + 1` does not wrap (D22). -/
def memRead16 (a : Nat) : Act Word := do
  let lo ← memRead a
  let hi ← memRead (a + 1)
  return joinBytes hi lo

/-- `MemWrite(a, 2, v)` (R65): low byte first; `a + 1` does not wrap (D22). -/
def memWrite16 (a : Nat) (v : Word) : Act Unit := do
  memWrite a (lowByte v)
  memWrite (a + 1) (highByte v)

/-! ## Program store -/

/-- Word `i` of the program store, if it is inside the image (R72). -/
def progWord (s : State) (i : Word) : Option Word := s.prog[i.toNat]?

/-- `Fetch(i)` (R72). -/
def fetch (i : Word) : Act Word := fun s =>
  match progWord s i with
  | some w => .ok (w, s)
  | none => .error (.addressRange .program i.toNat)

/-- `PByte(z)` (R260): the low byte of word `z >> 1` where z is even, its high byte where z is odd. -/
def programByte (z : Word) : Act Byte := do
  let w ← fetch (z >>> 1)
  return if z.toNat % 2 = 0 then lowByte w else highByte w

/-! ## Program counter -/

/-- Read `pc` (R23). -/
def getPc : Act Word := fun s => .ok (s.pc, s)

/-- `pc <- t`, never range-checked (R23). -/
def setPc (t : Word) : Act Unit := fun s => .ok ((), { s with pc := t })

/-- `pc <- pc + offset`, modulo 2^16 (R210). -/
def jumpBy (offset : Word) : Act Unit := fun s => .ok ((), { s with pc := s.pc + offset })

/-! ## General registers and register pairs -/

/-- `x[i]` (R21). -/
def readReg (r : Reg) : Act Byte := memRead (Config.regBase + r.val)

/-- `x[i] <- v` (R21). -/
def writeReg (r : Reg) (v : Byte) : Act Unit := memWrite (Config.regBase + r.val) v

/-- `xw[r]` (R8, R22). -/
def readPair (r : Reg) : Act Word := memRead16 (Config.regBase + r.val)

/-- `xw[r] <- v` (R8, R22). -/
def writePair (r : Reg) (v : Word) : Act Unit := memWrite16 (Config.regBase + r.val) v

/-- The pointer registers (R22). -/
inductive Pointer where
  | x
  | y
  | z
deriving DecidableEq, Repr

/-- `X_ADDR`, `Y_ADDR`, `Z_ADDR` (R6, R22). -/
def pointerAddr (p : Params) : Pointer → Nat
  | .x => p.xAddr
  | .y => p.yAddr
  | .z => p.zAddr

/-- `X`, `Y`, `Z` (R22). -/
def readPointer (p : Pointer) : Act Word := fun s => memRead16 (pointerAddr s.params p) s

/-- `X <- v` and so on (R22). -/
def writePointer (p : Pointer) (v : Word) : Act Unit := fun s =>
  memWrite16 (pointerAddr s.params p) v s

/-! ## Status register and I/O locations -/

/-- `SREG` (R25). -/
def readSreg : Act Byte := fun s => memRead s.params.sregAddr s

/-- `SREG <- v` (R25). -/
def writeSreg (v : Byte) : Act Unit := fun s => memWrite s.params.sregAddr v s

/-- `v` with bit `k` replaced by `b`: `(v & ~(1<<k)) | (b<<k)` (R27). -/
def withBit (v : Byte) (k : BitIx) (b : Bool) : Byte :=
  (v &&& ~~~(1#8 <<< k.val)) ||| ((if b then 1#8 else 0#8) <<< k.val)

/-- Bit `k` of `v` (R7). -/
def bitOf (v : Byte) (k : BitIx) : Bool := v.getLsbD k.val

/-- `Flag(k)` (R27): one hooked read. -/
def readFlag (k : BitIx) : Act Bool := do
  let v ← readSreg
  return bitOf v k

/-- `SetFlag(k, b)` (R27): one hooked read, one hooked write. -/
def writeFlag (k : BitIx) (b : Bool) : Act Unit := do
  let v ← readSreg
  writeSreg (withBit v k b)

/-- The I flag is bit 7 (R6, R25). -/
def flagI : BitIx := 7

/-- The data address of I/O location `a`: `IO_BASE + a` (R84), a 16-bit address computed modulo 2^16
(R230). -/
def ioAddr (p : Params) (a : Nat) : Nat := (p.ioBase + a) % 65536

/-- The byte at I/O location `a` (R84). -/
def readIo (a : Nat) : Act Byte := fun s => memRead (ioAddr s.params a) s

/-- Write the byte at I/O location `a` (R84). -/
def writeIo (a : Nat) (v : Byte) : Act Unit := fun s => memWrite (ioAddr s.params a) v s

/-! ## Stack -/

/-- `SP` (R24). -/
def readSp : Act Word := fun s => memRead16 s.params.spAddr s

/-- `SP <- v` (R24). -/
def writeSp (v : Word) : Act Unit := fun s => memWrite16 s.params.spAddr v s

/-- `Push8(v)` (R139): predecrement, write `SP` back, then store. -/
def push8 (v : Byte) : Act Unit := do
  let sp ← readSp
  writeSp (sp - 1)
  memWrite (sp - 1).toNat v

/-- `Pop8()` (R140): load, then postincrement. -/
def pop8 : Act Byte := do
  let sp ← readSp
  let v ← memRead sp.toNat
  writeSp (sp + 1)
  return v

/-- Push a word address: high byte first, then low byte (R133, R141, R214). -/
def pushPc (p : Word) : Act Unit := do
  push8 (highByte p)
  push8 (lowByte p)

/-- Pop a word address: low byte first, then high byte (R141, R217). -/
def popPc : Act Word := do
  let lo ← pop8
  let hi ← pop8
  return joinBytes hi lo

/-! ## Taking an interrupt and returning from one -/

/-- `Clear(v)` by the engine (R312, R314). -/
def acknowledge (v : Nat) : Act Unit := fun s => .ok ((), { s with pend := pendClear s.pend v })

/-- The interrupt step for vector `v` (R133): push `pc`, enter at `VEC_SCALE * v`, clear the vector's
pending flag and I, and load `wait` with `INT_COST`. -/
def takeInterrupt (v : Nat) : Act Unit := do
  let p ← getPc
  pushPc p
  setPc (BitVec.ofNat 16 (Config.vecScale * v))
  acknowledge v
  writeFlag flagI false
  fun s => .ok ((), { s with wait := Config.intCost })

/-- Return from an interrupt (R218, R321): pop `pc`, then set I. No other flag and no register is
restored. -/
def returnFromInterrupt : Act Unit := do
  let p ← popPc
  setPc p
  writeFlag flagI true

/-! ## Running a handler -/

/-- A handler as the engine runs it (R101, R134): its effects, then `wait <- k` for the number `k` it
returns. -/
def runHandler (h : Act Nat) (s : State) : Host.Outcome State Fault Refusal :=
  match h s with
  | .ok (k, s') => .next { s' with wait := k }
  | .error f => .fault f

end Sys2Proof.Machine
end

