-- ==== Sys2Proof/Machine/Flags.lean ====
section
/-! DEFINITION. Every flag computation of `REF_ITABLE` (spec/41_ref_arith_logic.md R161 to R163 and the
flag lines of R178 to R193), and the one way flags are written (R138, R160). -/

namespace Sys2Proof.Machine

/-- The flags of `SREG` (R25, R26). -/
inductive Flag where
  | c
  | z
  | n
  | v
  | s
  | h
  | t
  | i
deriving DecidableEq, Repr

/-- The bit number of a flag (R6, R25). -/
def flagIx : Flag → BitIx
  | .c => 0
  | .z => 1
  | .n => 2
  | .v => 3
  | .s => 4
  | .h => 5
  | .t => 6
  | .i => 7

/-- The flags an instruction writes, each with its new value. -/
abbrev FlagWrites := List (Flag × Bool)

/-- `SREG` with the named flags replaced and every other bit as it was (R138). -/
def withFlags : Byte → FlagWrites → Byte
  | v, [] => v
  | v, (f, b) :: rest => withFlags (withBit v (flagIx f) b) rest

/-- `SREG.{...} <- ...`: one read of `SREG`, then one write (R138). -/
def updateFlags (ws : FlagWrites) : Act Unit := do
  let v ← readSreg
  writeSreg (withFlags v ws)

/-- 0 or 1, as the carry is added and subtracted (R161, R162). -/
def carryNat (c : Bool) : Nat := if c then 1 else 0

/-- `AddFlags(a, b, c, R)` (R161). -/
def addFlags (a b : Byte) (c : Bool) (R : Byte) : FlagWrites :=
  let h := decide (16 ≤ a.toNat % 16 + b.toNat % 16 + carryNat c)
  let cy := decide (256 ≤ a.toNat + b.toNat + carryNat c)
  let sum := a.toInt + b.toInt + carryNat c
  let v := decide (sum < -128 ∨ 127 < sum)
  let n := R.msb
  [(.h, h), (.s, n ^^ v), (.v, v), (.n, n), (.z, R == 0), (.c, cy)]

/-- `SubFlags(a, b, c, R, zmode)` (R162): `zOld` is `none` for `plain`, and the old Z for `keep`. -/
def subFlags (a b : Byte) (c : Bool) (R : Byte) (zOld : Option Bool) : FlagWrites :=
  let h := decide (a.toNat % 16 < b.toNat % 16 + carryNat c)
  let cy := decide (a.toNat < b.toNat + carryNat c)
  let diff := a.toInt - b.toInt - carryNat c
  let v := decide (diff < -128 ∨ 127 < diff)
  let n := R.msb
  let z := match zOld with
    | none => R == 0
    | some old => R == 0 && old
  [(.h, h), (.s, n ^^ v), (.v, v), (.n, n), (.z, z), (.c, cy)]

/-- `LogicFlags(R)` (R163). -/
def logicFlags (R : Byte) : FlagWrites :=
  [(.s, R.msb), (.v, false), (.n, R.msb), (.z, R == 0)]

/-- COM (R178). -/
def comFlags (R : Byte) : FlagWrites :=
  [(.s, R.msb), (.v, false), (.n, R.msb), (.z, R == 0), (.c, true)]

/-- NEG (R179). -/
def negFlags (a R : Byte) : FlagWrites :=
  let v := R == 0x80
  [(.h, bitOf R 3 || bitOf a 3), (.s, R.msb ^^ v), (.v, v), (.n, R.msb), (.z, R == 0), (.c, R != 0)]

/-- INC (R180) and DEC (R181): `top` is the result that signals overflow, 0x80 or 0x7F. -/
def stepFlags (top R : Byte) : FlagWrites :=
  let v := R == top
  [(.s, R.msb ^^ v), (.v, v), (.n, R.msb), (.z, R == 0)]

/-- ASR (R182), LSR (R183), ROR (R184): `out` is the bit shifted out, the new C. -/
def shiftFlags (out : Bool) (R : Byte) : FlagWrites :=
  let n := R.msb
  let v := n ^^ out
  [(.s, n ^^ v), (.v, v), (.n, n), (.z, R == 0), (.c, out)]

/-- ADIW (R186). -/
def adiwFlags (W R : Word) : FlagWrites :=
  let v := !W.msb && R.msb
  [(.s, R.msb ^^ v), (.v, v), (.n, R.msb), (.z, R == 0), (.c, !R.msb && W.msb)]

/-- SBIW (R187). -/
def sbiwFlags (W R : Word) : FlagWrites :=
  let v := W.msb && !R.msb
  [(.s, R.msb ^^ v), (.v, v), (.n, R.msb), (.z, R == 0), (.c, R.msb && !W.msb)]

/-- The multiplications (R188 to R193): C is the top bit of the product before any shift, Z looks at the
16-bit result. -/
def mulFlags (P R : Word) : FlagWrites := [(.z, R == 0), (.c, P.msb)]

end Sys2Proof.Machine
end

