-- ==== Sys2Proof/Machine/Operands.lean ====
section
/-! DEFINITION. The operand forms of `REF_ITABLE`: the shapes of register operations
(spec/41_ref_arith_logic.md R160), the addressing modes (spec/43_ref_data_transfer.md R230, R231) and
the primitives of control transfer (spec/40_engine_step.md R146; spec/42_ref_control_transfer.md R210).
Each form answers the number of steps `k` the handler returns (R143). Reads stand in the order of R138
and R160; an instruction that reads a flag and writes flags reads `SREG` once and writes it once
(R138, log entry 9). -/

namespace Sys2Proof.Machine

/-! ## Register operations -/

/-- Two registers, result to the first, then flags. -/
def aluRR (d r : Reg) (f : Byte → Byte → Byte) (flags : Byte → Byte → Byte → FlagWrites) : Act Nat := do
  let a ← readReg d
  let b ← readReg r
  let R := f a b
  writeReg d R
  updateFlags (flags a b R)
  return 1

/-- A register and an immediate, result to the register, then flags. -/
def aluRI (d : Reg) (k : Byte) (f : Byte → Byte → Byte) (flags : Byte → Byte → Byte → FlagWrites) :
    Act Nat := do
  let a ← readReg d
  let R := f a k
  writeReg d R
  updateFlags (flags a k R)
  return 1

/-- One register, result to it, then flags. -/
def aluD (d : Reg) (f : Byte → Byte) (flags : Byte → Byte → FlagWrites) : Act Nat := do
  let a ← readReg d
  let R := f a
  writeReg d R
  updateFlags (flags a R)
  return 1

/-- The subtraction of two values with the borrow and the old Z taken from `SREG` as it was read
(`zmode = keep`, R162). -/
def subKeep (v a b : Byte) : Byte × FlagWrites :=
  let c := bitOf v 0
  let R := a - b - BitVec.ofNat 8 (carryNat c)
  (R, subFlags a b c R (some (bitOf v 1)))

/-- SBC and SBCI, the second operand `b` already there. -/
def sbcWith (d : Reg) (a b : Byte) : Act Nat := do
  let v ← readSreg
  let (R, ws) := subKeep v a b
  writeReg d R
  writeSreg (withFlags v ws)
  return 1

/-- The 16-bit immediate operations on a register pair (R186, R187). -/
def aluPair (d : Reg) (k : BitVec 6) (f : Word → Word → Word) (flags : Word → Word → FlagWrites) :
    Act Nat := do
  let W ← readPair d
  let R := f W (k.zeroExtend 16)
  writePair d R
  updateFlags (flags W R)
  return 2

/-- The multiplications (R188 to R193): `product` of the operands, and `shift` places to the left for
the fractional forms; the 16-bit result goes to r1:r0, low byte first. -/
def multiply (d r : Reg) (product : Byte → Byte → Word) (shift : Nat) : Act Nat := do
  let a ← readReg d
  let b ← readReg r
  let P := product a b
  let R := P <<< shift
  writePair 0 R
  updateFlags (mulFlags P R)
  return 2

/-- `u(a) * u(b)`, modulo 2^16 (R188, R191). -/
def productUU (a b : Byte) : Word := BitVec.ofNat 16 (a.toNat * b.toNat)

/-- `s(a) * s(b)`, modulo 2^16 (R189, R192). -/
def productSS (a b : Byte) : Word := BitVec.ofInt 16 (a.toInt * b.toInt)

/-- `s(a) * u(b)`, modulo 2^16 (R190, R193). -/
def productSU (a b : Byte) : Word := BitVec.ofInt 16 (a.toInt * b.toNat)

/-! ## Addressing modes of the data space (R230, R231) -/

/-- Indirect load: `p <- P; x[d] <- MemRead(p,1)`. -/
def loadIndirect (d : Reg) (p : Pointer) : Act Nat := do
  let ea ← readPointer p
  let v ← memRead ea.toNat
  writeReg d v
  return 2

/-- Indirect load with post-increment: the pointer is written after the access. -/
def loadPostInc (d : Reg) (p : Pointer) : Act Nat := do
  let ea ← readPointer p
  let v ← memRead ea.toNat
  writeReg d v
  writePointer p (ea + 1)
  return 2

/-- Indirect load with pre-decrement: the pointer is written before the access. -/
def loadPreDec (d : Reg) (p : Pointer) : Act Nat := do
  let old ← readPointer p
  let ea := old - 1
  writePointer p ea
  let v ← memRead ea.toNat
  writeReg d v
  return 2

/-- Indirect load with displacement; the effective address is modulo 2^16. -/
def loadDisp (d : Reg) (p : Pointer) (q : BitVec 6) : Act Nat := do
  let base ← readPointer p
  let v ← memRead (base + q.zeroExtend 16).toNat
  writeReg d v
  return 2

/-- Indirect store: `p <- P; MemWrite(p,1,x[r])`. -/
def storeIndirect (p : Pointer) (r : Reg) : Act Nat := do
  let ea ← readPointer p
  let v ← readReg r
  memWrite ea.toNat v
  return 2

/-- Indirect store with post-increment: the pointer is written after the access. -/
def storePostInc (p : Pointer) (r : Reg) : Act Nat := do
  let ea ← readPointer p
  let v ← readReg r
  memWrite ea.toNat v
  writePointer p (ea + 1)
  return 2

/-- Indirect store with pre-decrement: the pointer is written before `x[r]` is read (R232). -/
def storePreDec (p : Pointer) (r : Reg) : Act Nat := do
  let old ← readPointer p
  let ea := old - 1
  writePointer p ea
  let v ← readReg r
  memWrite ea.toNat v
  return 2

/-- Indirect store with displacement; the effective address is modulo 2^16. -/
def storeDisp (p : Pointer) (q : BitVec 6) (r : Reg) : Act Nat := do
  let base ← readPointer p
  let v ← readReg r
  memWrite (base + q.zeroExtend 16).toNat v
  return 2

/-- Load from the program store through Z (R260 to R262). -/
def loadProgram (d : Reg) : Act Nat := do
  let z ← readPointer .z
  let v ← programByte z
  writeReg d v
  return 3

/-- Load from the program store through Z with post-increment (R263). -/
def loadProgramPostInc (d : Reg) : Act Nat := do
  let z ← readPointer .z
  let v ← programByte z
  writeReg d v
  writePointer .z (z + 1)
  return 3

/-! ## Control transfer -/

/-- `Skip()` (R146): step over the next instruction whole. -/
def skipNext : Act Nat := do
  let p ← getPc
  let n ← fetch p
  if isTwoWord n then
    setPc (p + 2)
    return 3
  else
    setPc (p + 1)
    return 2

/-- A skip instruction: `Skip()` where the condition holds, else nothing, in one step (R146). -/
def skipIf (condition : Bool) : Act Nat := if condition then skipNext else return 1

/-- A conditional branch (R219, R220): the offset is sign-extended and relative to the advanced `pc`. -/
def branchIf (condition : Bool) (k : BitVec 7) : Act Nat := do
  if condition then
    jumpBy (k.signExtend 16)
    return 2
  else
    return 1

/-- `k[15:0]` of a 22-bit target: all that reaches `pc` (R212, D7). -/
def targetOf (k : BitVec 22) : Word := k.truncate 16

end Sys2Proof.Machine
end

