-- ==== Sys2Proof/Machine/Arith.lean ====
section
/-! DEFINITION. The meanings of the arithmetic and logic instructions, one definition each
(spec/41_ref_arith_logic.md R164 to R193). -/

namespace Sys2Proof.Machine

/-- ADD Rd,Rr (R164). -/
def execAdd (d r : Reg) (s : State) : Host.Outcome State Fault Refusal :=
  runHandler (aluRR d r (fun a b => a + b) (fun a b R => addFlags a b false R)) s

/-- ADC Rd,Rr (R165). -/
def execAdc (d r : Reg) (s : State) : Host.Outcome State Fault Refusal :=
  runHandler (do
    let a ← readReg d
    let b ← readReg r
    let v ← readSreg
    let c := bitOf v 0
    let R := a + b + BitVec.ofNat 8 (carryNat c)
    writeReg d R
    writeSreg (withFlags v (addFlags a b c R))
    return 1) s

/-- SUB Rd,Rr (R166). -/
def execSub (d r : Reg) (s : State) : Host.Outcome State Fault Refusal :=
  runHandler (aluRR d r (fun a b => a - b) (fun a b R => subFlags a b false R none)) s

/-- SUBI Rd,K (R167). -/
def execSubi (d : Reg) (k : Byte) (s : State) : Host.Outcome State Fault Refusal :=
  runHandler (aluRI d k (fun a b => a - b) (fun a b R => subFlags a b false R none)) s

/-- SBC Rd,Rr (R168). -/
def execSbc (d r : Reg) (s : State) : Host.Outcome State Fault Refusal :=
  runHandler (do
    let a ← readReg d
    let b ← readReg r
    sbcWith d a b) s

/-- SBCI Rd,K (R169). -/
def execSbci (d : Reg) (k : Byte) (s : State) : Host.Outcome State Fault Refusal :=
  runHandler (do
    let a ← readReg d
    sbcWith d a k) s

/-- CP Rd,Rr (R170): no register is written. -/
def execCp (d r : Reg) (s : State) : Host.Outcome State Fault Refusal :=
  runHandler (do
    let a ← readReg d
    let b ← readReg r
    updateFlags (subFlags a b false (a - b) none)
    return 1) s

/-- CPC Rd,Rr (R171): no register is written. -/
def execCpc (d r : Reg) (s : State) : Host.Outcome State Fault Refusal :=
  runHandler (do
    let a ← readReg d
    let b ← readReg r
    let v ← readSreg
    writeSreg (withFlags v (subKeep v a b).2)
    return 1) s

/-- CPI Rd,K (R172): no register is written. -/
def execCpi (d : Reg) (k : Byte) (s : State) : Host.Outcome State Fault Refusal :=
  runHandler (do
    let a ← readReg d
    updateFlags (subFlags a k false (a - k) none)
    return 1) s

/-- AND Rd,Rr (R173). -/
def execAnd (d r : Reg) (s : State) : Host.Outcome State Fault Refusal :=
  runHandler (aluRR d r (fun a b => a &&& b) (fun _ _ R => logicFlags R)) s

/-- ANDI Rd,K (R174). -/
def execAndi (d : Reg) (k : Byte) (s : State) : Host.Outcome State Fault Refusal :=
  runHandler (aluRI d k (fun a b => a &&& b) (fun _ _ R => logicFlags R)) s

/-- OR Rd,Rr (R175). -/
def execOr (d r : Reg) (s : State) : Host.Outcome State Fault Refusal :=
  runHandler (aluRR d r (fun a b => a ||| b) (fun _ _ R => logicFlags R)) s

/-- ORI Rd,K (R176). -/
def execOri (d : Reg) (k : Byte) (s : State) : Host.Outcome State Fault Refusal :=
  runHandler (aluRI d k (fun a b => a ||| b) (fun _ _ R => logicFlags R)) s

/-- EOR Rd,Rr (R177). -/
def execEor (d r : Reg) (s : State) : Host.Outcome State Fault Refusal :=
  runHandler (aluRR d r (fun a b => a ^^^ b) (fun _ _ R => logicFlags R)) s

/-- COM Rd (R178). -/
def execCom (d : Reg) (s : State) : Host.Outcome State Fault Refusal :=
  runHandler (aluD d (fun a => 0xFF - a) (fun _ R => comFlags R)) s

/-- NEG Rd (R179). -/
def execNeg (d : Reg) (s : State) : Host.Outcome State Fault Refusal :=
  runHandler (aluD d (fun a => 0 - a) (fun a R => negFlags a R)) s

/-- INC Rd (R180): C and H are not changed. -/
def execInc (d : Reg) (s : State) : Host.Outcome State Fault Refusal :=
  runHandler (aluD d (fun a => a + 1) (fun _ R => stepFlags 0x80 R)) s

/-- DEC Rd (R181): C and H are not changed. -/
def execDec (d : Reg) (s : State) : Host.Outcome State Fault Refusal :=
  runHandler (aluD d (fun a => a - 1) (fun _ R => stepFlags 0x7F R)) s

/-- ASR Rd (R182): bit 7 is kept. -/
def execAsr (d : Reg) (s : State) : Host.Outcome State Fault Refusal :=
  runHandler (aluD d (fun a => a.sshiftRight 1) (fun a R => shiftFlags (bitOf a 0) R)) s

/-- LSR Rd (R183). -/
def execLsr (d : Reg) (s : State) : Host.Outcome State Fault Refusal :=
  runHandler (aluD d (fun a => a >>> 1) (fun a R => shiftFlags (bitOf a 0) R)) s

/-- ROR Rd (R184): the old C comes in at bit 7, the C in V is the new one. -/
def execRor (d : Reg) (s : State) : Host.Outcome State Fault Refusal :=
  runHandler (do
    let a ← readReg d
    let v ← readSreg
    let R := withBit (a >>> 1) 7 (bitOf v 0)
    writeReg d R
    writeSreg (withFlags v (shiftFlags (bitOf a 0) R))
    return 1) s

/-- SWAP Rd (R185): `SREG` is neither read nor written. -/
def execSwap (d : Reg) (s : State) : Host.Outcome State Fault Refusal :=
  runHandler (do
    let a ← readReg d
    writeReg d ((a <<< 4) ||| (a >>> 4))
    return 1) s

/-- ADIW Rd,K (R186). -/
def execAdiw (d : Reg) (k : BitVec 6) (s : State) : Host.Outcome State Fault Refusal :=
  runHandler (aluPair d k (fun W K => W + K) adiwFlags) s

/-- SBIW Rd,K (R187). -/
def execSbiw (d : Reg) (k : BitVec 6) (s : State) : Host.Outcome State Fault Refusal :=
  runHandler (aluPair d k (fun W K => W - K) sbiwFlags) s

/-- MUL Rd,Rr (R188). -/
def execMul (d r : Reg) (s : State) : Host.Outcome State Fault Refusal :=
  runHandler (multiply d r productUU 0) s

/-- MULS Rd,Rr (R189). -/
def execMuls (d r : Reg) (s : State) : Host.Outcome State Fault Refusal :=
  runHandler (multiply d r productSS 0) s

/-- MULSU Rd,Rr (R190). -/
def execMulsu (d r : Reg) (s : State) : Host.Outcome State Fault Refusal :=
  runHandler (multiply d r productSU 0) s

/-- FMUL Rd,Rr (R191). -/
def execFmul (d r : Reg) (s : State) : Host.Outcome State Fault Refusal :=
  runHandler (multiply d r productUU 1) s

/-- FMULS Rd,Rr (R192). -/
def execFmuls (d r : Reg) (s : State) : Host.Outcome State Fault Refusal :=
  runHandler (multiply d r productSS 1) s

/-- FMULSU Rd,Rr (R193). -/
def execFmulsu (d r : Reg) (s : State) : Host.Outcome State Fault Refusal :=
  runHandler (multiply d r productSU 1) s

end Sys2Proof.Machine
end

