-- ==== Sys2Proof/Machine/BitMcu.lean ====
section
/-! DEFINITION. The meanings of the bit and MCU-control instructions, one definition each
(spec/44_ref_bit_and_mcu.md R281 to R292). -/

namespace Sys2Proof.Machine

/-- BSET s (R281). -/
def execBset (f : BitIx) (s : State) : Host.Outcome State Fault Refusal :=
  runHandler (do
    writeFlag f true
    return 1) s

/-- BCLR s (R282). -/
def execBclr (f : BitIx) (s : State) : Host.Outcome State Fault Refusal :=
  runHandler (do
    writeFlag f false
    return 1) s

/-- BST Rr,b (R283): T <- bit b of Rr. -/
def execBst (r : Reg) (b : BitIx) (s : State) : Host.Outcome State Fault Refusal :=
  runHandler (do
    let v ← readReg r
    writeFlag (flagIx .t) (bitOf v b)
    return 1) s

/-- BLD Rd,b (R284): bit b of Rd <- T. -/
def execBld (d : Reg) (b : BitIx) (s : State) : Host.Outcome State Fault Refusal :=
  runHandler (do
    let v ← readReg d
    let t ← readFlag (flagIx .t)
    writeReg d (withBit v b t)
    return 1) s

/-- SBI A,b (R285): a read-modify-write of the whole byte. -/
def execSbi (a : Fin 32) (b : BitIx) (s : State) : Host.Outcome State Fault Refusal :=
  runHandler (do
    let v ← readIo a.val
    writeIo a.val (v ||| (1#8 <<< b.val))
    return 2) s

/-- CBI A,b (R286): a read-modify-write of the whole byte. -/
def execCbi (a : Fin 32) (b : BitIx) (s : State) : Host.Outcome State Fault Refusal :=
  runHandler (do
    let v ← readIo a.val
    writeIo a.val (v &&& ~~~(1#8 <<< b.val))
    return 2) s

/-- NOP (R287). -/
def execNop (s : State) : Host.Outcome State Fault Refusal := runHandler (return 1) s

/-- WDR (R288): no effect on the core. -/
def execWdr (s : State) : Host.Outcome State Fault Refusal := runHandler (return 1) s

/-- `DecodeFault(op, pc)` for a refused opcode word. The `pc` surfaced is the address the word was
fetched from (R302, D28), one below the `pc` a handler is entered with (log entry 11). -/
def refusedOpcode (op : Word) : Act Nat := do
  let p ← getPc
  raiseFault (.decode op (p - 1))

/-- SLEEP (R290): "refused", `DecodeFault(0x9588, pc)`. -/
def execSleep (s : State) : Host.Outcome State Fault Refusal := runHandler (refusedOpcode 0x9588) s

/-- BREAK (R291): "refused", `DecodeFault(0x9598, pc)`. -/
def execBrk (s : State) : Host.Outcome State Fault Refusal := runHandler (refusedOpcode 0x9598) s

/-- SPM (R292): "refused", `DecodeFault(0x95E8, pc)`. -/
def execSpm (s : State) : Host.Outcome State Fault Refusal := runHandler (refusedOpcode 0x95E8) s

end Sys2Proof.Machine
end

