-- ==== Sys2Proof/Machine/Control.lean ====
section
/-! DEFINITION. The meanings of the control-transfer instructions, one definition each
(spec/42_ref_control_transfer.md R211 to R225). On entry `pc` is the address after the whole
instruction (R134, R142, log entry 10). -/

namespace Sys2Proof.Machine

/-- RJMP k (R211). -/
def execRjmp (k : BitVec 12) (s : State) : Host.Outcome State Fault Refusal :=
  runHandler (do
    jumpBy (k.signExtend 16)
    return 2) s

/-- JMP k (R212): the six high bits of the target are ignored. -/
def execJmp (k : BitVec 22) (s : State) : Host.Outcome State Fault Refusal :=
  runHandler (do
    setPc (targetOf k)
    return 3) s

/-- IJMP (R213). -/
def execIjmp (s : State) : Host.Outcome State Fault Refusal :=
  runHandler (do
    let t ← readPointer .z
    setPc t
    return 2) s

/-- RCALL k (R214): pushes the address after the RCALL. -/
def execRcall (k : BitVec 12) (s : State) : Host.Outcome State Fault Refusal :=
  runHandler (do
    let p ← getPc
    pushPc p
    jumpBy (k.signExtend 16)
    return 3) s

/-- CALL k (R215): pushes the address after both words. -/
def execCall (k : BitVec 22) (s : State) : Host.Outcome State Fault Refusal :=
  runHandler (do
    let p ← getPc
    pushPc p
    setPc (targetOf k)
    return 4) s

/-- ICALL (R216): Z is read before the pushes. -/
def execIcall (s : State) : Host.Outcome State Fault Refusal :=
  runHandler (do
    let t ← readPointer .z
    let p ← getPc
    pushPc p
    setPc t
    return 3) s

/-- RET (R217). -/
def execRet (s : State) : Host.Outcome State Fault Refusal :=
  runHandler (do
    let t ← popPc
    setPc t
    return 4) s

/-- RETI (R218): RET, then I <- 1. -/
def execReti (s : State) : Host.Outcome State Fault Refusal :=
  runHandler (do
    returnFromInterrupt
    return 4) s

/-- BRBS s,k (R219). -/
def execBrbs (f : BitIx) (k : BitVec 7) (s : State) : Host.Outcome State Fault Refusal :=
  runHandler (do
    let b ← readFlag f
    branchIf b k) s

/-- BRBC s,k (R220). -/
def execBrbc (f : BitIx) (k : BitVec 7) (s : State) : Host.Outcome State Fault Refusal :=
  runHandler (do
    let b ← readFlag f
    branchIf (!b) k) s

/-- CPSE Rd,Rr (R221): `SREG` is not touched. -/
def execCpse (d r : Reg) (s : State) : Host.Outcome State Fault Refusal :=
  runHandler (do
    let a ← readReg d
    let b ← readReg r
    skipIf (a == b)) s

/-- SBRC Rr,b (R222). -/
def execSbrc (r : Reg) (b : BitIx) (s : State) : Host.Outcome State Fault Refusal :=
  runHandler (do
    let v ← readReg r
    skipIf (!bitOf v b)) s

/-- SBRS Rr,b (R223). -/
def execSbrs (r : Reg) (b : BitIx) (s : State) : Host.Outcome State Fault Refusal :=
  runHandler (do
    let v ← readReg r
    skipIf (bitOf v b)) s

/-- SBIC A,b (R224). -/
def execSbic (a : Fin 32) (b : BitIx) (s : State) : Host.Outcome State Fault Refusal :=
  runHandler (do
    let v ← readIo a.val
    skipIf (!bitOf v b)) s

/-- SBIS A,b (R225). -/
def execSbis (a : Fin 32) (b : BitIx) (s : State) : Host.Outcome State Fault Refusal :=
  runHandler (do
    let v ← readIo a.val
    skipIf (bitOf v b)) s

end Sys2Proof.Machine
end

