-- ==== Sys2Proof/Machine/Transfer.lean ====
section
/-! DEFINITION. The meanings of the data-transfer instructions, one definition each
(spec/43_ref_data_transfer.md R233 to R263). -/

namespace Sys2Proof.Machine

/-- MOV Rd,Rr (R233). -/
def execMov (d r : Reg) (s : State) : Host.Outcome State Fault Refusal :=
  runHandler (do
    let v ← readReg r
    writeReg d v
    return 1) s

/-- MOVW Rd+1:Rd,Rr+1:Rr (R234): both source bytes are read before either is written. -/
def execMovw (d r : Reg) (s : State) : Host.Outcome State Fault Refusal :=
  runHandler (do
    let t ← readPair r
    writePair d t
    return 1) s

/-- LDI Rd,K (R235). -/
def execLdi (d : Reg) (k : Byte) (s : State) : Host.Outcome State Fault Refusal :=
  runHandler (do
    writeReg d k
    return 1) s

/-- LD Rd,X (R236). -/
def execLdX (d : Reg) (s : State) : Host.Outcome State Fault Refusal := runHandler (loadIndirect d .x) s

/-- LD Rd,X+ (R237). -/
def execLdXInc (d : Reg) (s : State) : Host.Outcome State Fault Refusal :=
  runHandler (loadPostInc d .x) s

/-- LD Rd,-X (R238). -/
def execLdXDec (d : Reg) (s : State) : Host.Outcome State Fault Refusal :=
  runHandler (loadPreDec d .x) s

/-- LD Rd,Y+ (R239). -/
def execLdYInc (d : Reg) (s : State) : Host.Outcome State Fault Refusal :=
  runHandler (loadPostInc d .y) s

/-- LD Rd,-Y (R240). -/
def execLdYDec (d : Reg) (s : State) : Host.Outcome State Fault Refusal :=
  runHandler (loadPreDec d .y) s

/-- LDD Rd,Y+q (R241); LD Rd,Y is q = 0. -/
def execLddY (d : Reg) (q : BitVec 6) (s : State) : Host.Outcome State Fault Refusal :=
  runHandler (loadDisp d .y q) s

/-- LD Rd,Z+ (R242). -/
def execLdZInc (d : Reg) (s : State) : Host.Outcome State Fault Refusal :=
  runHandler (loadPostInc d .z) s

/-- LD Rd,-Z (R243). -/
def execLdZDec (d : Reg) (s : State) : Host.Outcome State Fault Refusal :=
  runHandler (loadPreDec d .z) s

/-- LDD Rd,Z+q (R244); LD Rd,Z is q = 0. -/
def execLddZ (d : Reg) (q : BitVec 6) (s : State) : Host.Outcome State Fault Refusal :=
  runHandler (loadDisp d .z q) s

/-- ST X,Rr (R245). -/
def execStX (r : Reg) (s : State) : Host.Outcome State Fault Refusal := runHandler (storeIndirect .x r) s

/-- ST X+,Rr (R246). -/
def execStXInc (r : Reg) (s : State) : Host.Outcome State Fault Refusal :=
  runHandler (storePostInc .x r) s

/-- ST -X,Rr (R247). -/
def execStXDec (r : Reg) (s : State) : Host.Outcome State Fault Refusal :=
  runHandler (storePreDec .x r) s

/-- ST Y+,Rr (R248). -/
def execStYInc (r : Reg) (s : State) : Host.Outcome State Fault Refusal :=
  runHandler (storePostInc .y r) s

/-- ST -Y,Rr (R249). -/
def execStYDec (r : Reg) (s : State) : Host.Outcome State Fault Refusal :=
  runHandler (storePreDec .y r) s

/-- STD Y+q,Rr (R250); ST Y,Rr is q = 0. -/
def execStdY (q : BitVec 6) (r : Reg) (s : State) : Host.Outcome State Fault Refusal :=
  runHandler (storeDisp .y q r) s

/-- ST Z+,Rr (R251). -/
def execStZInc (r : Reg) (s : State) : Host.Outcome State Fault Refusal :=
  runHandler (storePostInc .z r) s

/-- ST -Z,Rr (R252). -/
def execStZDec (r : Reg) (s : State) : Host.Outcome State Fault Refusal :=
  runHandler (storePreDec .z r) s

/-- STD Z+q,Rr (R253); ST Z,Rr is q = 0. -/
def execStdZ (q : BitVec 6) (r : Reg) (s : State) : Host.Outcome State Fault Refusal :=
  runHandler (storeDisp .z q r) s

/-- LDS Rd,k (R254). -/
def execLds (d : Reg) (k : Word) (s : State) : Host.Outcome State Fault Refusal :=
  runHandler (do
    let v ← memRead k.toNat
    writeReg d v
    return 2) s

/-- STS k,Rr (R255). -/
def execSts (k : Word) (r : Reg) (s : State) : Host.Outcome State Fault Refusal :=
  runHandler (do
    let v ← readReg r
    memWrite k.toNat v
    return 2) s

/-- PUSH Rr (R256). -/
def execPush (r : Reg) (s : State) : Host.Outcome State Fault Refusal :=
  runHandler (do
    let v ← readReg r
    push8 v
    return 2) s

/-- POP Rd (R257). -/
def execPop (d : Reg) (s : State) : Host.Outcome State Fault Refusal :=
  runHandler (do
    let v ← pop8
    writeReg d v
    return 2) s

/-- IN Rd,A (R258). -/
def execIn (d : Reg) (a : Fin 64) (s : State) : Host.Outcome State Fault Refusal :=
  runHandler (do
    let v ← readIo a.val
    writeReg d v
    return 1) s

/-- OUT A,Rr (R259). -/
def execOut (a : Fin 64) (r : Reg) (s : State) : Host.Outcome State Fault Refusal :=
  runHandler (do
    let v ← readReg r
    writeIo a.val v
    return 1) s

/-- LPM (R261): the byte goes to r0. -/
def execLpm (s : State) : Host.Outcome State Fault Refusal := runHandler (loadProgram 0) s

/-- LPM Rd,Z (R262). -/
def execLpmZ (d : Reg) (s : State) : Host.Outcome State Fault Refusal := runHandler (loadProgram d) s

/-- LPM Rd,Z+ (R263). -/
def execLpmZInc (d : Reg) (s : State) : Host.Outcome State Fault Refusal :=
  runHandler (loadProgramPostInc d) s

end Sys2Proof.Machine
end

