-- ==== Sys2Proof/Machine/Table.lean ====
section
/-! DEFINITION. The instruction capability table `ITABLE`, a parameter of the model (spec/00_scope.md R2,
R6, spec/30_encoding.md R101 to R103): the entry of an opcode, and running a handler that is not one of
`REF_ITABLE` (spec/40_engine_step.md R137). The handlers of `REF_ITABLE` are the arms of `exec`. -/

namespace Sys2Proof.Machine

/-- The first entry listed for an opcode word, or `other`. -/
def entryIn : List (Word × ITableEntry) → Word → ITableEntry → ITableEntry
  | [], _, other => other
  | (w, e) :: rest, op, other => if op = w then e else entryIn rest op other

/-- `ITABLE(op)` (R101). -/
def ITable.entry (t : ITable) (op : Word) : ITableEntry := entryIn t.listed op t.others

/-! ## Scripted handlers (log entry 8) -/

/-- What a script's read number `i` gave; zero where there has been none. -/
def answerAt : List Word → Nat → Word
  | [], _ => 0
  | w :: _, 0 => w
  | _ :: rest, i + 1 => answerAt rest i

def evalHandlerVal (op : Word) (answers : List Word) : HandlerVal → Word
  | .lit w => w
  | .opcode => op
  | .answer i => answerAt answers i
  | .and x y => evalHandlerVal op answers x &&& evalHandlerVal op answers y
  | .or x y => evalHandlerVal op answers x ||| evalHandlerVal op answers y
  | .xor x y => evalHandlerVal op answers x ^^^ evalHandlerVal op answers y
  | .add x y => evalHandlerVal op answers x + evalHandlerVal op answers y
  | .sub x y => evalHandlerVal op answers x - evalHandlerVal op answers y
  | .select c x y =>
    if evalHandlerVal op answers c = 0 then evalHandlerVal op answers y else evalHandlerVal op answers x

/-- The handler a script stands for: its accesses in the order written, then the number returned. -/
def scriptProg (op : Word) (cost : HandlerVal) : List HandlerOp → List Word → HandlerProg
  | [], answers => .done (evalHandlerVal op answers cost).toNat
  | .memRead a :: rest, answers =>
    .memRead (evalHandlerVal op answers a).toNat fun v =>
      scriptProg op cost rest (answers ++ [v.setWidth 16])
  | .memWrite a v :: rest, answers =>
    .memWrite (evalHandlerVal op answers a).toNat (lowByte (evalHandlerVal op answers v))
      (scriptProg op cost rest answers)
  | .fetch i :: rest, answers =>
    .fetch (evalHandlerVal op answers i) fun w => scriptProg op cost rest (answers ++ [w])
  | .readPc :: rest, answers => .readPc fun p => scriptProg op cost rest (answers ++ [p])
  | .writePc t :: rest, answers =>
    .writePc (evalHandlerVal op answers t) (scriptProg op cost rest answers)

/-! ## Handlers of the table's own -/

/-- The handler an own entry gives for an opcode, or "no instruction" (R101, R102). -/
def ownProg : OwnHandler → Word → Option HandlerProg
  | .noInstruction, _ => none
  | .free n, op => Config.freeTable n op
  | .script ops cost, op => some (scriptProg op cost ops [])

/-- A handler's accesses on the state, in its order (R137). -/
def runProg : HandlerProg → Act Nat
  | .done k => pure k
  | .memRead a next => do
    let v ← memRead a
    runProg (next v)
  | .memWrite a v next => do
    memWrite a v
    runProg next
  | .fetch i next => do
    let w ← fetch i
    runProg (next w)
  | .readPc next => do
    let p ← getPc
    runProg (next p)
  | .writePc t next => do
    setPc t
    runProg next

end Sys2Proof.Machine
end

