-- ==== Sys2Proof/Machine/Engine.lean ====
section
/-! DEFINITION. The step state machine of the core (spec/40_engine_step.md R130 to R136), one tick of the
clock (spec/60_exceptions.md R330, R331), and placing an instruction where the next step fetches. -/

namespace Sys2Proof.Machine

/-! ## Fetching -/

/-- The program words from `pc` on that an instruction can take: the opcode word and the word after it,
as far as they are inside the image. -/
def codeAt (s : State) : List Word :=
  match progWord s s.pc with
  | none => []
  | some op =>
    match progWord s (s.pc + 1) with
    | none => [op]
    | some w2 => [op, w2]

/-- The instruction of `REF_ITABLE` at `pc` and the address after it (R134, R142), or the fault of the
fetch or the lookup, in the order of R306. The `pc` of a `DecodeFault` is the address of the word
(D28). -/
def fetchInstr (s : State) : Except Fault (Instr × Word) :=
  match decodeWords (codeAt s) with
  | .ok (i, rest) => .ok (i, s.pc + BitVec.ofNat 16 ((codeAt s).length - rest.length))
  | .error .noWord => .error (.addressRange .program s.pc.toNat)
  | .error (.noInstruction op) => .error (.decode op s.pc)
  | .error (.secondWordMissing _) => .error (.addressRange .program (s.pc + 1).toNat)

/-! ## The step -/

/-- Bookkeeping (R135): the decrement is truncated at 0 (D1). -/
def bookkeep (s : State) : State := { s with wait := s.wait - 1, total := s.total + 1 }

/-- Bookkeeping after a step that did not fault; a step that faults does not reach it (R135, R304). -/
def finishStep : Host.Outcome State Fault Refusal → Host.Outcome State Fault Refusal
  | .next s => .next (bookkeep s)
  | .fault f => .fault f
  | .refused r => .refused r

/-- The execute step of an opcode that `REF_ITABLE` decides, without its bookkeeping (R134). -/
def executeReference (s : State) : Host.Outcome State Fault Refusal :=
  match fetchInstr s with
  | .ok (i, next) => exec i { s with pc := next }
  | .error f => .fault f

/-- The execute step without its bookkeeping (R134): fetch the opcode, look it up in the unit's `ITABLE`
(R101), move `pc` past it and run the handler; "no instruction" is a `DecodeFault` (R102). -/
def executeStep (s : State) : Host.Outcome State Fault Refusal :=
  match progWord s s.pc with
  | none => .fault (.addressRange .program s.pc.toNat)
  | some op =>
    match s.itable.entry op with
    | .reference => executeReference s
    | .own h =>
      match ownProg h op with
      | none => .fault (.decode op s.pc)
      | some p => runHandler (runProg p) { s with pc := s.pc + 1 }

/-- The interrupt step for vector `v` without its bookkeeping (R133). -/
def interruptStep (v : Nat) (s : State) : Host.Outcome State Fault Refusal :=
  match takeInterrupt v s with
  | .ok (_, s') => .next s'
  | .error f => .fault f

/-- The interrupt check (R132): I is read once; the pending flags are looked at only where I is set. -/
def interruptCheck : Act (Option Nat) := do
  let i ← readFlag flagI
  if i then
    fun s => .ok (firstPending s.pend, s)
  else
    return none

/-- A step entered with `wait` = 0, without its bookkeeping (R132 to R134). -/
def activeStep (s : State) : Host.Outcome State Fault Refusal :=
  match interruptCheck s with
  | .ok (some v, s') => interruptStep v s'
  | .ok (none, s') => executeStep s'
  | .error f => .fault f

/-- One `Step` of the core (R136). -/
def coreStep (s : State) : Host.Outcome State Fault Refusal :=
  match s.halted with
  | some f => .refused (.halted f)
  | none => if s.wait ≠ 0 then .next (bookkeep s) else finishStep (activeStep s)

/-! ## The clock -/

/-- `Advance`, one tick (R330): one step of every component, in registration order; a fault of the core
ends the tick. Components later in the order see the effects of earlier ones (R331). -/
def advance (s : State) : Host.Outcome State Fault Refusal :=
  match coreStep (stepPeripherals s.clock.before s) with
  | .next s' => .next (stepPeripherals s.clock.after s')
  | .fault f => .fault f
  | .refused r => .refused r

/-! ## Placing an instruction (log entry 13) -/

/-- Program words with word `i` replaced, lengthened with zero words where they are too few. -/
def progSet : List Word → Nat → Word → List Word
  | [], 0, w => [w]
  | [], i + 1, w => 0 :: progSet [] i w
  | _ :: rest, 0, w => w :: rest
  | x :: rest, i + 1, w => x :: progSet rest i w

/-- The state with an instruction's words at `pc`, and the next step an execute step of `REF_ITABLE`: no
wait, no fault latched, nothing pending. -/
def placeFetchWord (s : State) (nbits w : Nat) : State :=
  let v := w % 2 ^ nbits
  { s with
    prog := progSet (progSet s.prog s.pc.toNat (BitVec.ofNat 16 v)) (s.pc + 1).toNat
      (BitVec.ofNat 16 (v / 65536))
    wait := 0
    halted := none
    pend := s.pend.map fun _ => false
    itable := ITable.reference }

end Sys2Proof.Machine
end

