-- ==== Sys2Proof/Machine/Unit.lean ====
section
/-! DEFINITION. What the host does to a unit: reset with an image and a platform
(spec/70_reset_and_hazards.md R350 to R352), `Connect` (spec/20_memory.md R69), a tick with the fault
latch, and the operations between ticks (spec/60_exceptions.md R304, R314, R330, R334). -/

namespace Sys2Proof.Config

/-- FREE VALUE. What `B`, `pend` and `plat` hold after a fault: "every other part of the state … is
unspecified" (R304, U2). DESIGN CHOICE, log entry 7: it is a function of the whole state before the
faulting tick and of the fault, of which nothing is known. -/
opaque afterFault : Machine.State → Machine.Fault → HookOut

/-- FREE VALUE. The program counter after a fault (R304, U2); DESIGN CHOICE as `afterFault`, log entry 7. -/
opaque afterFaultPc : Machine.State → Machine.Fault → Word

end Sys2Proof.Config

namespace Sys2Proof.Machine

/-- One `Connect(a, rd?, wr?)` (R69). -/
structure Connection where
  addr : Nat
  rd : Option Behaviour
  wr : Option Behaviour
deriving DecidableEq, Repr

/-- The parameters of a unit besides the image: R6's numeric parameters, `MEM_INIT` as the cells that
are not zero, `PLATFORM` and `ITABLE`. -/
structure Platform where
  params : Params
  nVectors : Nat
  memInit : List Host.Cell
  plat : Plat
  connections : List Connection
  clock : Clock
  itable : ITable
deriving DecidableEq, Repr

/-- The bare engine with the default parameters of R6 and `REF_ITABLE`. -/
def defaultPlatform : Platform :=
  { params := Config.params, nVectors := Config.nVectors, memInit := [], plat := [],
    connections := [], clock := { before := [], after := [] }, itable := ITable.reference }

/-- A hook table with the hook of one address replaced: the last registration wins (R69). -/
def setHook : List (Nat × Behaviour) → Nat → Behaviour → List (Nat × Behaviour)
  | [], a, h => [(a, h)]
  | (k, g) :: rest, a, h => if a = k then (a, h) :: rest else (k, g) :: setHook rest a h

/-- A hook table after a registration that gives a hook or omits it (R69). -/
def registerHook (hooks : List (Nat × Behaviour)) (a : Nat) : Option Behaviour → List (Nat × Behaviour)
  | none => hooks
  | some h => setHook hooks a h

/-- `Connect` (R69): out of range it raises `AddressRangeFault` to the caller. -/
def connect (c : Connection) (s : State) : Except Fault State :=
  if c.addr < s.params.dataSize then
    .ok { s with
      rdHooks := registerHook s.rdHooks c.addr c.rd
      wrHooks := registerHook s.wrHooks c.addr c.wr }
  else .error (.addressRange .data c.addr)

/-- Several `Connect`s in order. -/
def connectAll : List Connection → State → Except Fault State
  | [], s => .ok s
  | c :: rest, s =>
    match connect c s with
    | .ok s' => connectAll rest s'
    | .error f => .error f

/-- Why an image is refused, in the order of R350, or none. -/
def imageProblem (image : List Byte) : Option ConfigReason :=
  if image.length % 2 = 1 then some .oddLength
  else if image.length = 0 then some .empty
  else if 131072 < image.length then some .tooLong
  else none

/-- `Reset(IMAGE)` (R350): a function of the image and the platform only, so nothing of an earlier state
survives (R351). The writes of `SREG` and `SP` are raw (D24). -/
def resetUnit (pf : Platform) (image : List Byte) : Except Fault State :=
  match imageProblem image with
  | some r => .error (.configuration r)
  | none =>
    connectAll pf.connections
      { mem := State.resetMem pf.params (Memory.pokes pf.params.dataSize [] pf.memInit)
        pc := 0
        wait := 0
        total := 0
        pend := List.replicate pf.nVectors false
        plat := pf.plat
        halted := none
        params := pf.params
        prog := wordsOfBytes image
        rdHooks := []
        wrHooks := []
        clock := pf.clock
        itable := pf.itable }

/-- The state after a fault `f` of a tick that began in `s` (R304): `halted` is set, `wait` and `total`
keep their values, the configuration stays, and `B`, `pc`, `pend` and `plat` are free values.
DESIGN CHOICE, log entry 7: what they are is settled by `s` and `f` (R304 does not even say that), the
number of vectors stays, and no byte outside the data space is listed. -/
def latchFault (f : Fault) (s : State) : State :=
  { applyOut (Config.afterFault s f) s with pc := Config.afterFaultPc s f, halted := some f }

/-- A tick as the host sees it (R330, R334): the next state, or the latched fault; a halted unit does
not move (R34). -/
def hostAdvance (s : State) : State :=
  match advance s with
  | .next s' => s'
  | .fault f => latchFault f s
  | .refused _ => s

/-- The host raises a vector between ticks (R311, R334). -/
def raiseVector (v : Nat) (s : State) : State := { s with pend := pendRaise s.pend v }

/-- The host clears a vector between ticks (R312, R334). -/
def clearVector (v : Nat) (s : State) : State := { s with pend := pendClear s.pend v }

/-- The host writes a byte of `B` raw between ticks (R334). -/
def pokeByte (a : Nat) (v : Byte) (s : State) : State :=
  { s with mem := s.mem.pokes s.params.dataSize [(a, v)] }

end Sys2Proof.Machine
end

