-- ==== Sys2Proof/Machine/Step.lean ====
section
/-! DEFINITION. One step of the machine: one tick of the clock, in which the core makes one `Step` and
every peripheral one step (spec/60_exceptions.md R330, log entry 12). For a unit whose clock holds
only the core it is the core's `Step` (spec/40_engine_step.md R136). -/

namespace Sys2Proof.Machine

/-- One tick (R130, R330). -/
def step (s : State) : Host.Outcome State Fault Refusal := advance s

/-- The state with an instruction's bits where `step` fetches its next instruction (log entry 13). -/
def State.withFetchWord (s : State) (nbits w : Nat) : State := placeFetchWord s nbits w

end Sys2Proof.Machine
end

