-- ==== Sys2Proof/Safety.lean ====
section
/-! DEFINITION. The terms claims are stated in: the views of the data space (spec/10_state.md R21 to R27,
R35), the invariant of the state, the premise `NoCoreHooks` (spec/20_memory.md R70), the frames, and
what a safe run is (spec/00_scope.md R9). -/

namespace Sys2Proof.Machine

/-! ## Views of the data space -/

/-- Byte `a` of `B`, raw. -/
abbrev State.byte (s : State) (a : Nat) : Byte := s.mem.get a

/-- The raw value of register `r` (R21). -/
abbrev State.reg (s : State) (r : Reg) : Byte := s.mem.get r.val

/-- The raw 16-bit value at `a`, `a + 1`, little-endian (R65, R73). -/
def State.word (s : State) (a : Nat) : Word := joinBytes (s.mem.get (a + 1)) (s.mem.get a)

/-- The raw value of a pointer register (R22). -/
abbrev State.ptr (s : State) (p : Pointer) : Word := s.word (pointerAddr s.params p)

/-- The raw value of `SP` (R24). -/
abbrev State.sp (s : State) : Word := s.word s.params.spAddr

/-- The raw value of `SREG` (R25). -/
abbrev State.sreg (s : State) : Byte := s.mem.get s.params.sregAddr

/-- The raw value of a flag (R26, R27). -/
def State.flag (s : State) (f : Flag) : Bool := bitOf s.sreg (flagIx f)

/-! ## The invariant -/

/-- What holds of every state of a unit: the parameters meet R6's constraints, and memory is in
canonical form and lists only addresses that exist (R61). -/
structure State.Inv (s : State) : Prop where
  params : s.params.Ok
  memWf : s.mem.wf = true
  memBelow : s.mem.below s.params.dataSize = true

/-! ## Hooks -/

/-- `NoCoreHooks` (R70) of a unit's parameters and hook tables: no hook at 0 to 31, `SREG_ADDR`,
`SP_ADDR`, `SP_ADDR`+1. -/
structure CoreUnhooked (p : Params) (rd wr : List (Nat × Behaviour)) : Prop where
  regs : ∀ a, a < 32 → hookAt rd a = none ∧ hookAt wr a = none
  sreg : hookAt rd p.sregAddr = none ∧ hookAt wr p.sregAddr = none
  spLow : hookAt rd p.spAddr = none ∧ hookAt wr p.spAddr = none
  spHigh : hookAt rd (p.spAddr + 1) = none ∧ hookAt wr (p.spAddr + 1) = none

/-- `NoCoreHooks` (R70): every register, flag and stack-pointer access is a plain array access. -/
abbrev State.NoCoreHooks (s : State) : Prop := CoreUnhooked s.params s.rdHooks s.wrHooks

/-- The states in which core accesses are plain array accesses (R70). -/
structure State.Plain (s : State) : Prop where
  inv : s.Inv
  noHooks : s.NoCoreHooks

/-! ## Frames -/

/-- The configuration fixed for the life of a reset is the same (R20). -/
structure SameUnit (s t : State) : Prop where
  params : t.params = s.params
  prog : t.prog = s.prog
  rdHooks : t.rdHooks = s.rdHooks
  wrHooks : t.wrHooks = s.wrHooks
  clock : t.clock = s.clock
  itable : t.itable = s.itable

/-- Every byte of `B` outside `addrs` reads as before. The registers, `SREG` and `SP` are bytes of `B`. -/
def OnlyBytes (s t : State) (addrs : List Nat) : Prop := ∀ a, a ∉ addrs → t.byte a = s.byte a

/-- Every flag but those named is as before. -/
def OnlyFlags (s t : State) (flags : List Flag) : Prop := ∀ f, f ∉ flags → t.flag f = s.flag f

/-- A handler ran from `s` to `t`: it left `pc` at `next`, returned `cost` (which stands in `wait`,
R134), and everything but `B`, `pc` and `wait` is as before. -/
structure Ran (s t : State) (next : Word) (cost : Nat) : Prop where
  pc : t.pc = next
  wait : t.wait = cost
  total : t.total = s.total
  pend : t.pend = s.pend
  plat : t.plat = s.plat
  halted : t.halted = s.halted
  unit : SameUnit s t

/-- `t` is `s` but for `B`, which reads as `f` at every address. -/
structure OnlyMem (s t : State) (f : Nat → Byte) : Prop where
  bytes : ∀ a, t.byte a = f a
  rest : Ran s t s.pc s.wait

/-- A handler that writes one register and no flag. -/
structure RegResult (s t : State) (d : Reg) (R : Byte) (cost : Nat) : Prop where
  ran : Ran s t s.pc cost
  value : t.reg d = R
  frame : OnlyBytes s t [d.val]

/-- A one-step handler that writes one register and the named flags. -/
structure AluResult (s t : State) (d : Reg) (R : Byte) (flags : List Flag) : Prop where
  ran : Ran s t s.pc 1
  value : t.reg d = R
  frame : OnlyBytes s t [d.val, s.params.sregAddr]
  kept : OnlyFlags s t flags

/-- A one-step handler that writes the named flags and nothing else. -/
structure FlagResult (s t : State) (flags : List Flag) : Prop where
  ran : Ran s t s.pc 1
  frame : OnlyBytes s t [s.params.sregAddr]
  kept : OnlyFlags s t flags

/-- A two-step handler that writes the pair at `d`, `d + 1` and the named flags. -/
structure PairResult (s t : State) (d : Nat) (R : Word) (flags : List Flag) : Prop where
  ran : Ran s t s.pc 2
  value : t.word d = R
  frame : OnlyBytes s t [d, d + 1, s.params.sregAddr]
  kept : OnlyFlags s t flags

/-! ## One access, hooked or not -/

/-- What a single access of the core leaves alone, whatever a hook at its address does (R68). -/
structure AccessKeeps (s u : State) : Prop where
  pc : u.pc = s.pc
  wait : u.wait = s.wait
  total : u.total = s.total
  halted : u.halted = s.halted
  unit : SameUnit s u

/-- `MemRead(a, 1)` at `s` answers `v` and leaves `u` (R63); without a hook that is the stored byte and
`s` itself. -/
structure ReadAt (s : State) (a : Nat) (v : Byte) (u : State) : Prop where
  access : memRead a s = .ok (v, u)
  keeps : AccessKeeps s u
  unhooked : hookAt s.rdHooks a = none → v = s.byte a ∧ u = s

/-- `MemWrite(a, 1, v)` at `s` leaves `u` (R64); without a hook that is the store and nothing else. -/
structure WriteAt (s : State) (a : Nat) (v : Byte) (u : State) : Prop where
  access : memWrite a v s = .ok ((), u)
  keeps : AccessKeeps s u
  unhooked : hookAt s.wrHooks a = none → OnlyMem s u fun x => if x = a then v else s.byte x

/-- The bytes `f` with a 16-bit value stored at `a`, `a + 1`, little-endian. -/
def withWord (a : Nat) (w : Word) (f : Nat → Byte) (x : Nat) : Byte :=
  if x = a then lowByte w else if x = a + 1 then highByte w else f x

/-! ## The flag rules of R161 to R163, as conditions on the state after an instruction -/

/-- `AddFlags(a, b, c, R)` (R161). -/
structure AddFlagsHold (t : State) (a b : Byte) (cin : Bool) (R : Byte) : Prop where
  h : t.flag .h = decide (16 ≤ a.toNat % 16 + b.toNat % 16 + cin.toNat)
  c : t.flag .c = decide (256 ≤ a.toNat + b.toNat + cin.toNat)
  v : t.flag .v = decide (¬ (-128 ≤ a.toInt + b.toInt + cin.toNat ∧ a.toInt + b.toInt + cin.toNat ≤ 127))
  n : t.flag .n = R.getLsbD 7
  z : t.flag .z = decide (R = 0)
  s : t.flag .s = (t.flag .n ^^ t.flag .v)

/-- `SubFlags(a, b, c, R, zmode)` (R162); `zKeep` is Z before the instruction for `keep`, and true for
`plain`. -/
structure SubFlagsHold (t : State) (a b : Byte) (cin : Bool) (R : Byte) (zKeep : Bool) : Prop where
  h : t.flag .h = decide (a.toNat % 16 < b.toNat % 16 + cin.toNat)
  c : t.flag .c = decide (a.toNat < b.toNat + cin.toNat)
  v : t.flag .v = decide (¬ (-128 ≤ a.toInt - b.toInt - cin.toNat ∧ a.toInt - b.toInt - cin.toNat ≤ 127))
  n : t.flag .n = R.getLsbD 7
  z : t.flag .z = (decide (R = 0) && zKeep)
  s : t.flag .s = (t.flag .n ^^ t.flag .v)

/-- `LogicFlags(R)` (R163). -/
structure LogicFlagsHold (t : State) (R : Byte) : Prop where
  v : t.flag .v = false
  n : t.flag .n = R.getLsbD 7
  z : t.flag .z = decide (R = 0)
  s : t.flag .s = R.getLsbD 7

/-- The flags of an instruction whose V is `v` and whose S is N xor V: INC, DEC and the shifts (R180 to
R184). -/
structure SignFlagsHold (t : State) (R : Byte) (ov : Bool) : Prop where
  v : t.flag .v = ov
  n : t.flag .n = R.getLsbD 7
  z : t.flag .z = decide (R = 0)
  s : t.flag .s = (R.getLsbD 7 ^^ ov)

/-- The flags of ADIW and SBIW but C (R186, R187). -/
structure WordFlagsHold (t : State) (R : Word) (ov cy : Bool) : Prop where
  v : t.flag .v = ov
  c : t.flag .c = cy
  n : t.flag .n = R.getLsbD 15
  z : t.flag .z = decide (R = 0)
  s : t.flag .s = (R.getLsbD 15 ^^ ov)

/-- H, S, V, N, Z, C: the flags the additions and subtractions write (R164 to R172). -/
def arithFlags : List Flag := [.h, .s, .v, .n, .z, .c]

/-- S, V, N, Z: the flags the logic operations, INC and DEC write (R173 to R181). -/
def logicFlagSet : List Flag := [.s, .v, .n, .z]

/-- S, V, N, Z, C: the flags COM, the shifts, ADIW and SBIW write (R178, R182 to R187). -/
def shiftFlagSet : List Flag := [.s, .v, .n, .z, .c]

/-! ## Words of the formats of R106

Each is the sum of the row's fixed bits and its fields, every field at the place R106 gives it. -/

def wordRR (p : Nat) (d r : Reg) : Word :=
  BitVec.ofNat 16 (p + r.val / 16 * 512 + d.val * 16 + r.val % 16)
def wordRI (p : Nat) (d : Reg) (k : Byte) : Word :=
  BitVec.ofNat 16 (p + k.toNat / 16 * 256 + (d.val - 16) * 16 + k.toNat % 16)
/-- Formats `RD`, `LS` and the first word of `LS2`. -/
def wordD (p : Nat) (d : Reg) : Word := BitVec.ofNat 16 (p + d.val * 16)
def wordLDD (p : Nat) (d : Reg) (q : BitVec 6) : Word :=
  BitVec.ofNat 16 (p + q.toNat / 32 * 8192 + q.toNat / 8 % 4 * 1024 + d.val * 16 + q.toNat % 8)
def wordMW (p : Nat) (d r : Reg) : Word := BitVec.ofNat 16 (p + d.val / 2 * 16 + r.val / 2)
def wordM16 (p : Nat) (d r : Reg) : Word := BitVec.ofNat 16 (p + (d.val - 16) * 16 + (r.val - 16))
/-- Format `M8`; the register fields have three bits. -/
def wordM8 (p : Nat) (d r : Reg) : Word := BitVec.ofNat 16 (p + (d.val - 16) * 16 + (r.val - 16))
def wordWI (p : Nat) (d : Reg) (k : BitVec 6) : Word :=
  BitVec.ofNat 16 (p + k.toNat / 16 * 64 + (d.val - 24) / 2 * 16 + k.toNat % 16)
def wordIOB (p : Nat) (a : Fin 32) (b : BitIx) : Word := BitVec.ofNat 16 (p + a.val * 8 + b.val)
def wordIO (p : Nat) (d : Reg) (a : Fin 64) : Word :=
  BitVec.ofNat 16 (p + a.val / 16 * 512 + d.val * 16 + a.val % 16)
def wordJ12 (p : Nat) (k : BitVec 12) : Word := BitVec.ofNat 16 (p + k.toNat)
def wordBR (p : Nat) (f : BitIx) (k : BitVec 7) : Word := BitVec.ofNat 16 (p + k.toNat * 8 + f.val)
def wordRB (p : Nat) (d : Reg) (b : BitIx) : Word := BitVec.ofNat 16 (p + d.val * 16 + b.val)
def wordSF (p : Nat) (f : BitIx) : Word := BitVec.ofNat 16 (p + f.val * 16)
/-- The first word of format `J22`. -/
def wordJ22 (p : Nat) (k : BitVec 22) : Word :=
  BitVec.ofNat 16 (p + k.toNat / 131072 * 16 + k.toNat / 65536 % 2)

/-- The instruction is encoded as its row says (R103, R106): its words are these, the first matches the
row's mask and match, and whatever words follow, the decoder reads the instruction from them. -/
structure RowOf (i : Instr) (mask pattern first : Word) (second : List Word) : Prop where
  words : encode i = first :: second
  row : first &&& mask = pattern
  decodes : ∀ more, decodeWords (first :: (second ++ more)) = .ok (i, more)

/-- `REF_ITABLE(op)` is "no instruction": no row matches (R110), or the row is a refused one (R111). -/
def NoReferenceInstruction (op : Word) : Prop :=
  lookup op = none ∨ op = 0x9588#16 ∨ op = 0x9598#16 ∨ op = 0x95E8#16

/-- `ITABLE(op)` is "no instruction" (R101, R102). -/
def NoInstruction (t : ITable) (op : Word) : Prop :=
  match t.entry op with
  | .reference => NoReferenceInstruction op
  | .own h => ownProg h op = none

/-- The instructions that may write `pc` themselves (42_ref_control_transfer.md). -/
def movesPc : Instr → Bool
  | .rjmp _ | .jmp _ | .ijmp | .rcall _ | .call _ | .icall | .ret | .reti | .brbs _ _ | .brbc _ _
  | .cpse _ _ | .sbrc _ _ | .sbrs _ _ | .sbic _ _ | .sbis _ _ => true
  | _ => false

/-! ## The stack and the step -/

/-- The first and the second byte of the stack slot of a call or an interrupt exist, carry no hook, and
do not overlap `SREG` or `SP` (the premises of R318). -/
structure StackOpen (s : State) : Prop where
  room : (s.sp - 1).toNat < s.params.dataSize ∧ (s.sp - 2).toNat < s.params.dataSize
  hooks : hookAt s.wrHooks (s.sp - 1).toNat = none ∧ hookAt s.wrHooks (s.sp - 2).toNat = none
  clear : ∀ a, a = (s.sp - 1).toNat ∨ a = (s.sp - 2).toNat →
    a ≠ s.params.sregAddr ∧ a ≠ s.params.spAddr ∧ a ≠ s.params.spAddr + 1

/-- The bytes after two pushes of `p` from `s` (R141). -/
def withReturnAddress (s : State) (p : Word) (x : Nat) : Byte :=
  if x = (s.sp - 1).toNat then highByte p
  else if x = (s.sp - 2).toNat then lowByte p
  else withWord s.params.spAddr (s.sp - 2) s.byte x

/-- The core makes an active step, not a wait step, and takes no interrupt in it (R132). -/
structure Executes (s : State) : Prop where
  running : s.halted = none
  ready : s.wait = 0
  plain : s.Plain
  quiet : s.flag .i = false ∨ firstPending s.pend = none

/-- What a skip instruction does from `u`, the state after its reads (R146). -/
structure SkipRuns (u : State) (o : Host.Outcome State Fault Refusal) (taken : Prop) : Prop where
  stays : ¬ taken → ∃ t, o = .next t ∧ Ran u t u.pc 1 ∧ OnlyBytes u t []
  skipsOne : ∀ n, taken → progWord u u.pc = some n → isTwoWord n = false →
    ∃ t, o = .next t ∧ Ran u t (u.pc + 1) 2 ∧ OnlyBytes u t []
  skipsTwo : ∀ n, taken → progWord u u.pc = some n → isTwoWord n = true →
    ∃ t, o = .next t ∧ Ran u t (u.pc + 2) 3 ∧ OnlyBytes u t []
  faults : taken → progWord u u.pc = none → o = .fault (.addressRange .program u.pc.toNat)

/-! ## Safe runs -/

/-- The step answers a next state. -/
def Completes (o : Host.Outcome State Fault Refusal) : Prop := ∃ t, o = .next t

/-- A run of `k` ticks from `s` meets no fault and no refusal (R9, R300). -/
def SafeRun (k : Nat) (s : State) : Prop := ∃ t : State, Sys2Proof.core.run k s = .next t

end Sys2Proof.Machine
end

