-- ==== Sys2Proof/WellFormed.lean ====
section
/-! DEFINITION. Which instruction terms an encoding exists for: the register reach of each format
(spec/30_encoding.md R106, R107). Every other operand is bounded by its type. -/

namespace Sys2Proof

/-- Formats `RI` and `M16`: r16 to r31 (R107). -/
def upperReg (d : Reg) : Bool := decide (16 ≤ d.val)

/-- Format `M8`: r16 to r23 (R107). -/
def fractReg (d : Reg) : Bool := decide (16 ≤ d.val ∧ d.val < 24)

/-- Format `MW`: the even-numbered registers (R107). -/
def evenReg (d : Reg) : Bool := decide (d.val % 2 = 0)

/-- Format `WI`: r24, r26, r28 and r30 (R107). -/
def wordReg (d : Reg) : Bool := decide (24 ≤ d.val ∧ d.val % 2 = 0)

/-- The instruction has an encoding (R106, R107). -/
def wellFormed : Instr → Bool
  | .add _ _ => true
  | .adc _ _ => true
  | .sub _ _ => true
  | .subi d _ => upperReg d
  | .sbc _ _ => true
  | .sbci d _ => upperReg d
  | .cp _ _ => true
  | .cpc _ _ => true
  | .cpi d _ => upperReg d
  | .and _ _ => true
  | .andi d _ => upperReg d
  | .or _ _ => true
  | .ori d _ => upperReg d
  | .eor _ _ => true
  | .com _ => true
  | .neg _ => true
  | .inc _ => true
  | .dec _ => true
  | .asr _ => true
  | .lsr _ => true
  | .ror _ => true
  | .swap _ => true
  | .adiw d _ => wordReg d
  | .sbiw d _ => wordReg d
  | .mul _ _ => true
  | .muls d r => upperReg d && upperReg r
  | .mulsu d r => fractReg d && fractReg r
  | .fmul d r => fractReg d && fractReg r
  | .fmuls d r => fractReg d && fractReg r
  | .fmulsu d r => fractReg d && fractReg r
  | .rjmp _ => true
  | .jmp _ => true
  | .ijmp => true
  | .rcall _ => true
  | .call _ => true
  | .icall => true
  | .ret => true
  | .reti => true
  | .brbs _ _ => true
  | .brbc _ _ => true
  | .cpse _ _ => true
  | .sbrc _ _ => true
  | .sbrs _ _ => true
  | .sbic _ _ => true
  | .sbis _ _ => true
  | .mov _ _ => true
  | .movw d r => evenReg d && evenReg r
  | .ldi d _ => upperReg d
  | .ldX _ => true
  | .ldXInc _ => true
  | .ldXDec _ => true
  | .ldYInc _ => true
  | .ldYDec _ => true
  | .lddY _ _ => true
  | .ldZInc _ => true
  | .ldZDec _ => true
  | .lddZ _ _ => true
  | .stX _ => true
  | .stXInc _ => true
  | .stXDec _ => true
  | .stYInc _ => true
  | .stYDec _ => true
  | .stdY _ _ => true
  | .stZInc _ => true
  | .stZDec _ => true
  | .stdZ _ _ => true
  | .lds _ _ => true
  | .sts _ _ => true
  | .push _ => true
  | .pop _ => true
  | .inp _ _ => true
  | .out _ _ => true
  | .lpm => true
  | .lpmZ _ => true
  | .lpmZInc _ => true
  | .bset _ => true
  | .bclr _ => true
  | .bst _ _ => true
  | .bld _ _ => true
  | .sbi _ _ => true
  | .cbi _ _ => true
  | .nop => true
  | .wdr => true
  | .sleep => true
  | .brk => true
  | .spm => true

end Sys2Proof
end

