-- ==== Sys2Proof/Certificates/Slice0/Obligations.lean ====
section
/-! DEFINITION. The statements for the provers. Each says which rules of spec/ it formalises; a clause
that rests on a decision D<n> of spec/92_eei_decisions.md or on an inference the spec marks as its own
says so. Statements about a handler (`exec`) take `pc` as the handler finds it, the address after the
whole instruction (R134, R142). The rules of an instruction are those of `REF_ITABLE`, which the spec
supplies as a whole (R2, D2). -/

open Sys2Proof Sys2Proof.Machine

/-! ## Reset and the host -/

/-- R37, R350: for a well-formed image and connections in range, reset ANSWERS a state with every part
at its reset value; the last hook given for an address is the one in the table (R69). The value of
`SP` rests on D5, that the registers and the other bytes hold `MEM_INIT` on D8, the raw writes of
`SREG` and `SP` on D24. -/
def Obligations.ResetGivesTheResetState : Prop :=
  ∀ (pf : Platform) (image : List Byte), pf.params.Ok →
    image.length % 2 = 0 → 0 < image.length → image.length ≤ 131072 →
    (∀ c ∈ pf.connections, c.addr < pf.params.dataSize) →
    ∃ s : State, resetUnit pf image = .ok s ∧
      s.pc = 0 ∧ s.wait = 0 ∧ s.total = 0 ∧ s.halted = none ∧ s.sreg = 0 ∧
      s.sp = BitVec.ofNat 16 (pf.params.dataSize - 1) ∧
      s.pend.length = pf.nVectors ∧ (∀ b ∈ s.pend, b = false) ∧
      s.plat = pf.plat ∧ s.clock = pf.clock ∧ s.params = pf.params ∧ s.itable = pf.itable ∧
      (∀ a, a ∉ [pf.params.sregAddr, pf.params.spAddr, pf.params.spAddr + 1] →
        s.byte a = (Memory.pokes pf.params.dataSize [] pf.memInit).get a) ∧
      (∀ a, hookAt s.rdHooks a =
        ((pf.connections.filter fun c => c.addr = a).filterMap Connection.rd).getLast?) ∧
      (∀ a, hookAt s.wrHooks a =
        ((pf.connections.filter fun c => c.addr = a).filterMap Connection.wr).getLast?)

/-- R301, R350: an odd, an empty and a too long image are refused with the reason named, and so is a
connection out of range (R69). The bounds rest on D14. -/
def Obligations.ResetRefusesMalformedUnits : Prop :=
  ∀ (pf : Platform) (image : List Byte),
    (image.length % 2 = 1 → resetUnit pf image = .error (.configuration .oddLength)) ∧
    (image.length = 0 → resetUnit pf image = .error (.configuration .empty)) ∧
    (image.length % 2 = 0 → 131072 < image.length →
      resetUnit pf image = .error (.configuration .tooLong)) ∧
    (∀ before c after, image.length % 2 = 0 → 0 < image.length → image.length ≤ 131072 →
      pf.connections = before ++ c :: after → (∀ d ∈ before, d.addr < pf.params.dataSize) →
      pf.params.dataSize ≤ c.addr → resetUnit pf image = .error (.addressRange .data c.addr))

/-- R32: word i of the program store is `IMAGE[2i] + 256 * IMAGE[2i+1]`, there are length/2 of them, and
no step writes it. -/
def Obligations.ProgramStoreIsTheImage : Prop :=
  (∀ (pf : Platform) (image : List Byte) (s : State), resetUnit pf image = .ok s →
    s.prog.length = image.length / 2 ∧
    ∀ i lo hi, image[2 * i]? = some lo → image[2 * i + 1]? = some hi →
      s.prog[i]? = some (BitVec.ofNat 16 (lo.toNat + 256 * hi.toNat))) ∧
  ∀ s t : State, step s = .next t → t.prog = s.prog

/-- The invariant of the model holds at `State.reset` and of every state a reset gives: the parameters
meet R6's constraints, memory is in canonical form and lists only addresses that exist (R61). -/
def Obligations.ResetStatesMeetTheInvariant : Prop :=
  State.reset.Inv ∧
  ∀ (pf : Platform) (image : List Byte) (s : State), pf.params.Ok → resetUnit pf image = .ok s → s.Inv

/-- R351: after a reset the first step of the core is an execute step that fetches word 0. -/
def Obligations.FirstStepAfterResetExecutesWordZero : Prop :=
  ∀ (pf : Platform) (lo hi : Byte) (rest : List Byte) (s : State), pf.params.Ok →
    resetUnit pf (lo :: hi :: rest) = .ok s → hookAt s.rdHooks pf.params.sregAddr = none →
    coreStep s = finishStep (executeStep s) ∧
    (codeAt s).head? = some (BitVec.ofNat 16 (lo.toNat + 256 * hi.toNat))

/-! ## The data space -/

/-- R63: a byte read checks the range, then consults the read hook exactly once, else gives the stored
byte. -/
def Obligations.ByteReadMultiplexer : Prop :=
  ∀ (a : Nat) (s : State),
    (s.params.dataSize ≤ a → memRead a s = .error (.addressRange .data a)) ∧
    (a < s.params.dataSize → hookAt s.rdHooks a = none → memRead a s = .ok (s.byte a, s)) ∧
    (∀ h, a < s.params.dataSize → hookAt s.rdHooks a = some h →
      let o := behaviourOut h { plat := s.plat, mem := s.mem, pend := s.pend, addr := a, written := 0 }
      memRead a s = .ok (o.answer, { s with
        plat := o.plat, mem := s.mem.pokes s.params.dataSize o.pokes, pend := pendActs s.pend o.irqs }))

/-- R64: a byte write checks the range, then the write hook, called exactly once with the address and
the value, is the whole effect, else the byte is stored. -/
def Obligations.ByteWriteMultiplexer : Prop :=
  ∀ (a : Nat) (v : Byte) (s : State), s.Inv →
    (s.params.dataSize ≤ a → memWrite a v s = .error (.addressRange .data a)) ∧
    (a < s.params.dataSize → hookAt s.wrHooks a = none →
      ∃ t, memWrite a v s = .ok ((), t) ∧ OnlyMem s t fun x => if x = a then v else s.byte x) ∧
    (∀ h, a < s.params.dataSize → hookAt s.wrHooks a = some h →
      let o := behaviourOut h { plat := s.plat, mem := s.mem, pend := s.pend, addr := a, written := v }
      memWrite a v s = .ok ((), { s with
        plat := o.plat, mem := s.mem.pokes s.params.dataSize o.pokes, pend := pendActs s.pend o.irqs }))

/-- R65: a word access is two byte accesses, low byte first, little-endian, and round-trips where no
hook is; a second byte out of range faults at its own address (D22). -/
def Obligations.WordAccessRoundTrip : Prop :=
  ∀ (a : Nat) (v : Word) (s : State), s.Inv →
    (a + 1 < s.params.dataSize → hookAt s.wrHooks a = none → hookAt s.wrHooks (a + 1) = none →
      ∃ t, memWrite16 a v s = .ok ((), t) ∧ OnlyMem s t (withWord a v s.byte) ∧
        (hookAt s.rdHooks a = none → hookAt s.rdHooks (a + 1) = none →
          memRead16 a t = .ok (v, t))) ∧
    (a + 1 = s.params.dataSize → hookAt s.wrHooks a = none →
      memWrite16 a v s = .error (.addressRange .data (a + 1))) ∧
    (a + 1 = s.params.dataSize → hookAt s.rdHooks a = none →
      memRead16 a s = .error (.addressRange .data (a + 1)))

/-- R27: the accessors of the status bits round-trip and disturb no other bit (no hook at `SREG_ADDR`).
That `SetFlag` is one read and one write of the byte is D11. -/
def Obligations.StatusBitAccessorsRoundTrip : Prop :=
  ∀ (k : BitIx) (b : Bool) (s : State), s.Inv →
    hookAt s.rdHooks s.params.sregAddr = none → hookAt s.wrHooks s.params.sregAddr = none →
    readFlag k s = .ok (s.sreg.getLsbD k.val, s) ∧
    ∃ t, writeFlag k b s = .ok ((), t) ∧ readFlag k t = .ok (b, t) ∧
      (∀ j : BitIx, j ≠ k → readFlag j t = .ok (s.sreg.getLsbD j.val, t)) ∧
      OnlyBytes s t [s.params.sregAddr] ∧ Ran s t s.pc s.wait

/-- R139, R140: a push lowers `SP` and then stores at the new `SP`, a pop loads at `SP` and then raises
it, and a pop undoes a push whose byte is not one of `SP`'s own. The pop rests on D12, the number of
accesses on D11, the wrap of `SP` on D23. -/
def Obligations.PushAndPopAreInverse : Prop :=
  ∀ (v : Byte) (s : State), s.Plain →
    ((s.sp - 1).toNat < s.params.dataSize →
      ∃ m u, OnlyMem s m (withWord s.params.spAddr (s.sp - 1) s.byte) ∧
        WriteAt m (s.sp - 1).toNat v u ∧ push8 v s = .ok ((), u)) ∧
    (s.params.dataSize ≤ (s.sp - 1).toNat →
      push8 v s = .error (.addressRange .data (s.sp - 1).toNat)) ∧
    (s.sp.toNat < s.params.dataSize →
      ∃ w u t, ReadAt s s.sp.toNat w u ∧ pop8 s = .ok (w, t) ∧
        OnlyMem u t (withWord s.params.spAddr (s.sp + 1) u.byte)) ∧
    (s.params.dataSize ≤ s.sp.toNat → pop8 s = .error (.addressRange .data s.sp.toNat)) ∧
    ((s.sp - 1).toNat < s.params.dataSize → hookAt s.wrHooks (s.sp - 1).toNat = none →
      hookAt s.rdHooks (s.sp - 1).toNat = none →
      (s.sp - 1).toNat ≠ s.params.spAddr → (s.sp - 1).toNat ≠ s.params.spAddr + 1 →
      ∃ u t, push8 v s = .ok ((), u) ∧ pop8 u = .ok (v, t) ∧ t.sp = s.sp ∧
        OnlyBytes s t [(s.sp - 1).toNat] ∧ t.byte (s.sp - 1).toNat = v)

/-! ## The interrupt controller -/

/-- R313, R316: the arbiter gives the lowest pending vector, and none exactly when nothing is pending;
vector 0 is not "none" (D26). -/
def Obligations.FirstPendingIsTheLowestPendingVector : Prop :=
  ∀ pend : List Bool,
    (∀ v, firstPending pend = some v ↔
      pend[v]? = some true ∧ ∀ u < v, pend[u]? = some false) ∧
    (firstPending pend = none ↔ ∀ v : Nat, pend[v]? ≠ some true)

/-- R311, R312, R323: what a peripheral raises and clears takes effect in order, the last request for a
vector decides, requests are not counted, and a vector out of range is ignored (for `Clear` by D15).
`raiseVector` and `clearVector`, the host's, are such requests (R334). -/
def Obligations.RequestsTakeEffectInOrder : Prop :=
  (∀ (pend : List Bool) (acts : List IrqAct) (v : Nat),
    (pendActs pend acts).length = pend.length ∧
    (pendActs pend acts)[v]? =
      if v < pend.length then
        match (acts.filter fun a => a = .raise v ∨ a = .clear v).getLast? with
        | none => pend[v]?
        | some (.raise _) => some true
        | some (.clear _) => some false
      else none) ∧
  ∀ (v : Nat) (s : State),
    raiseVector v s = { s with pend := pendActs s.pend [.raise v] } ∧
    clearVector v s = { s with pend := pendActs s.pend [.clear v] }

/-! ## The step -/

/-- R131: a step entered with `wait` not 0 only counts. -/
def Obligations.WaitStepOnlyCounts : Prop :=
  ∀ s : State, s.halted = none → s.wait ≠ 0 →
    coreStep s = .next { s with wait := s.wait - 1, total := s.total + 1 }

/-- R143: the wait steps after an instruction run down and do nothing else (derived there from R131,
R134 and R135; the truncated decrement is D1). -/
def Obligations.WaitRunsDown : Prop :=
  ∀ (k : Nat) (s : State), s.clock = { before := [], after := [] } → s.halted = none → k ≤ s.wait →
    Sys2Proof.core.run k s = .next { s with wait := s.wait - k, total := s.total + k }

/-- R318, R316: an interrupt step takes the lowest pending vector, saves `pc` on the stack and nothing
else, and leaves exactly the table of R318. -/
def Obligations.InterruptEntryNetEffect : Prop :=
  ∀ (v : Nat) (s : State), s.Plain → s.halted = none → s.wait = 0 → s.flag .i = true →
    s.pend[v]? = some true → (∀ u < v, s.pend[u]? = some false) → StackOpen s →
    ∃ t, coreStep s = .next t ∧
      t.byte (s.sp - 1).toNat = highByte s.pc ∧ t.byte (s.sp - 2).toNat = lowByte s.pc ∧
      t.sp = s.sp - 2 ∧ t.pc = BitVec.ofNat 16 (2 * v) ∧
      (∀ u, t.pend[u]? = if u = v then some false else s.pend[u]?) ∧
      t.flag .i = false ∧ OnlyFlags s t [.i] ∧ t.wait = 3 ∧ t.total = s.total + 1 ∧
      OnlyBytes s t [(s.sp - 1).toNat, (s.sp - 2).toNat, s.params.spAddr, s.params.spAddr + 1,
        s.params.sregAddr] ∧
      t.plat = s.plat ∧ t.halted = none ∧ SameUnit s t

/-- R132, R317: an active step is an interrupt step exactly when I is set and a vector is pending, else
an execute step; with I clear the pending flags are left as they are. That I is one read of `SREG`
is D11. -/
def Obligations.InterruptsNeedTheEnableAndAPendingVector : Prop :=
  ∀ s : State, s.Plain → s.halted = none → s.wait = 0 →
    (s.flag .i = false → coreStep s = finishStep (executeStep s)) ∧
    (firstPending s.pend = none → coreStep s = finishStep (executeStep s)) ∧
    (∀ v, s.flag .i = true → firstPending s.pend = some v →
      coreStep s = finishStep (interruptStep v s))

/-- R134, R142, R330: when the program words at `pc` decode to `i` and the unit's `ITABLE` leaves the
opcode to `REF_ITABLE`, as the default table does for every word, a tick runs the peripherals before
the core, then `exec i` with `pc` moved past the instruction's words, then the bookkeeping of R135,
then the peripherals after the core; a fault or a refusal of `exec` ends the tick. -/
def Obligations.StepRunsTheDecodedInstruction : Prop :=
  ∀ (s : State) (i : Instr) (ws : List Word),
    let c := stepPeripherals s.clock.before s
    Executes c → decodeWords ws = .ok (i, []) →
    (∀ k < ws.length, progWord c (c.pc + BitVec.ofNat 16 k) = ws[k]?) →
    (∀ op, ws.head? = some op → c.itable.entry op = .reference) →
    step s = match exec i { c with pc := c.pc + BitVec.ofNat 16 ws.length } with
      | .next t => .next (stepPeripherals s.clock.after
          { t with wait := t.wait - 1, total := t.total + 1 })
      | .fault f => .fault f
      | .refused r => .refused r

/-- R6, R101, R134: the instruction table is an argument of the unit. Every function from opcode words to
entries is a table; an execute step looks the opcode up in the table of the unit and in nothing else,
and for an entry of the table's own it runs that handler with `pc` moved past the opcode, stores the
number it returns in `wait` and does the bookkeeping of R135 (the truncated decrement is D1), or stops
with the handler's fault. -/
def Obligations.TheUnitsTableDecidesTheExecuteStep : Prop :=
  (∀ f : Word → ITableEntry, ∃ table : ITable, ∀ op, table.entry op = f op) ∧
  ∀ (s : State) (op : Word) (h : OwnHandler) (p : HandlerProg), Executes s →
    progWord s s.pc = some op → s.itable.entry op = .own h → ownProg h op = some p →
    (∀ k t, runProg p { s with pc := s.pc + 1 } = .ok (k, t) →
      coreStep s = .next { t with wait := k - 1, total := t.total + 1 }) ∧
    (∀ f, runProg p { s with pc := s.pc + 1 } = .error f → coreStep s = .fault f) ∧
    ∀ table : ITable, table.entry op = .own h →
      coreStep { s with itable := table } =
        match coreStep s with
        | .next t => .next { t with itable := table }
        | .fault f => .fault f
        | .refused r => .refused r

/-- R102: an opcode for which the unit's table has no instruction, `REF_ITABLE` or another, faults with
the word and its address; there is no way for software to catch it. -/
def Obligations.OpcodeWithoutInstructionFaults : Prop :=
  ∀ (s : State) (op : Word), Executes s → progWord s s.pc = some op → NoInstruction s.itable op →
    coreStep s = .fault (.decode op s.pc)

/-- R72, R142, R303, R306: a fetch outside the image faults with the word index, whether of the opcode or
of the second word of LDS, STS, JMP or CALL of `REF_ITABLE`. -/
def Obligations.FetchOutsideTheImageFaults : Prop :=
  ∀ s : State, Executes s →
    (s.prog.length ≤ s.pc.toNat → coreStep s = .fault (.addressRange .program s.pc.toNat)) ∧
    (∀ op, progWord s s.pc = some op → isTwoWord op = true → s.itable.entry op = .reference →
      s.prog.length ≤ (s.pc + 1).toNat →
      coreStep s = .fault (.addressRange .program (s.pc + 1).toNat))

/-- R304, R34: a fault is latched, the bookkeeping is not done, the configuration stays, and no further
tick moves the unit (D13; the rest of the state is a free value, log entry 7). -/
def Obligations.FaultsAreLatched : Prop :=
  ∀ (s : State) (f : Fault), step s = .fault f →
    let t := hostAdvance s
    t.halted = some f ∧ t.wait = s.wait ∧ t.total = s.total ∧ SameUnit s t ∧
    coreStep t = .refused (.halted f) ∧ hostAdvance t = t

/-- R137, R303: a handler never stops but with a fault, and of faults only with an access outside one of
the two spaces, at an address that is outside it, or, for the three refused rows, with their own
decode fault (R111, D17). The second clause is about every handler of a table of its own. -/
def Obligations.HandlersFaultOnlyOutsideTheSpaces : Prop :=
  (∀ (i : Instr) (s : State),
    (∀ r, exec i s ≠ .refused r) ∧
    ∀ f, exec i s = .fault f →
      (i = .sleep ∧ f = .decode 0x9588 (s.pc - 1)) ∨ (i = .brk ∧ f = .decode 0x9598 (s.pc - 1)) ∨
      (i = .spm ∧ f = .decode 0x95E8 (s.pc - 1)) ∨
      (∃ a, f = .addressRange .data a ∧ s.params.dataSize ≤ a) ∨
      (∃ a, f = .addressRange .program a ∧ s.prog.length ≤ a)) ∧
  ∀ (p : HandlerProg) (s : State) (f : Fault), runProg p s = .error f →
    (∃ a, f = .addressRange .data a ∧ s.params.dataSize ≤ a) ∨
    (∃ a, f = .addressRange .program a ∧ s.prog.length ≤ a)

/-- R137: a handler leaves the configuration, `total` and the fault latch alone whatever the hooks do,
and `pend` and `plat` too where there are no hooks; it keeps the number of vectors. What a handler
may not do is D2. A handler of a table of its own leaves `wait` alone too; the handlers of `REF_ITABLE`
are stated with the `wait <- k` of R134. -/
def Obligations.HandlersKeepTheEngineState : Prop :=
  (∀ (i : Instr) (s t : State), exec i s = .next t →
    SameUnit s t ∧ t.total = s.total ∧ t.halted = s.halted ∧ t.pend.length = s.pend.length ∧
    (s.rdHooks = [] → s.wrHooks = [] → t.pend = s.pend ∧ t.plat = s.plat)) ∧
  ∀ (p : HandlerProg) (k : Nat) (s t : State), runProg p s = .ok (k, t) →
    SameUnit s t ∧ t.total = s.total ∧ t.wait = s.wait ∧ t.halted = s.halted ∧
    t.pend.length = s.pend.length ∧
    (s.rdHooks = [] → s.wrHooks = [] → t.pend = s.pend ∧ t.plat = s.plat)

/-- R29, R135: every step adds exactly 1 to `total`, and nothing else of a step depends on it. -/
def Obligations.StepCounterOnlyCounts : Prop :=
  ∀ (s : State) (n : Nat),
    step { s with total := n } =
      match step s with
      | .next t => .next { t with total := n + 1 }
      | .fault f => .fault f
      | .refused r => .refused r

/-- R210, R264: only the instructions of 42_ref_control_transfer.md write `pc`; every other handler
leaves it at the address after the instruction, whatever the hooks do. -/
def Obligations.OnlyControlTransfersMoveThePc : Prop :=
  ∀ (i : Instr) (s t : State), movesPc i = false → exec i s = .next t → t.pc = s.pc

/-- The invariant of the model is kept by every tick from every state, whatever the hooks and the
peripherals do. -/
def Obligations.StepKeepsTheInvariant : Prop :=
  ∀ s t : State, s.Inv → step s = .next t → t.Inv

/-- R20, R81: no tick changes the configuration of the unit, in particular the program and the hook
tables, or the number of vectors. -/
def Obligations.StepKeepsTheConfiguration : Prop :=
  ∀ s t : State, step s = .next t → SameUnit s t ∧ t.pend.length = s.pend.length ∧
    t.halted = s.halted

/-- R330, R331, R332: a tick steps every component once, in order, each on what the earlier ones left; a
peripheral's step touches `plat`, `B` and `pend` only. The order is D16. -/
def Obligations.TickStepsEveryComponentOnce : Prop :=
  (∀ (l : List Behaviour) (s : State),
    stepPeripherals l s = l.foldl (fun u b => stepPeripheral b u) s) ∧
  (∀ s : State, step s = match coreStep (stepPeripherals s.clock.before s) with
    | .next t => .next (stepPeripherals s.clock.after t)
    | .fault f => .fault f
    | .refused r => .refused r) ∧
  ∀ (b : Behaviour) (s : State), ∃ plat mem pend,
    stepPeripheral b s = { s with plat := plat, mem := mem, pend := pend }

/-- R321: after an interrupt step, whatever then runs, if it leaves `SP` and the two stack bytes as they
are, RETI restores the exact `pc` and `SP` from before the interrupt and sets I. -/
def Obligations.ReturnUndoesInterruptEntry : Prop :=
  ∀ (v : Nat) (s t u : State), s.Plain → StackOpen s → interruptStep v s = .next t →
    hookAt s.rdHooks (s.sp - 1).toNat = none → hookAt s.rdHooks (s.sp - 2).toNat = none →
    u.Plain → SameUnit t u → u.sp = t.sp →
    u.byte (s.sp - 1).toNat = t.byte (s.sp - 1).toNat →
    u.byte (s.sp - 2).toNat = t.byte (s.sp - 2).toNat →
    ∃ w, exec .reti u = .next w ∧ w.pc = s.pc ∧ w.sp = s.sp ∧ w.flag .i = true ∧
      OnlyFlags u w [.i] ∧
      OnlyBytes u w [s.params.spAddr, s.params.spAddr + 1, s.params.sregAddr]

/-! ## Encoding -/

/-- R106, R108: decoding an encoded well-formed instruction gives it back, with every operand at every
value the encoding admits, whatever words follow. -/
def Obligations.DecodeOfEncode : Prop :=
  ∀ (i : Instr) (more : List Word), wellFormed i = true → decodeWords (encode i ++ more) = .ok (i, more)

/-- R103, R107: what the decoder gives is well-formed, and its words are the words that were read: no
bit of an instruction is ignored by the decoder and no two encodings mean one instruction. -/
def Obligations.EncodeOfDecode : Prop :=
  ∀ (ws rest : List Word) (i : Instr), decodeWords ws = .ok (i, rest) →
    wellFormed i = true ∧ encode i ++ rest = ws

/-- R118: no opcode value matches two rows, so the order of the rows does not matter; there are 86. -/
def Obligations.NoWordMatchesTwoRows : Prop :=
  table.length = 86 ∧
  ∀ op : Word, (table.filter fun r => op &&& r.mask == r.pattern).length ≤ 1

/-- R110: the opcode values no row matches are exactly those of the table of R110 (that they fault is
D17). -/
def Obligations.ReservedOpcodes : Prop :=
  ∀ op : Word, lookup op = none ↔
    (1 ≤ op.toNat ∧ op.toNat ≤ 0xFF) ∨
    (op.toNat / 512 = 0x48 ∧ op.toNat % 16 ∈ [0x3, 0x6, 0x7, 0x8, 0xB]) ∨
    (op.toNat / 512 = 0x49 ∧ op.toNat % 16 ∈ [0x3, 0x4, 0x5, 0x6, 0x7, 0x8, 0xB]) ∨
    (op.toNat / 512 = 0x4A ∧ (op.toNat % 16 = 0x4 ∨ op.toNat % 16 = 0xB ∨
      (op.toNat % 16 = 0x9 ∧ op.toNat ∉ [0x9409, 0x9509]) ∨
      (op.toNat % 16 = 0x8 ∧ op.toNat / 256 = 0x95 ∧
        op.toNat ∉ [0x9508, 0x9518, 0x9588, 0x9598, 0x95A8, 0x95C8, 0x95E8]))) ∨
    (op.toNat / 2048 = 0x1F ∧ op.toNat / 8 % 2 = 1)

/-- R105: exactly LDS, STS, JMP and CALL have two words, and the length is read from the first word
alone. -/
def Obligations.TwoWordOpcodes : Prop :=
  (∀ i : Instr, instrWords i =
    match i with
    | .lds _ _ | .sts _ _ | .jmp _ | .call _ => 2
    | _ => 1) ∧
  (∀ i : Instr, wellFormed i = true → ∃ w more, encode i = w :: more ∧
    (isTwoWord w = true ↔ instrWords i = 2)) ∧
  (∀ w : Word, isTwoWord w = true ↔
    w &&& 0xFE0F = 0x9000 ∨ w &&& 0xFE0F = 0x9200 ∨ w &&& 0xFE0E = 0x940C ∨ w &&& 0xFE0E = 0x940E) ∧
  (∀ w : Word, isTwoWord w = true → decodeWords [w] = .error (.secondWordMissing w))

/-- Words written out from the encodings of R106 decode to the instructions they stand for. -/
def Obligations.SampleWordsDecode : Prop :=
  decodeWords [0x0F01] = .ok (.add 16 17, []) ∧ decodeWords [0x9721] = .ok (.sbiw 28 1, []) ∧
  decodeWords [0xAC5F] = .ok (.lddY 5 63, []) ∧ decodeWords [0x9300, 0x0123] = .ok (.sts 0x0123 16, []) ∧
  decodeWords [0x95FD, 0x0234] = .ok (.jmp 0x3F0234, []) ∧ decodeWords [0xF3E9] = .ok (.brbs 1 0x7D, []) ∧
  decodeWords [0xBF0F] = .ok (.out 0x3F 16, []) ∧ decodeWords [0x9A2D] = .ok (.sbi 5 5, []) ∧
  decodeWords [0x0389] = .ok (.fmulsu 16 17, []) ∧ decodeWords [0x01CF] = .ok (.movw 24 30, []) ∧
  decodeWords [0xF808] = .error (.noInstruction 0xF808)

/-! ## Arithmetic and logic -/

/-- R164, R165: ADD and ADC. -/
def Obligations.AddResults : Prop :=
  ∀ d r : Reg,
    RowOf (.add d r) 0xFC00 0x0C00 (wordRR 0x0C00 d r) [] ∧
    RowOf (.adc d r) 0xFC00 0x1C00 (wordRR 0x1C00 d r) [] ∧
    ∀ s : State, s.Plain →
      (let R := s.reg d + s.reg r
       ∃ t, exec (.add d r) s = .next t ∧ AluResult s t d R arithFlags ∧
         AddFlagsHold t (s.reg d) (s.reg r) false R) ∧
      (let R := s.reg d + s.reg r + (if s.flag .c then 1 else 0)
       ∃ t, exec (.adc d r) s = .next t ∧ AluResult s t d R arithFlags ∧
         AddFlagsHold t (s.reg d) (s.reg r) (s.flag .c) R)

/-- R166 to R169: SUB, SUBI, SBC and SBCI; the forms with carry never set Z. -/
def Obligations.SubtractResults : Prop :=
  (∀ d r : Reg,
    RowOf (.sub d r) 0xFC00 0x1800 (wordRR 0x1800 d r) [] ∧
    RowOf (.sbc d r) 0xFC00 0x0800 (wordRR 0x0800 d r) [] ∧
    ∀ s : State, s.Plain →
      (let R := s.reg d - s.reg r
       ∃ t, exec (.sub d r) s = .next t ∧ AluResult s t d R arithFlags ∧
         SubFlagsHold t (s.reg d) (s.reg r) false R true) ∧
      (let R := s.reg d - s.reg r - (if s.flag .c then 1 else 0)
       ∃ t, exec (.sbc d r) s = .next t ∧ AluResult s t d R arithFlags ∧
         SubFlagsHold t (s.reg d) (s.reg r) (s.flag .c) R (s.flag .z))) ∧
  ∀ (d : Reg) (k : Byte), 16 ≤ d.val →
    RowOf (.subi d k) 0xF000 0x5000 (wordRI 0x5000 d k) [] ∧
    RowOf (.sbci d k) 0xF000 0x4000 (wordRI 0x4000 d k) [] ∧
    ∀ s : State, s.Plain →
      (let R := s.reg d - k
       ∃ t, exec (.subi d k) s = .next t ∧ AluResult s t d R arithFlags ∧
         SubFlagsHold t (s.reg d) k false R true) ∧
      (let R := s.reg d - k - (if s.flag .c then 1 else 0)
       ∃ t, exec (.sbci d k) s = .next t ∧ AluResult s t d R arithFlags ∧
         SubFlagsHold t (s.reg d) k (s.flag .c) R (s.flag .z))

/-- R170 to R172: CP, CPC and CPI write the flags of the subtraction and no register; after CP, Z is
equality, C is unsigned less and S is signed less. -/
def Obligations.CompareResults : Prop :=
  (∀ d r : Reg,
    RowOf (.cp d r) 0xFC00 0x1400 (wordRR 0x1400 d r) [] ∧
    RowOf (.cpc d r) 0xFC00 0x0400 (wordRR 0x0400 d r) [] ∧
    ∀ s : State, s.Plain →
      (∃ t, exec (.cp d r) s = .next t ∧ FlagResult s t arithFlags ∧
        SubFlagsHold t (s.reg d) (s.reg r) false (s.reg d - s.reg r) true ∧
        (t.flag .z = true ↔ s.reg d = s.reg r) ∧
        (t.flag .c = true ↔ (s.reg d).toNat < (s.reg r).toNat) ∧
        (t.flag .s = true ↔ (s.reg d).toInt < (s.reg r).toInt)) ∧
      (∃ t, exec (.cpc d r) s = .next t ∧ FlagResult s t arithFlags ∧
        SubFlagsHold t (s.reg d) (s.reg r) (s.flag .c)
          (s.reg d - s.reg r - (if s.flag .c then 1 else 0)) (s.flag .z))) ∧
  ∀ (d : Reg) (k : Byte), 16 ≤ d.val →
    RowOf (.cpi d k) 0xF000 0x3000 (wordRI 0x3000 d k) [] ∧
    ∀ s : State, s.Plain →
      ∃ t, exec (.cpi d k) s = .next t ∧ FlagResult s t arithFlags ∧
        SubFlagsHold t (s.reg d) k false (s.reg d - k) true

/-- R173 to R177: AND, ANDI, OR, ORI and EOR; H, C, T and I are untouched. -/
def Obligations.LogicResults : Prop :=
  (∀ d r : Reg,
    RowOf (.and d r) 0xFC00 0x2000 (wordRR 0x2000 d r) [] ∧
    RowOf (.or d r) 0xFC00 0x2800 (wordRR 0x2800 d r) [] ∧
    RowOf (.eor d r) 0xFC00 0x2400 (wordRR 0x2400 d r) [] ∧
    ∀ s : State, s.Plain →
      (∃ t, exec (.and d r) s = .next t ∧ AluResult s t d (s.reg d &&& s.reg r) logicFlagSet ∧
        LogicFlagsHold t (s.reg d &&& s.reg r)) ∧
      (∃ t, exec (.or d r) s = .next t ∧ AluResult s t d (s.reg d ||| s.reg r) logicFlagSet ∧
        LogicFlagsHold t (s.reg d ||| s.reg r)) ∧
      (∃ t, exec (.eor d r) s = .next t ∧ AluResult s t d (s.reg d ^^^ s.reg r) logicFlagSet ∧
        LogicFlagsHold t (s.reg d ^^^ s.reg r))) ∧
  ∀ (d : Reg) (k : Byte), 16 ≤ d.val →
    RowOf (.andi d k) 0xF000 0x7000 (wordRI 0x7000 d k) [] ∧
    RowOf (.ori d k) 0xF000 0x6000 (wordRI 0x6000 d k) [] ∧
    ∀ s : State, s.Plain →
      (∃ t, exec (.andi d k) s = .next t ∧ AluResult s t d (s.reg d &&& k) logicFlagSet ∧
        LogicFlagsHold t (s.reg d &&& k)) ∧
      (∃ t, exec (.ori d k) s = .next t ∧ AluResult s t d (s.reg d ||| k) logicFlagSet ∧
        LogicFlagsHold t (s.reg d ||| k))

/-- R178 to R181: COM, NEG, INC and DEC; INC and DEC leave C and H alone. -/
def Obligations.OneRegisterResults : Prop :=
  ∀ d : Reg,
    RowOf (.com d) 0xFE0F 0x9400 (wordD 0x9400 d) [] ∧ RowOf (.neg d) 0xFE0F 0x9401 (wordD 0x9401 d) [] ∧
    RowOf (.inc d) 0xFE0F 0x9403 (wordD 0x9403 d) [] ∧ RowOf (.dec d) 0xFE0F 0x940A (wordD 0x940A d) [] ∧
    ∀ s : State, s.Plain →
      (let R := 0xFF - s.reg d
       ∃ t, exec (.com d) s = .next t ∧ AluResult s t d R shiftFlagSet ∧
         LogicFlagsHold t R ∧ t.flag .c = true) ∧
      (let R := 0 - s.reg d
       ∃ t, exec (.neg d) s = .next t ∧ AluResult s t d R arithFlags ∧
         SignFlagsHold t R (decide (R = 0x80)) ∧
         t.flag .h = (R.getLsbD 3 || (s.reg d).getLsbD 3) ∧ t.flag .c = decide (R ≠ 0)) ∧
      (let R := s.reg d + 1
       ∃ t, exec (.inc d) s = .next t ∧ AluResult s t d R logicFlagSet ∧
         SignFlagsHold t R (decide (R = 0x80))) ∧
      (let R := s.reg d - 1
       ∃ t, exec (.dec d) s = .next t ∧ AluResult s t d R logicFlagSet ∧
         SignFlagsHold t R (decide (R = 0x7F)))

/-- R182 to R185: ASR, LSR, ROR and SWAP; the bit shifted out is C and V is N xor the new C. SWAP touches
no flag. -/
def Obligations.ShiftResults : Prop :=
  ∀ d : Reg,
    RowOf (.asr d) 0xFE0F 0x9405 (wordD 0x9405 d) [] ∧ RowOf (.lsr d) 0xFE0F 0x9406 (wordD 0x9406 d) [] ∧
    RowOf (.ror d) 0xFE0F 0x9407 (wordD 0x9407 d) [] ∧ RowOf (.swap d) 0xFE0F 0x9402 (wordD 0x9402 d) [] ∧
    ∀ s : State, s.Plain →
      let a := s.reg d
      (let R := BitVec.ofNat 8 (a.toNat / 2 + if a.getLsbD 7 then 128 else 0)
       ∃ t, exec (.asr d) s = .next t ∧ AluResult s t d R shiftFlagSet ∧
         SignFlagsHold t R (R.getLsbD 7 ^^ a.getLsbD 0) ∧ t.flag .c = a.getLsbD 0) ∧
      (let R := BitVec.ofNat 8 (a.toNat / 2)
       ∃ t, exec (.lsr d) s = .next t ∧ AluResult s t d R shiftFlagSet ∧
         SignFlagsHold t R (a.getLsbD 0) ∧ t.flag .n = false ∧ t.flag .c = a.getLsbD 0) ∧
      (let R := BitVec.ofNat 8 (a.toNat / 2 + if s.flag .c then 128 else 0)
       ∃ t, exec (.ror d) s = .next t ∧ AluResult s t d R shiftFlagSet ∧
         SignFlagsHold t R (R.getLsbD 7 ^^ a.getLsbD 0) ∧ t.flag .c = a.getLsbD 0) ∧
      (∃ t, exec (.swap d) s = .next t ∧
        RegResult s t d (BitVec.ofNat 8 (a.toNat % 16 * 16 + a.toNat / 16)) 1)

/-- R186, R187: ADIW and SBIW on the pair r[d+1]:r[d]; H is unchanged. -/
def Obligations.WordImmediateResults : Prop :=
  ∀ (d : Reg) (k : BitVec 6), d.val ∈ [24, 26, 28, 30] →
    RowOf (.adiw d k) 0xFF00 0x9600 (wordWI 0x9600 d k) [] ∧
    RowOf (.sbiw d k) 0xFF00 0x9700 (wordWI 0x9700 d k) [] ∧
    ∀ s : State, s.Plain →
      let W := s.word d.val
      (let R := W + k.zeroExtend 16
       ∃ t, exec (.adiw d k) s = .next t ∧ PairResult s t d.val R shiftFlagSet ∧
         WordFlagsHold t R (!W.getLsbD 15 && R.getLsbD 15) (!R.getLsbD 15 && W.getLsbD 15)) ∧
      (let R := W - k.zeroExtend 16
       ∃ t, exec (.sbiw d k) s = .next t ∧ PairResult s t d.val R shiftFlagSet ∧
         WordFlagsHold t R (W.getLsbD 15 && !R.getLsbD 15) (R.getLsbD 15 && !W.getLsbD 15))

/-- R188 to R193: the six multiplications write r1:r0, C and Z; the operands are read first, so r0 and r1
may be operands of MUL. -/
def Obligations.MultiplyResults : Prop :=
  ∀ d r : Reg,
    RowOf (.mul d r) 0xFC00 0x9C00 (wordRR 0x9C00 d r) [] ∧
    (16 ≤ d.val → 16 ≤ r.val → RowOf (.muls d r) 0xFF00 0x0200 (wordM16 0x0200 d r) []) ∧
    (16 ≤ d.val → d.val < 24 → 16 ≤ r.val → r.val < 24 →
      RowOf (.mulsu d r) 0xFF88 0x0300 (wordM8 0x0300 d r) [] ∧
      RowOf (.fmul d r) 0xFF88 0x0308 (wordM8 0x0308 d r) [] ∧
      RowOf (.fmuls d r) 0xFF88 0x0380 (wordM8 0x0380 d r) [] ∧
      RowOf (.fmulsu d r) 0xFF88 0x0388 (wordM8 0x0388 d r) []) ∧
    ∀ s : State, s.Plain →
      let uu := BitVec.ofNat 16 ((s.reg d).toNat * (s.reg r).toNat)
      let ss := BitVec.ofInt 16 ((s.reg d).toInt * (s.reg r).toInt)
      let su := BitVec.ofInt 16 ((s.reg d).toInt * (s.reg r).toNat)
      ∀ i P R, (i, P, R) ∈ [(.mul d r, uu, uu), (.muls d r, ss, ss), (.mulsu d r, su, su),
          (.fmul d r, uu, uu <<< 1), (.fmuls d r, ss, ss <<< 1), (.fmulsu d r, su, su <<< 1)] →
        ∃ t, exec i s = .next t ∧ PairResult s t 0 R [.z, .c] ∧
          t.flag .c = P.getLsbD 15 ∧ t.flag .z = decide (R = 0)

/-- R161, R162, R163: the flags of an addition, a subtraction and a logic operation, each line in both of
its forms, for all operands; `zOld` is the old Z for `keep` and none for `plain`. -/
def Obligations.FlagFormsAgree : Prop :=
  ∀ (a b : Byte) (c : Bool) (zOld : Option Bool),
    let carry : Byte := if c then 1 else 0
    let bit := fun (x : Byte) n => x.getLsbD n
    (let R := a + b + carry
     let n := bit R 7
     let sum := a.toInt + b.toInt + c.toNat
     let v := decide (¬ (-128 ≤ sum ∧ sum ≤ 127))
     let w := (bit a 7 && bit b 7 && !bit R 7) || (!bit a 7 && !bit b 7 && bit R 7)
     addFlags a b c R =
      [(.h, decide (16 ≤ a.toNat % 16 + b.toNat % 16 + c.toNat)), (.s, n ^^ v), (.v, v), (.n, n),
       (.z, decide (R = 0)), (.c, decide (256 ≤ a.toNat + b.toNat + c.toNat))] ∧
     addFlags a b c R =
      [(.h, (bit a 3 && bit b 3) || (bit b 3 && !bit R 3) || (!bit R 3 && bit a 3)),
       (.s, n ^^ w), (.v, w), (.n, n), (.z, decide (R = 0)),
       (.c, (bit a 7 && bit b 7) || (bit b 7 && !bit R 7) || (!bit R 7 && bit a 7))]) ∧
    (let R := a - b - carry
     let n := bit R 7
     let diff := a.toInt - b.toInt - c.toNat
     let v := decide (¬ (-128 ≤ diff ∧ diff ≤ 127))
     let w := (bit a 7 && !bit b 7 && !bit R 7) || (!bit a 7 && bit b 7 && bit R 7)
     let z := decide (R = 0) && zOld.getD true
     subFlags a b c R zOld =
      [(.h, decide (a.toNat % 16 < b.toNat % 16 + c.toNat)), (.s, n ^^ v), (.v, v), (.n, n),
       (.z, z), (.c, decide (a.toNat < b.toNat + c.toNat))] ∧
     subFlags a b c R zOld =
      [(.h, (!bit a 3 && bit b 3) || (bit b 3 && bit R 3) || (bit R 3 && !bit a 3)),
       (.s, n ^^ w), (.v, w), (.n, n), (.z, z),
       (.c, (!bit a 7 && bit b 7) || (bit b 7 && bit R 7) || (bit R 7 && !bit a 7))]) ∧
    logicFlags a =
      [(.s, a.getLsbD 7), (.v, false), (.n, a.getLsbD 7), (.z, decide (a = 0))]

/-! ## Data transfer -/

/-- R233, R234, R235: MOV, MOVW and LDI. -/
def Obligations.MoveResults : Prop :=
  (∀ d r : Reg, RowOf (.mov d r) 0xFC00 0x2C00 (wordRR 0x2C00 d r) [] ∧
    ∀ s : State, s.Plain →
      ∃ t, exec (.mov d r) s = .next t ∧ RegResult s t d (s.reg r) 1) ∧
  (∀ d r : Reg, d.val % 2 = 0 → r.val % 2 = 0 →
    RowOf (.movw d r) 0xFF00 0x0100 (wordMW 0x0100 d r) [] ∧
    ∀ s : State, s.Plain →
      ∃ t, exec (.movw d r) s = .next t ∧ Ran s t s.pc 1 ∧ t.word d.val = s.word r.val ∧
        OnlyBytes s t [d.val, d.val + 1]) ∧
  ∀ (d : Reg) (k : Byte), 16 ≤ d.val → RowOf (.ldi d k) 0xF000 0xE000 (wordRI 0xE000 d k) [] ∧
    ∀ s : State, s.Plain → ∃ t, exec (.ldi d k) s = .next t ∧ RegResult s t d k 1

/-- R236, R241, R244, R254: LD Rd,X, LDD Rd,Y+q, LDD Rd,Z+q and LDS load the byte at the effective
address, through a read hook there once, and change nothing else. -/
def Obligations.LoadResults : Prop :=
  ∀ (d : Reg) (q : BitVec 6) (k : Word),
    RowOf (.ldX d) 0xFE0F 0x900C (wordD 0x900C d) [] ∧
    RowOf (.lddY d q) 0xD208 0x8008 (wordLDD 0x8008 d q) [] ∧
    RowOf (.lddZ d q) 0xD208 0x8000 (wordLDD 0x8000 d q) [] ∧
    RowOf (.lds d k) 0xFE0F 0x9000 (wordD 0x9000 d) [k] ∧
    ∀ s : State, s.Plain →
      ∀ i ea, (i, ea) ∈ [(.ldX d, s.ptr .x), (.lddY d q, s.ptr .y + q.zeroExtend 16),
          (.lddZ d q, s.ptr .z + q.zeroExtend 16), (.lds d k, k)] →
        (ea.toNat < s.params.dataSize →
          ∃ v u t, ReadAt s ea.toNat v u ∧ exec i s = .next t ∧ RegResult u t d v 2) ∧
        (s.params.dataSize ≤ ea.toNat → exec i s = .fault (.addressRange .data ea.toNat))

/-- R237 to R240, R242, R243: the loads with post-increment (the pointer is written after the access, and
over a loaded half of itself) and with pre-decrement (the pointer is written before the access). The
order rests on D21, the forms that load a half of their own pointer on D27. -/
def Obligations.LoadAndUpdateResults : Prop :=
  ∀ d : Reg,
    RowOf (.ldXInc d) 0xFE0F 0x900D (wordD 0x900D d) [] ∧
    RowOf (.ldXDec d) 0xFE0F 0x900E (wordD 0x900E d) [] ∧
    RowOf (.ldYInc d) 0xFE0F 0x9009 (wordD 0x9009 d) [] ∧
    RowOf (.ldYDec d) 0xFE0F 0x900A (wordD 0x900A d) [] ∧
    RowOf (.ldZInc d) 0xFE0F 0x9001 (wordD 0x9001 d) [] ∧
    RowOf (.ldZDec d) 0xFE0F 0x9002 (wordD 0x9002 d) [] ∧
    ∀ s : State, s.Plain →
      (∀ i p, (i, p) ∈ [(.ldXInc d, .x), (.ldYInc d, .y), (.ldZInc d, .z)] →
        let ea := s.ptr p
        (ea.toNat < s.params.dataSize →
          ∃ v u t, ReadAt s ea.toNat v u ∧ exec i s = .next t ∧ Ran u t s.pc 2 ∧
            ∀ a, t.byte a = withWord (pointerAddr s.params p) (ea + 1)
              (fun x => if x = d.val then v else u.byte x) a) ∧
        (s.params.dataSize ≤ ea.toNat → exec i s = .fault (.addressRange .data ea.toNat))) ∧
      (∀ i p, (i, p) ∈ [(.ldXDec d, .x), (.ldYDec d, .y), (.ldZDec d, .z)] →
        let ea := s.ptr p - 1
        (ea.toNat < s.params.dataSize →
          ∃ m v u t, OnlyMem s m (withWord (pointerAddr s.params p) ea s.byte) ∧
            ReadAt m ea.toNat v u ∧ exec i s = .next t ∧ RegResult u t d v 2) ∧
        (s.params.dataSize ≤ ea.toNat → exec i s = .fault (.addressRange .data ea.toNat)))

/-- R245, R250, R253, R255: ST X,Rr, STD Y+q,Rr, STD Z+q,Rr and STS store the register at the effective
address, through a write hook there once, and change nothing else. -/
def Obligations.StoreResults : Prop :=
  ∀ (r : Reg) (q : BitVec 6) (k : Word),
    RowOf (.stX r) 0xFE0F 0x920C (wordD 0x920C r) [] ∧
    RowOf (.stdY q r) 0xD208 0x8208 (wordLDD 0x8208 r q) [] ∧
    RowOf (.stdZ q r) 0xD208 0x8200 (wordLDD 0x8200 r q) [] ∧
    RowOf (.sts k r) 0xFE0F 0x9200 (wordD 0x9200 r) [k] ∧
    ∀ s : State, s.Plain →
      ∀ i ea, (i, ea) ∈ [(.stX r, s.ptr .x), (.stdY q r, s.ptr .y + q.zeroExtend 16),
          (.stdZ q r, s.ptr .z + q.zeroExtend 16), (.sts k r, k)] →
        (ea.toNat < s.params.dataSize →
          ∃ u, WriteAt s ea.toNat (s.reg r) u ∧ exec i s = .next { u with wait := 2 }) ∧
        (s.params.dataSize ≤ ea.toNat → exec i s = .fault (.addressRange .data ea.toNat))

/-- R246 to R249, R251, R252: the stores with post-increment (the old pointer half is stored) and with
pre-decrement (the new pointer half is stored). The order rests on D21, the forms that store a half of
their own pointer on D27. -/
def Obligations.StoreAndUpdateResults : Prop :=
  ∀ r : Reg,
    RowOf (.stXInc r) 0xFE0F 0x920D (wordD 0x920D r) [] ∧
    RowOf (.stXDec r) 0xFE0F 0x920E (wordD 0x920E r) [] ∧
    RowOf (.stYInc r) 0xFE0F 0x9209 (wordD 0x9209 r) [] ∧
    RowOf (.stYDec r) 0xFE0F 0x920A (wordD 0x920A r) [] ∧
    RowOf (.stZInc r) 0xFE0F 0x9201 (wordD 0x9201 r) [] ∧
    RowOf (.stZDec r) 0xFE0F 0x9202 (wordD 0x9202 r) [] ∧
    ∀ s : State, s.Plain →
      (∀ i p, (i, p) ∈ [(.stXInc r, .x), (.stYInc r, .y), (.stZInc r, .z)] →
        let ea := s.ptr p
        (ea.toNat < s.params.dataSize →
          ∃ u t, WriteAt s ea.toNat (s.reg r) u ∧ exec i s = .next t ∧ Ran u t s.pc 2 ∧
            ∀ a, t.byte a = withWord (pointerAddr s.params p) (ea + 1) u.byte a) ∧
        (s.params.dataSize ≤ ea.toNat → exec i s = .fault (.addressRange .data ea.toNat))) ∧
      (∀ i p, (i, p) ∈ [(.stXDec r, .x), (.stYDec r, .y), (.stZDec r, .z)] →
        let ea := s.ptr p - 1
        (ea.toNat < s.params.dataSize →
          ∃ m u, OnlyMem s m (withWord (pointerAddr s.params p) ea s.byte) ∧
            WriteAt m ea.toNat (m.reg r) u ∧ exec i s = .next { u with wait := 2 }) ∧
        (s.params.dataSize ≤ ea.toNat → exec i s = .fault (.addressRange .data ea.toNat)))

/-- R256, R257: PUSH stores below `SP` and POP loads at `SP`; POP into a register is the last write. They
rest on D12. -/
def Obligations.PushAndPopResults : Prop :=
  ∀ d : Reg,
    RowOf (.push d) 0xFE0F 0x920F (wordD 0x920F d) [] ∧ RowOf (.pop d) 0xFE0F 0x900F (wordD 0x900F d) [] ∧
    ∀ s : State, s.Plain →
      ((s.sp - 1).toNat < s.params.dataSize →
        ∃ m u, OnlyMem s m (withWord s.params.spAddr (s.sp - 1) s.byte) ∧
          WriteAt m (s.sp - 1).toNat (s.reg d) u ∧ exec (.push d) s = .next { u with wait := 2 }) ∧
      (s.params.dataSize ≤ (s.sp - 1).toNat →
        exec (.push d) s = .fault (.addressRange .data (s.sp - 1).toNat)) ∧
      (s.sp.toNat < s.params.dataSize →
        ∃ v u t, ReadAt s s.sp.toNat v u ∧ exec (.pop d) s = .next t ∧ Ran u t s.pc 2 ∧
          ∀ a, t.byte a = if a = d.val then v else withWord s.params.spAddr (s.sp + 1) u.byte a) ∧
      (s.params.dataSize ≤ s.sp.toNat →
        exec (.pop d) s = .fault (.addressRange .data s.sp.toNat))

/-- R258, R259, R285, R286: IN, OUT, SBI and CBI access the data address `IO_BASE` + A (R84), computed
modulo 2^16 as every effective address is (R230); SBI and CBI read the whole byte, through a read hook
once, and write it back, through a write hook once. -/
def Obligations.IoResults : Prop :=
  (∀ (d : Reg) (a : Fin 64),
    RowOf (.inp d a) 0xF800 0xB000 (wordIO 0xB000 d a) [] ∧
    RowOf (.out a d) 0xF800 0xB800 (wordIO 0xB800 d a) [] ∧
    ∀ s : State, s.Plain →
      let ea := (s.params.ioBase + a.val) % 65536
      (ea < s.params.dataSize →
        (∃ v u t, ReadAt s ea v u ∧ exec (.inp d a) s = .next t ∧ RegResult u t d v 1) ∧
        (∃ u, WriteAt s ea (s.reg d) u ∧ exec (.out a d) s = .next { u with wait := 1 })) ∧
      (s.params.dataSize ≤ ea →
        exec (.inp d a) s = .fault (.addressRange .data ea) ∧
        exec (.out a d) s = .fault (.addressRange .data ea))) ∧
  ∀ (a : Fin 32) (b : BitIx),
    RowOf (.sbi a b) 0xFF00 0x9A00 (wordIOB 0x9A00 a b) [] ∧
    RowOf (.cbi a b) 0xFF00 0x9800 (wordIOB 0x9800 a b) [] ∧
    ∀ s : State, s.Plain →
      let ea := (s.params.ioBase + a.val) % 65536
      (ea < s.params.dataSize →
        (∃ v w u t, ReadAt s ea v u ∧ WriteAt u ea w t ∧
          exec (.sbi a b) s = .next { t with wait := 2 } ∧
          ∀ j : BitIx, w.getLsbD j.val = (decide (j = b) || v.getLsbD j.val)) ∧
        (∃ v w u t, ReadAt s ea v u ∧ WriteAt u ea w t ∧
          exec (.cbi a b) s = .next { t with wait := 2 } ∧
          ∀ j : BitIx, w.getLsbD j.val = (decide (j ≠ b) && v.getLsbD j.val))) ∧
      (s.params.dataSize ≤ ea →
        exec (.sbi a b) s = .fault (.addressRange .data ea) ∧
        exec (.cbi a b) s = .fault (.addressRange .data ea))

/-- R260 to R263: the three LPM forms load a byte of the program store, the low byte of word Z/2 where Z
is even and the high byte where it is odd (D25); `LPM Rd,Z+` then writes Z, over a loaded half of it
(D27). -/
def Obligations.ProgramLoadResults : Prop :=
  ∀ d : Reg,
    RowOf .lpm 0xFFFF 0x95C8 0x95C8 [] ∧ RowOf (.lpmZ d) 0xFE0F 0x9004 (wordD 0x9004 d) [] ∧
    RowOf (.lpmZInc d) 0xFE0F 0x9005 (wordD 0x9005 d) [] ∧
    ∀ s : State, s.Plain →
      let z := s.ptr .z
      (∀ w, s.prog[z.toNat / 2]? = some w →
        let v := BitVec.ofNat 8 (if z.toNat % 2 = 0 then w.toNat % 256 else w.toNat / 256)
        (∃ t, exec .lpm s = .next t ∧ RegResult s t 0 v 3) ∧
        (∃ t, exec (.lpmZ d) s = .next t ∧ RegResult s t d v 3) ∧
        (∃ t, exec (.lpmZInc d) s = .next t ∧ Ran s t s.pc 3 ∧
          ∀ a, t.byte a = withWord (pointerAddr s.params .z) (z + 1)
            (fun x => if x = d.val then v else s.byte x) a)) ∧
      (s.prog.length ≤ z.toNat / 2 →
        ∀ i ∈ [.lpm, .lpmZ d, .lpmZInc d], exec i s = .fault (.addressRange .program (z.toNat / 2)))

/-! ## Control transfer -/

/-- R211, R213: RJMP and IJMP write `pc` and nothing else. -/
def Obligations.JumpResults : Prop :=
  (∀ k : BitVec 12, RowOf (.rjmp k) 0xF000 0xC000 (wordJ12 0xC000 k) [] ∧
    ∀ s : State, ∃ t, exec (.rjmp k) s = .next t ∧
      Ran s t (BitVec.ofInt 16 (s.pc.toNat + k.toInt)) 2 ∧ OnlyBytes s t []) ∧
  RowOf .ijmp 0xFFFF 0x9409 0x9409 [] ∧
  ∀ s : State, s.Plain → ∃ t, exec .ijmp s = .next t ∧ Ran s t (s.ptr .z) 2 ∧ OnlyBytes s t []

/-- R212, R214, R215, R216: JMP, and the three calls, which push the address after the instruction, high
byte first (D12), and then jump; the high six bits of a 22-bit target are ignored (D7). Where the
stack slot is not open the effect is still the two pushes and the jump, or the fault of a push. -/
def Obligations.JmpAndCallResults : Prop :=
  ∀ (k : BitVec 12) (j : BitVec 22),
    RowOf (.rcall k) 0xF000 0xD000 (wordJ12 0xD000 k) [] ∧
    RowOf (.jmp j) 0xFE0E 0x940C (wordJ22 0x940C j) [BitVec.ofNat 16 (j.toNat % 65536)] ∧
    RowOf (.call j) 0xFE0E 0x940E (wordJ22 0x940E j) [BitVec.ofNat 16 (j.toNat % 65536)] ∧
    RowOf .icall 0xFFFF 0x9509 0x9509 [] ∧
    (∀ s : State, ∃ t, exec (.jmp j) s = .next t ∧ Ran s t (BitVec.ofNat 16 (j.toNat % 65536)) 3 ∧
      OnlyBytes s t []) ∧
    ∀ s : State, s.Plain →
      ∀ i target cost, (i, target, cost) ∈ [(.rcall k, BitVec.ofInt 16 (s.pc.toNat + k.toInt), 3),
          (.call j, BitVec.ofNat 16 (j.toNat % 65536), 4), (.icall, s.ptr .z, 3)] →
        (StackOpen s → ∃ t, exec i s = .next t ∧ Ran s t target cost ∧
          ∀ a, t.byte a = withReturnAddress s s.pc a) ∧
        (∀ m u, push8 (highByte s.pc) s = .ok ((), m) → push8 (lowByte s.pc) m = .ok ((), u) →
          exec i s = .next { u with pc := target, wait := cost }) ∧
        (∀ f, push8 (highByte s.pc) s = .error f → exec i s = .fault f) ∧
        (∀ m f, push8 (highByte s.pc) s = .ok ((), m) → push8 (lowByte s.pc) m = .error f →
          exec i s = .fault f)

/-- R217, R218: RET and RETI pop the low byte, then the high byte, and add 2 to `SP`; RETI also sets I and
no other flag. They rest on D12. `hi` is read after `SP` was raised by one. -/
def Obligations.ReturnResults : Prop :=
  RowOf .ret 0xFFFF 0x9508 0x9508 [] ∧ RowOf .reti 0xFFFF 0x9518 0x9518 [] ∧
  ∀ s : State, s.Plain →
    (s.sp.toNat < s.params.dataSize → (s.sp + 1).toNat < s.params.dataSize →
      hookAt s.rdHooks s.sp.toNat = none → hookAt s.rdHooks (s.sp + 1).toNat = none →
      let lo := s.byte s.sp.toNat
      let hi := withWord s.params.spAddr (s.sp + 1) s.byte (s.sp + 1).toNat
      (∃ t, exec .ret s = .next t ∧ Ran s t (joinBytes hi lo) 4 ∧
        ∀ a, t.byte a = withWord s.params.spAddr (s.sp + 2) s.byte a) ∧
      (∃ t, exec .reti s = .next t ∧ Ran s t (joinBytes hi lo) 4 ∧ t.flag .i = true ∧
        OnlyFlags s t [.i] ∧ ∀ a, a ≠ s.params.sregAddr →
          t.byte a = withWord s.params.spAddr (s.sp + 2) s.byte a)) ∧
    (∀ i ∈ [.ret, .reti],
      (s.params.dataSize ≤ s.sp.toNat → exec i s = .fault (.addressRange .data s.sp.toNat)) ∧
      (s.sp.toNat < s.params.dataSize → hookAt s.rdHooks s.sp.toNat = none →
        s.params.dataSize ≤ (s.sp + 1).toNat →
        exec i s = .fault (.addressRange .data (s.sp + 1).toNat)))

/-- R219, R220: BRBS and BRBC; the offset is signed and relative to the advanced `pc`. -/
def Obligations.BranchResults : Prop :=
  ∀ (f : BitIx) (k : BitVec 7),
    RowOf (.brbs f k) 0xFC00 0xF000 (wordBR 0xF000 f k) [] ∧
    RowOf (.brbc f k) 0xFC00 0xF400 (wordBR 0xF400 f k) [] ∧
    ∀ s : State, s.Plain →
      ∀ i taken, (i, taken) ∈ [(.brbs f k, s.sreg.getLsbD f.val), (.brbc f k, !s.sreg.getLsbD f.val)] →
        ∃ t, exec i s = .next t ∧ OnlyBytes s t [] ∧
          if taken then Ran s t (BitVec.ofInt 16 (s.pc.toNat + k.toInt)) 2 else Ran s t s.pc 1

/-- R221 to R225, R146: the skips; a skipped instruction is stepped over whole, and where none follows in
the image the skip faults. -/
def Obligations.SkipResults : Prop :=
  (∀ d r : Reg, RowOf (.cpse d r) 0xFC00 0x1000 (wordRR 0x1000 d r) [] ∧
    ∀ s : State, s.Plain → SkipRuns s (exec (.cpse d r) s) (s.reg d = s.reg r)) ∧
  (∀ (r : Reg) (b : BitIx),
    RowOf (.sbrc r b) 0xFE08 0xFC00 (wordRB 0xFC00 r b) [] ∧
    RowOf (.sbrs r b) 0xFE08 0xFE00 (wordRB 0xFE00 r b) [] ∧
    ∀ s : State, s.Plain →
      SkipRuns s (exec (.sbrc r b) s) ((s.reg r).getLsbD b.val = false) ∧
      SkipRuns s (exec (.sbrs r b) s) ((s.reg r).getLsbD b.val = true)) ∧
  ∀ (a : Fin 32) (b : BitIx),
    RowOf (.sbic a b) 0xFF00 0x9900 (wordIOB 0x9900 a b) [] ∧
    RowOf (.sbis a b) 0xFF00 0x9B00 (wordIOB 0x9B00 a b) [] ∧
    ∀ s : State, s.Plain →
      let ea := (s.params.ioBase + a.val) % 65536
      (ea < s.params.dataSize →
        ∃ v u, ReadAt s ea v u ∧ u.pc = s.pc ∧
          SkipRuns u (exec (.sbic a b) s) (v.getLsbD b.val = false) ∧
          SkipRuns u (exec (.sbis a b) s) (v.getLsbD b.val = true)) ∧
      (s.params.dataSize ≤ ea →
        exec (.sbic a b) s = .fault (.addressRange .data ea) ∧
        exec (.sbis a b) s = .fault (.addressRange .data ea))

/-! ## Bits and MCU control -/

/-- R281 to R284: BSET and BCLR write one bit of `SREG`, BST writes T, BLD writes one bit of a register
from T; no other bit changes. -/
def Obligations.BitResults : Prop :=
  (∀ f : BitIx,
    RowOf (.bset f) 0xFF8F 0x9408 (wordSF 0x9408 f) [] ∧
    RowOf (.bclr f) 0xFF8F 0x9488 (wordSF 0x9488 f) [] ∧
    ∀ s : State, s.Plain →
      ∀ i b, (i, b) ∈ [(.bset f, true), (.bclr f, false)] →
        ∃ t, exec i s = .next t ∧ Ran s t s.pc 1 ∧ OnlyBytes s t [s.params.sregAddr] ∧
          ∀ j : BitIx, t.sreg.getLsbD j.val = if j = f then b else s.sreg.getLsbD j.val) ∧
  ∀ (r : Reg) (b : BitIx),
    RowOf (.bst r b) 0xFE08 0xFA00 (wordRB 0xFA00 r b) [] ∧
    RowOf (.bld r b) 0xFE08 0xF800 (wordRB 0xF800 r b) [] ∧
    ∀ s : State, s.Plain →
      (∃ t, exec (.bst r b) s = .next t ∧ FlagResult s t [.t] ∧
        t.flag .t = (s.reg r).getLsbD b.val) ∧
      (∃ t, exec (.bld r b) s = .next t ∧ Ran s t s.pc 1 ∧ OnlyBytes s t [r.val] ∧
        ∀ j : BitIx, (t.reg r).getLsbD j.val = if j = b then s.flag .t else (s.reg r).getLsbD j.val)

/-- R287, R288: NOP and WDR do nothing and take one step, in every state. WDR rests on D17. -/
def Obligations.NopAndWdrDoNothing : Prop :=
  RowOf .nop 0xFFFF 0x0000 0x0000 [] ∧ RowOf .wdr 0xFFFF 0x95A8 0x95A8 [] ∧
  ∀ s : State, ∀ i ∈ [Instr.nop, .wdr], exec i s = .next { s with wait := 1 }

/-- R290 to R292, R111: SLEEP, BREAK and SPM fault with their own word and the address it was fetched
from, in every state; `pc` is already past the word when a handler is entered. They rest on D17. -/
def Obligations.RefusedInstructionsFault : Prop :=
  RowOf .sleep 0xFFFF 0x9588 0x9588 [] ∧ RowOf .brk 0xFFFF 0x9598 0x9598 [] ∧
  RowOf .spm 0xFFFF 0x95E8 0x95E8 [] ∧
  ∀ s : State,
    exec .sleep s = .fault (.decode 0x9588 (s.pc - 1)) ∧
    exec .brk s = .fault (.decode 0x9598 (s.pc - 1)) ∧
    exec .spm s = .fault (.decode 0x95E8 (s.pc - 1))
end

