-- ==== Sys2Proof/Laws/Flags.lean ====
section
/-! SUPPORT. Laws of single bits and of flag writes: which bit a write changes and which it leaves. -/

namespace Sys2Proof.Machine

/-- A byte with one bit replaced, bit by bit (R27: no other bit is disturbed). -/
theorem bitOf_withBit (v : Byte) (k j : BitIx) (b : Bool) :
    bitOf (withBit v k b) j = if j = k then b else bitOf v j := by
  have hj : j.val < 8 := j.isLt
  have hk : k.val < 8 := k.isLt
  by_cases h : j = k
  · subst h
    cases b <;> simp [bitOf, withBit]
  · have hne : j.val ≠ k.val := fun e => h (Fin.ext e)
    by_cases hlt : j.val < k.val
    · cases b <;> simp [bitOf, withBit, h, hlt]
    · have hsub : ¬ j.val - k.val = 0 := by omega
      cases b <;> simp [bitOf, withBit, h, hlt, hsub]

/-- Two bytes with the same bits are equal. -/
theorem byte_ext {v w : Byte} (h : ∀ k : BitIx, bitOf v k = bitOf w k) : v = w :=
  BitVec.eq_of_getLsbD_eq fun i hi => h ⟨i, hi⟩

@[simp] theorem withFlags_nil (v : Byte) : withFlags v [] = v := rfl

@[simp] theorem withFlags_cons (v : Byte) (f : Flag) (b : Bool) (rest : FlagWrites) :
    withFlags v ((f, b) :: rest) = withFlags (withBit v (flagIx f) b) rest := rfl

/-- Distinct flags have distinct bit numbers (R25). -/
@[simp] theorem flagIx_inj (f g : Flag) : flagIx f = flagIx g ↔ f = g := by
  cases f <;> cases g <;> decide

/-- A flag of a byte in which one flag was written. -/
@[simp] theorem flag_withBit (v : Byte) (f g : Flag) (b : Bool) :
    bitOf (withBit v (flagIx g) b) (flagIx f) = if f = g then b else bitOf v (flagIx f) := by
  rw [bitOf_withBit]; simp

/-- A flag that no write names keeps its value. -/
theorem flag_withFlags_other (f : Flag) : ∀ (ws : FlagWrites) (v : Byte), (∀ b, (f, b) ∉ ws) →
    bitOf (withFlags v ws) (flagIx f) = bitOf v (flagIx f)
  | [], _, _ => rfl
  | (g, b) :: rest, v, h => by
    have hfg : f ≠ g := fun e => h b (by simp [e])
    rw [withFlags_cons, flag_withFlags_other f rest _ fun b' hb' => h b' (List.mem_cons_of_mem _ hb')]
    simp [hfg]

end Sys2Proof.Machine
end

