-- ==== Sys2Proof/Laws/Memory.lean ====
section
/-! SUPPORT. Laws of the backing buffer: read after write, the canonical form and its preservation, and
that two memories in canonical form that read alike are equal. -/

namespace Sys2Proof

@[simp] theorem memory_get_nil (a : Nat) : Memory.get [] a = 0#8 := rfl

/-! ## The canonical form -/

theorem memory_wfFrom_mono {lo lo' : Nat} (h : lo' ≤ lo) :
    ∀ {m : Memory}, Memory.wfFrom lo m = true → Memory.wfFrom lo' m = true
  | [], _ => rfl
  | (k, b) :: m, hm => by
    simp only [Memory.wfFrom, Bool.and_eq_true, decide_eq_true_eq] at hm ⊢
    exact ⟨⟨by omega, hm.1.2⟩, hm.2⟩

theorem memory_get_below {m : Memory} : ∀ {lo a : Nat}, Memory.wfFrom lo m = true → a < lo →
    m.get a = 0#8 := by
  induction m with
  | nil => intros; rfl
  | cons e m ih =>
    obtain ⟨k, b⟩ := e
    intro lo a hm ha
    simp only [Memory.wfFrom, Bool.and_eq_true, decide_eq_true_eq] at hm
    have hk : a ≠ k := by omega
    simp only [Memory.get, hk, if_false]
    exact ih hm.2 (by omega)

theorem memory_wfFrom_set {m : Memory} : ∀ {lo : Nat} (a : Nat) (v : Byte), lo ≤ a →
    Memory.wfFrom lo m = true → Memory.wfFrom lo (m.set a v) = true := by
  induction m with
  | nil =>
    intro lo a v ha _
    by_cases hv : v = 0#8 <;> simp [Memory.set, Memory.wfFrom, hv, ha]
  | cons e m ih =>
    obtain ⟨k, b⟩ := e
    intro lo a v ha hm
    have hm' := hm
    simp only [Memory.wfFrom, Bool.and_eq_true, decide_eq_true_eq] at hm
    rcases Nat.lt_trichotomy a k with h | h | h
    · by_cases hv : v = 0#8
      · simp only [Memory.set, h, hv, if_true]; exact hm'
      · have hk : Memory.wfFrom (a + 1) m = true := memory_wfFrom_mono (by omega) hm.2
        simp [Memory.set, h, hv, Memory.wfFrom, ha, hm, Nat.succ_le_of_lt h]
    · subst h
      by_cases hv : v = 0#8
      · simp only [Memory.set, Nat.lt_irrefl, if_false, hv, if_true]
        exact memory_wfFrom_mono (by omega) hm.2
      · simp [Memory.set, hv, Memory.wfFrom, ha, hm.2]
    · have h1 : ¬ a < k := by omega
      have h2 : a ≠ k := by omega
      simp only [Memory.set, h1, h2, if_false, Memory.wfFrom, Bool.and_eq_true, decide_eq_true_eq]
      exact ⟨hm.1, ih a v (by omega) hm.2⟩

/-- A write keeps the canonical form. -/
theorem memory_wf_set {m : Memory} (a : Nat) (v : Byte) (h : m.wf = true) : (m.set a v).wf = true :=
  memory_wfFrom_set a v (Nat.zero_le a) h

/-! ## Read after write -/

theorem memory_get_setFrom {m : Memory} : ∀ {lo : Nat} (a : Nat) (v : Byte) (x : Nat),
    Memory.wfFrom lo m = true → (m.set a v).get x = if x = a then v else m.get x := by
  induction m with
  | nil =>
    intro lo a v x _
    by_cases hv : v = 0#8
    · by_cases hx : x = a <;> simp [Memory.set, hv, Memory.get]
    · simp [Memory.set, hv, Memory.get]
  | cons e m ih =>
    obtain ⟨k, b⟩ := e
    intro lo a v x hm
    simp only [Memory.wfFrom, Bool.and_eq_true, decide_eq_true_eq] at hm
    rcases Nat.lt_trichotomy a k with h | h | h
    · by_cases hv : v = 0#8
      · simp only [Memory.set, h, hv, if_true]
        by_cases hx : x = a
        · subst hx
          have hk : x ≠ k := by omega
          simp only [Memory.get, hk, if_false, if_true]
          exact memory_get_below hm.2 (by omega)
        · simp [hx]
      · simp [Memory.set, h, hv, Memory.get]
    · subst h
      by_cases hv : v = 0#8
      · simp only [Memory.set, Nat.lt_irrefl, if_false, hv, if_true]
        by_cases hx : x = a
        · subst hx
          simp only [if_true]
          exact memory_get_below hm.2 (by omega)
        · simp [hx, Memory.get]
      · by_cases hx : x = a <;> simp [Memory.set, hv, Memory.get, hx]
    · have h1 : ¬ a < k := by omega
      have h2 : a ≠ k := by omega
      simp only [Memory.set, h1, h2, if_false, Memory.get]
      by_cases hx : x = k
      · subst hx
        have : x ≠ a := by omega
        simp [this]
      · simp only [hx, if_false]
        exact ih a v x hm.2

/-- A byte read after a write: the value written there, what was there before elsewhere. -/
theorem memory_get_set {m : Memory} (h : m.wf = true) (a : Nat) (v : Byte) (x : Nat) :
    (m.set a v).get x = if x = a then v else m.get x := memory_get_setFrom a v x h

theorem memory_get_set_same {m : Memory} (h : m.wf = true) (a : Nat) (v : Byte) :
    (m.set a v).get a = v := by simp [memory_get_set h]

theorem memory_get_set_other {m : Memory} (h : m.wf = true) {a x : Nat} (v : Byte) (hx : x ≠ a) :
    (m.set a v).get x = m.get x := by simp [memory_get_set h, hx]

/-! ## Addresses that exist -/

theorem memory_below_set {m : Memory} {size a : Nat} (v : Byte) (ha : a < size)
    (h : m.below size = true) : (m.set a v).below size = true := by
  induction m with
  | nil => by_cases hv : v = 0#8 <;> simp [Memory.set, Memory.below, hv, ha]
  | cons e m ih =>
    obtain ⟨k, b⟩ := e
    simp only [Memory.below, Bool.and_eq_true, decide_eq_true_eq] at h
    simp only [Memory.set]
    split_ifs <;> simp [Memory.below, h, ha, ih h.2]

theorem memory_get_of_below {m : Memory} {size a : Nat} (h : m.below size = true) (ha : size ≤ a) :
    m.get a = 0#8 := by
  induction m with
  | nil => rfl
  | cons e m ih =>
    obtain ⟨k, b⟩ := e
    simp only [Memory.below, Bool.and_eq_true, decide_eq_true_eq] at h
    have : a ≠ k := by omega
    simp [Memory.get, this, ih h.2]

/-! ## Several raw writes -/

theorem memory_wf_pokes (size : Nat) : ∀ (l : List Host.Cell) {m : Memory}, m.wf = true →
    (m.pokes size l).wf = true
  | [], _, h => h
  | (a, v) :: rest, m, h => by
    simp only [Memory.pokes]
    split_ifs
    · exact memory_wf_pokes size rest (memory_wf_set a v h)
    · exact memory_wf_pokes size rest h

theorem memory_below_pokes (size : Nat) : ∀ (l : List Host.Cell) {m : Memory}, m.below size = true →
    (m.pokes size l).below size = true
  | [], _, h => h
  | (a, v) :: rest, m, h => by
    simp only [Memory.pokes]
    split_ifs with ha
    · exact memory_below_pokes size rest (memory_below_set v ha h)
    · exact memory_below_pokes size rest h

/-! ## Equal memories are equal data -/

theorem memory_ext_from : ∀ {m m' : Memory} {lo : Nat}, Memory.wfFrom lo m = true →
    Memory.wfFrom lo m' = true → (∀ a, m.get a = m'.get a) → m = m'
  | [], [], _, _, _, _ => rfl
  | [], (k, b) :: m', lo, _, h', hg => by
    simp only [Memory.wfFrom, Bool.and_eq_true, bne_iff_ne] at h'
    have := hg k
    simp [Memory.get] at this
    exact absurd this.symm h'.1.2
  | (k, b) :: m, [], lo, h, _, hg => by
    simp only [Memory.wfFrom, Bool.and_eq_true, bne_iff_ne] at h
    have := hg k
    simp [Memory.get] at this
    exact absurd this h.1.2
  | (k, b) :: m, (k', b') :: m', lo, h, h', hg => by
    simp only [Memory.wfFrom, Bool.and_eq_true, bne_iff_ne, decide_eq_true_eq] at h h'
    have hk : k = k' := by
      rcases Nat.lt_trichotomy k k' with hlt | heq | hgt
      · have h1 := hg k
        have hne : k ≠ k' := by omega
        simp only [Memory.get, if_true, hne, if_false] at h1
        rw [memory_get_below h'.2 (by omega)] at h1
        exact absurd h1 h.1.2
      · exact heq
      · have h1 := hg k'
        have hne : k' ≠ k := by omega
        simp only [Memory.get, if_true, hne, if_false] at h1
        rw [memory_get_below h.2 (by omega)] at h1
        exact absurd h1.symm h'.1.2
    subst hk
    have hb : b = b' := by simpa [Memory.get] using hg k
    subst hb
    have hm : m = m' := memory_ext_from h.2 h'.2 fun a => by
      by_cases ha : a = k
      · subst ha
        rw [memory_get_below h.2 (by omega), memory_get_below h'.2 (by omega)]
      · simpa [Memory.get, ha] using hg a
    rw [hm]

/-- Two memories in canonical form that read alike are the same list. -/
theorem memory_ext {m m' : Memory} (h : m.wf = true) (h' : m'.wf = true)
    (hg : ∀ a, m.get a = m'.get a) : m = m' := memory_ext_from h h' hg

end Sys2Proof
end

