-- ==== Sys2Proof/Laws/State.lean ====
section
/-! SUPPORT. One lemma per field per named update of the state, so that no later proof unfolds an update,
and the frames' first facts. -/

namespace Sys2Proof.Machine

/-! ## `bookkeep` -/

@[simp] theorem bookkeep_mem (s : State) : (bookkeep s).mem = s.mem := rfl
@[simp] theorem bookkeep_pc (s : State) : (bookkeep s).pc = s.pc := rfl
@[simp] theorem bookkeep_wait (s : State) : (bookkeep s).wait = s.wait - 1 := rfl
@[simp] theorem bookkeep_total (s : State) : (bookkeep s).total = s.total + 1 := rfl
@[simp] theorem bookkeep_pend (s : State) : (bookkeep s).pend = s.pend := rfl
@[simp] theorem bookkeep_plat (s : State) : (bookkeep s).plat = s.plat := rfl
@[simp] theorem bookkeep_halted (s : State) : (bookkeep s).halted = s.halted := rfl
@[simp] theorem bookkeep_params (s : State) : (bookkeep s).params = s.params := rfl
@[simp] theorem bookkeep_prog (s : State) : (bookkeep s).prog = s.prog := rfl
@[simp] theorem bookkeep_rdHooks (s : State) : (bookkeep s).rdHooks = s.rdHooks := rfl
@[simp] theorem bookkeep_wrHooks (s : State) : (bookkeep s).wrHooks = s.wrHooks := rfl
@[simp] theorem bookkeep_clock (s : State) : (bookkeep s).clock = s.clock := rfl
@[simp] theorem bookkeep_itable (s : State) : (bookkeep s).itable = s.itable := rfl

/-! ## `applyOut` -/

@[simp] theorem applyOut_mem (o : HookOut) (s : State) : (applyOut o s).mem = s.mem.pokes s.params.dataSize o.pokes := rfl
@[simp] theorem applyOut_pc (o : HookOut) (s : State) : (applyOut o s).pc = s.pc := rfl
@[simp] theorem applyOut_wait (o : HookOut) (s : State) : (applyOut o s).wait = s.wait := rfl
@[simp] theorem applyOut_total (o : HookOut) (s : State) : (applyOut o s).total = s.total := rfl
@[simp] theorem applyOut_pend (o : HookOut) (s : State) : (applyOut o s).pend = pendActs s.pend o.irqs := rfl
@[simp] theorem applyOut_plat (o : HookOut) (s : State) : (applyOut o s).plat = o.plat := rfl
@[simp] theorem applyOut_halted (o : HookOut) (s : State) : (applyOut o s).halted = s.halted := rfl
@[simp] theorem applyOut_params (o : HookOut) (s : State) : (applyOut o s).params = s.params := rfl
@[simp] theorem applyOut_prog (o : HookOut) (s : State) : (applyOut o s).prog = s.prog := rfl
@[simp] theorem applyOut_rdHooks (o : HookOut) (s : State) : (applyOut o s).rdHooks = s.rdHooks := rfl
@[simp] theorem applyOut_wrHooks (o : HookOut) (s : State) : (applyOut o s).wrHooks = s.wrHooks := rfl
@[simp] theorem applyOut_clock (o : HookOut) (s : State) : (applyOut o s).clock = s.clock := rfl
@[simp] theorem applyOut_itable (o : HookOut) (s : State) : (applyOut o s).itable = s.itable := rfl

/-! ## `latchFault` -/

@[simp] theorem latchFault_pc (f : Fault) (s : State) : (latchFault f s).pc = Config.afterFaultPc s f := rfl
@[simp] theorem latchFault_wait (f : Fault) (s : State) : (latchFault f s).wait = s.wait := rfl
@[simp] theorem latchFault_total (f : Fault) (s : State) : (latchFault f s).total = s.total := rfl
@[simp] theorem latchFault_halted (f : Fault) (s : State) : (latchFault f s).halted = some f := rfl
@[simp] theorem latchFault_params (f : Fault) (s : State) : (latchFault f s).params = s.params := rfl
@[simp] theorem latchFault_prog (f : Fault) (s : State) : (latchFault f s).prog = s.prog := rfl
@[simp] theorem latchFault_rdHooks (f : Fault) (s : State) : (latchFault f s).rdHooks = s.rdHooks := rfl
@[simp] theorem latchFault_wrHooks (f : Fault) (s : State) : (latchFault f s).wrHooks = s.wrHooks := rfl
@[simp] theorem latchFault_clock (f : Fault) (s : State) : (latchFault f s).clock = s.clock := rfl
@[simp] theorem latchFault_itable (f : Fault) (s : State) : (latchFault f s).itable = s.itable := rfl

/-! ## `raiseVector` -/

@[simp] theorem raiseVector_mem (v : Nat) (s : State) : (raiseVector v s).mem = s.mem := rfl
@[simp] theorem raiseVector_pc (v : Nat) (s : State) : (raiseVector v s).pc = s.pc := rfl
@[simp] theorem raiseVector_wait (v : Nat) (s : State) : (raiseVector v s).wait = s.wait := rfl
@[simp] theorem raiseVector_total (v : Nat) (s : State) : (raiseVector v s).total = s.total := rfl
@[simp] theorem raiseVector_pend (v : Nat) (s : State) : (raiseVector v s).pend = pendRaise s.pend v := rfl
@[simp] theorem raiseVector_plat (v : Nat) (s : State) : (raiseVector v s).plat = s.plat := rfl
@[simp] theorem raiseVector_halted (v : Nat) (s : State) : (raiseVector v s).halted = s.halted := rfl
@[simp] theorem raiseVector_params (v : Nat) (s : State) : (raiseVector v s).params = s.params := rfl
@[simp] theorem raiseVector_prog (v : Nat) (s : State) : (raiseVector v s).prog = s.prog := rfl
@[simp] theorem raiseVector_rdHooks (v : Nat) (s : State) : (raiseVector v s).rdHooks = s.rdHooks := rfl
@[simp] theorem raiseVector_wrHooks (v : Nat) (s : State) : (raiseVector v s).wrHooks = s.wrHooks := rfl
@[simp] theorem raiseVector_clock (v : Nat) (s : State) : (raiseVector v s).clock = s.clock := rfl
@[simp] theorem raiseVector_itable (v : Nat) (s : State) : (raiseVector v s).itable = s.itable := rfl

/-! ## `clearVector` -/

@[simp] theorem clearVector_mem (v : Nat) (s : State) : (clearVector v s).mem = s.mem := rfl
@[simp] theorem clearVector_pc (v : Nat) (s : State) : (clearVector v s).pc = s.pc := rfl
@[simp] theorem clearVector_wait (v : Nat) (s : State) : (clearVector v s).wait = s.wait := rfl
@[simp] theorem clearVector_total (v : Nat) (s : State) : (clearVector v s).total = s.total := rfl
@[simp] theorem clearVector_pend (v : Nat) (s : State) : (clearVector v s).pend = pendClear s.pend v := rfl
@[simp] theorem clearVector_plat (v : Nat) (s : State) : (clearVector v s).plat = s.plat := rfl
@[simp] theorem clearVector_halted (v : Nat) (s : State) : (clearVector v s).halted = s.halted := rfl
@[simp] theorem clearVector_params (v : Nat) (s : State) : (clearVector v s).params = s.params := rfl
@[simp] theorem clearVector_prog (v : Nat) (s : State) : (clearVector v s).prog = s.prog := rfl
@[simp] theorem clearVector_rdHooks (v : Nat) (s : State) : (clearVector v s).rdHooks = s.rdHooks := rfl
@[simp] theorem clearVector_wrHooks (v : Nat) (s : State) : (clearVector v s).wrHooks = s.wrHooks := rfl
@[simp] theorem clearVector_clock (v : Nat) (s : State) : (clearVector v s).clock = s.clock := rfl
@[simp] theorem clearVector_itable (v : Nat) (s : State) : (clearVector v s).itable = s.itable := rfl

/-! ## `pokeByte` -/

@[simp] theorem pokeByte_mem (a : Nat) (v : Byte) (s : State) : (pokeByte a v s).mem = s.mem.pokes s.params.dataSize [(a, v)] := rfl
@[simp] theorem pokeByte_pc (a : Nat) (v : Byte) (s : State) : (pokeByte a v s).pc = s.pc := rfl
@[simp] theorem pokeByte_wait (a : Nat) (v : Byte) (s : State) : (pokeByte a v s).wait = s.wait := rfl
@[simp] theorem pokeByte_total (a : Nat) (v : Byte) (s : State) : (pokeByte a v s).total = s.total := rfl
@[simp] theorem pokeByte_pend (a : Nat) (v : Byte) (s : State) : (pokeByte a v s).pend = s.pend := rfl
@[simp] theorem pokeByte_plat (a : Nat) (v : Byte) (s : State) : (pokeByte a v s).plat = s.plat := rfl
@[simp] theorem pokeByte_halted (a : Nat) (v : Byte) (s : State) : (pokeByte a v s).halted = s.halted := rfl
@[simp] theorem pokeByte_params (a : Nat) (v : Byte) (s : State) : (pokeByte a v s).params = s.params := rfl
@[simp] theorem pokeByte_prog (a : Nat) (v : Byte) (s : State) : (pokeByte a v s).prog = s.prog := rfl
@[simp] theorem pokeByte_rdHooks (a : Nat) (v : Byte) (s : State) : (pokeByte a v s).rdHooks = s.rdHooks := rfl
@[simp] theorem pokeByte_wrHooks (a : Nat) (v : Byte) (s : State) : (pokeByte a v s).wrHooks = s.wrHooks := rfl
@[simp] theorem pokeByte_clock (a : Nat) (v : Byte) (s : State) : (pokeByte a v s).clock = s.clock := rfl
@[simp] theorem pokeByte_itable (a : Nat) (v : Byte) (s : State) : (pokeByte a v s).itable = s.itable := rfl

/-! ## `withFetchWord` -/

@[simp] theorem withFetchWord_mem (s : State) (nbits w : Nat) : (s.withFetchWord nbits w).mem = s.mem := rfl
@[simp] theorem withFetchWord_pc (s : State) (nbits w : Nat) : (s.withFetchWord nbits w).pc = s.pc := rfl
@[simp] theorem withFetchWord_wait (s : State) (nbits w : Nat) : (s.withFetchWord nbits w).wait = 0 := rfl
@[simp] theorem withFetchWord_total (s : State) (nbits w : Nat) : (s.withFetchWord nbits w).total = s.total := rfl
@[simp] theorem withFetchWord_pend (s : State) (nbits w : Nat) : (s.withFetchWord nbits w).pend = s.pend.map fun _ => false := rfl
@[simp] theorem withFetchWord_plat (s : State) (nbits w : Nat) : (s.withFetchWord nbits w).plat = s.plat := rfl
@[simp] theorem withFetchWord_halted (s : State) (nbits w : Nat) : (s.withFetchWord nbits w).halted = none := rfl
@[simp] theorem withFetchWord_params (s : State) (nbits w : Nat) : (s.withFetchWord nbits w).params = s.params := rfl
@[simp] theorem withFetchWord_rdHooks (s : State) (nbits w : Nat) : (s.withFetchWord nbits w).rdHooks = s.rdHooks := rfl
@[simp] theorem withFetchWord_wrHooks (s : State) (nbits w : Nat) : (s.withFetchWord nbits w).wrHooks = s.wrHooks := rfl
@[simp] theorem withFetchWord_clock (s : State) (nbits w : Nat) : (s.withFetchWord nbits w).clock = s.clock := rfl
@[simp] theorem withFetchWord_itable (s : State) (nbits w : Nat) : (s.withFetchWord nbits w).itable = ITable.reference := rfl

/-! ## Frames -/

theorem SameUnit.refl (s : State) : SameUnit s s := ⟨rfl, rfl, rfl, rfl, rfl, rfl⟩

theorem SameUnit.trans {s t u : State} (h : SameUnit s t) (g : SameUnit t u) : SameUnit s u :=
  ⟨g.params.trans h.params, g.prog.trans h.prog, g.rdHooks.trans h.rdHooks, g.wrHooks.trans h.wrHooks,
    g.clock.trans h.clock, g.itable.trans h.itable⟩

/-- A flag of a state, as a bit of `SREG`. -/
theorem flag_def (s : State) (f : Flag) : s.flag f = bitOf (s.mem.get s.params.sregAddr) (flagIx f) := rfl

theorem word_def (s : State) (a : Nat) :
    s.word a = joinBytes (s.mem.get (a + 1)) (s.mem.get a) := rfl

end Sys2Proof.Machine
end

