-- ==== Sys2Proof/Laws/Ops.lean ====
section
/-! SUPPORT. The shared operations: what each answers where no hook is attached (the equations that run a
handler symbolically), and what each can do at all (`Evolves`), whatever the hooks do. -/

namespace Sys2Proof.Machine

/-! ## Sequencing -/

theorem act_bind {α β : Type} (m : Act α) (f : α → Act β) (s : State) :
    (m >>= f) s = match m s with
      | .ok (a, s') => f a s'
      | .error e => .error e := by
  simp only [bind, StateT.bind, Except.bind]
  cases m s <;> rfl

theorem act_pure {α : Type} (a : α) (s : State) : (pure a : Act α) s = .ok (a, s) := rfl

theorem act_bind_ok {α β : Type} {m : Act α} {f : α → Act β} {s s' : State} {a : α}
    (h : m s = .ok (a, s')) : (m >>= f) s = f a s' := by rw [act_bind, h]

theorem act_bind_error {α β : Type} {m : Act α} {f : α → Act β} {s : State} {e : Fault}
    (h : m s = .error e) : (m >>= f) s = .error e := by rw [act_bind, h]

/-- A sequence that succeeds: its first part succeeds, and its second from there. -/
theorem act_bind_eq_ok {α β : Type} {m : Act α} {f : α → Act β} {s t : State} {b : β}
    (h : (m >>= f) s = .ok (b, t)) : ∃ a s', m s = .ok (a, s') ∧ f a s' = .ok (b, t) := by
  rw [act_bind] at h
  cases hm : m s with
  | error e => rw [hm] at h; cases h
  | ok p => exact ⟨p.1, p.2, rfl, by rw [hm] at h; exact h⟩

/-! ## Accesses without hooks -/

theorem memRead_unhooked {a : Nat} {s : State} (ha : a < s.params.dataSize)
    (hh : hookAt s.rdHooks a = none) : memRead a s = .ok (s.mem.get a, s) := by
  simp [memRead, ha, hh]

theorem memWrite_unhooked {a : Nat} {v : Byte} {s : State} (ha : a < s.params.dataSize)
    (hh : hookAt s.wrHooks a = none) :
    memWrite a v s = .ok ((), { s with mem := s.mem.set a v }) := by
  simp [memWrite, ha, hh]

theorem memRead_outside {a : Nat} {s : State} (ha : s.params.dataSize ≤ a) :
    memRead a s = .error (.addressRange .data a) := by
  simp [memRead, Nat.not_lt.mpr ha]

theorem memWrite_outside {a : Nat} {v : Byte} {s : State} (ha : s.params.dataSize ≤ a) :
    memWrite a v s = .error (.addressRange .data a) := by
  simp [memWrite, Nat.not_lt.mpr ha]

theorem memRead16_unhooked {a : Nat} {s : State} (ha : a + 1 < s.params.dataSize)
    (h0 : hookAt s.rdHooks a = none) (h1 : hookAt s.rdHooks (a + 1) = none) :
    memRead16 a s = .ok (s.word a, s) := by
  unfold memRead16
  rw [act_bind_ok (memRead_unhooked (by omega) h0), act_bind_ok (memRead_unhooked ha h1)]
  rfl

theorem memWrite16_unhooked {a : Nat} {v : Word} {s : State} (ha : a + 1 < s.params.dataSize)
    (h0 : hookAt s.wrHooks a = none) (h1 : hookAt s.wrHooks (a + 1) = none) :
    memWrite16 a v s =
      .ok ((), { s with mem := (s.mem.set a (lowByte v)).set (a + 1) (highByte v) }) := by
  unfold memWrite16
  rw [act_bind_ok (memWrite_unhooked (by omega) h0)]
  exact memWrite_unhooked ha h1

theorem fetch_inside {i w : Word} {s : State} (h : progWord s i = some w) :
    fetch i s = .ok (w, s) := by simp [fetch, h]

theorem fetch_outside {i : Word} {s : State} (h : progWord s i = none) :
    fetch i s = .error (.addressRange .program i.toNat) := by simp [fetch, h]

@[simp] theorem getPc_apply (s : State) : getPc s = .ok (s.pc, s) := rfl

@[simp] theorem setPc_apply (t : Word) (s : State) : setPc t s = .ok ((), { s with pc := t }) := rfl

@[simp] theorem jumpBy_apply (o : Word) (s : State) :
    jumpBy o s = .ok ((), { s with pc := s.pc + o }) := rfl

/-! ## The core's locations under `NoCoreHooks` -/

theorem params_reg_lt {p : Params} (hp : p.Ok) {a : Nat} (ha : a < 32) : a < p.dataSize := by
  obtain ⟨_, _, h, _, h', _⟩ := hp
  omega

theorem pointerAddr_bounds {p : Params} (hp : p.Ok) (q : Pointer) :
    pointerAddr p q + 1 < 32 ∧ pointerAddr p q % 2 = 0 := by
  obtain ⟨-, -, -, -, -, -, -, -, hx, hy, hz, -⟩ := hp
  cases q <;> simp only [pointerAddr] <;> omega

section CoreLocations

variable {s : State} (hp : s.params.Ok) (hn : s.NoCoreHooks)
include hp hn

theorem readReg_plain (r : Reg) : readReg r s = .ok (s.mem.get r.val, s) := by
  unfold readReg
  rw [show Config.regBase + r.val = r.val by simp [Config.regBase]]
  exact memRead_unhooked (params_reg_lt hp r.isLt) (hn.regs _ r.isLt).1

theorem writeReg_plain (r : Reg) (v : Byte) :
    writeReg r v s = .ok ((), { s with mem := s.mem.set r.val v }) := by
  unfold writeReg
  rw [show Config.regBase + r.val = r.val by simp [Config.regBase]]
  exact memWrite_unhooked (params_reg_lt hp r.isLt) (hn.regs _ r.isLt).2

theorem readPair_plain (r : Reg) (h : r.val + 1 < 32) : readPair r s = .ok (s.word r.val, s) := by
  unfold readPair
  rw [show Config.regBase + r.val = r.val by simp [Config.regBase]]
  exact memRead16_unhooked (params_reg_lt hp h) (hn.regs _ (by omega)).1 (hn.regs _ h).1

theorem writePair_plain (r : Reg) (v : Word) (h : r.val + 1 < 32) :
    writePair r v s = .ok ((), { s with
      mem := (s.mem.set r.val (lowByte v)).set (r.val + 1) (highByte v) }) := by
  unfold writePair
  rw [show Config.regBase + r.val = r.val by simp [Config.regBase]]
  exact memWrite16_unhooked (params_reg_lt hp h) (hn.regs _ (by omega)).2 (hn.regs _ h).2

theorem readPointer_plain (q : Pointer) : readPointer q s = .ok (s.ptr q, s) := by
  have h := (pointerAddr_bounds hp q).1
  exact memRead16_unhooked (params_reg_lt hp h) (hn.regs _ (by omega)).1 (hn.regs _ h).1

theorem writePointer_plain (q : Pointer) (v : Word) :
    writePointer q v s = .ok ((), { s with
      mem := (s.mem.set (pointerAddr s.params q) (lowByte v)).set (pointerAddr s.params q + 1)
        (highByte v) }) := by
  have h := (pointerAddr_bounds hp q).1
  exact memWrite16_unhooked (params_reg_lt hp h) (hn.regs _ (by omega)).2 (hn.regs _ h).2

theorem readSreg_plain : readSreg s = .ok (s.mem.get s.params.sregAddr, s) :=
  memRead_unhooked hp.2.2.1 hn.sreg.1

theorem writeSreg_plain (v : Byte) :
    writeSreg v s = .ok ((), { s with mem := s.mem.set s.params.sregAddr v }) :=
  memWrite_unhooked hp.2.2.1 hn.sreg.2

theorem readFlag_plain (k : BitIx) :
    readFlag k s = .ok (bitOf (s.mem.get s.params.sregAddr) k, s) := by
  unfold readFlag
  rw [act_bind_ok (readSreg_plain hp hn)]
  rfl

theorem writeFlag_plain (k : BitIx) (b : Bool) :
    writeFlag k b s = .ok ((), { s with
      mem := s.mem.set s.params.sregAddr (withBit (s.mem.get s.params.sregAddr) k b) }) := by
  unfold writeFlag
  rw [act_bind_ok (readSreg_plain hp hn)]
  exact writeSreg_plain hp hn _

theorem updateFlags_plain (ws : FlagWrites) :
    updateFlags ws s = .ok ((), { s with
      mem := s.mem.set s.params.sregAddr (withFlags (s.mem.get s.params.sregAddr) ws) }) := by
  unfold updateFlags
  rw [act_bind_ok (readSreg_plain hp hn)]
  exact writeSreg_plain hp hn _

theorem readSp_plain : readSp s = .ok (s.sp, s) :=
  memRead16_unhooked hp.2.2.2.1 hn.spLow.1 hn.spHigh.1

theorem writeSp_plain (v : Word) :
    writeSp v s = .ok ((), { s with
      mem := (s.mem.set s.params.spAddr (lowByte v)).set (s.params.spAddr + 1) (highByte v) }) :=
  memWrite16_unhooked hp.2.2.2.1 hn.spLow.2 hn.spHigh.2

/-- One push: `SP` first, then the byte at the new `SP` (R139). -/
theorem push8_plain (v : Byte) (ha : (s.sp - 1).toNat < s.params.dataSize)
    (hh : hookAt s.wrHooks (s.sp - 1).toNat = none) :
    push8 v s = .ok ((), { s with
      mem := ((s.mem.set s.params.spAddr (lowByte (s.sp - 1))).set (s.params.spAddr + 1)
        (highByte (s.sp - 1))).set (s.sp - 1).toNat v }) := by
  unfold push8
  rw [act_bind_ok (readSp_plain hp hn), act_bind_ok (writeSp_plain hp hn _)]
  exact memWrite_unhooked ha hh

/-- One pop: the byte at `SP`, then `SP` (R140). -/
theorem pop8_plain (ha : s.sp.toNat < s.params.dataSize) (hh : hookAt s.rdHooks s.sp.toNat = none) :
    pop8 s = .ok (s.mem.get s.sp.toNat, { s with
      mem := (s.mem.set s.params.spAddr (lowByte (s.sp + 1))).set (s.params.spAddr + 1)
        (highByte (s.sp + 1)) }) := by
  unfold pop8
  rw [act_bind_ok (readSp_plain hp hn), act_bind_ok (memRead_unhooked ha hh),
    act_bind_ok (writeSp_plain hp hn _)]
  rfl

end CoreLocations

/-! ## What an operation can do at all -/

/-- What a part of a step may do to the state, whatever the hooks do: the configuration, `total`, the
fault latch and the number of vectors stay, and the invariant is kept (R20, R68, R137). -/
structure Evolves (s t : State) : Prop where
  unit : SameUnit s t
  total : t.total = s.total
  halted : t.halted = s.halted
  vectors : t.pend.length = s.pend.length
  inv : s.Inv → t.Inv

theorem Evolves.refl (s : State) : Evolves s s := ⟨.refl s, rfl, rfl, rfl, id⟩

theorem Evolves.trans {s t u : State} (h : Evolves s t) (g : Evolves t u) : Evolves s u :=
  ⟨h.unit.trans g.unit, g.total.trans h.total, g.halted.trans h.halted, g.vectors.trans h.vectors,
    fun i => g.inv (h.inv i)⟩

theorem pendActs_length : ∀ (l : List IrqAct) (pend : List Bool), (pendActs pend l).length = pend.length
  | [], _ => rfl
  | .raise v :: rest, pend => by simp [pendActs, pendActs_length rest, pendRaise]
  | .clear v :: rest, pend => by simp [pendActs, pendActs_length rest, pendClear]

/-- A peripheral function changes `plat`, `B` and `pend` only, and keeps the invariant (R68, R332). -/
theorem applyOut_evolves (o : HookOut) (s : State) : Evolves s (applyOut o s) :=
  ⟨⟨rfl, rfl, rfl, rfl, rfl, rfl⟩, rfl, rfl, pendActs_length _ _, fun i =>
    ⟨i.params, memory_wf_pokes _ _ i.memWf, memory_below_pokes _ _ i.memBelow⟩⟩

theorem setMem_evolves (s : State) {a : Nat} (v : Byte) (ha : a < s.params.dataSize) :
    Evolves s { s with mem := s.mem.set a v } :=
  ⟨⟨rfl, rfl, rfl, rfl, rfl, rfl⟩, rfl, rfl, rfl, fun i =>
    ⟨i.params, memory_wf_set _ _ i.memWf, memory_below_set _ ha i.memBelow⟩⟩

/-- Every success of the operation relates the state before to the state after. -/
def Keeps (R : State → State → Prop) {α : Type} (m : Act α) : Prop := ∀ s a t, m s = .ok (a, t) → R s t

/-- A relation that every data access keeps: a store inside the data space and the effect of a hook. -/
structure MemoryLike (R : State → State → Prop) : Prop where
  refl : ∀ s, R s s
  trans : ∀ {s t u}, R s t → R t u → R s u
  set : ∀ s a v, a < s.params.dataSize → R s { s with mem := s.mem.set a v }
  hook : ∀ s a h i, hookAt s.rdHooks a = some h ∨ hookAt s.wrHooks a = some h →
    R s (applyOut (behaviourOut h i) s)

/-- A relation that also every write of `pc` keeps. -/
structure PcLike (R : State → State → Prop) : Prop extends MemoryLike R where
  pc : ∀ s p, R s { s with pc := p }

section Keeping

variable {R : State → State → Prop} (hR : MemoryLike R)
include hR

theorem keeps_pure {α : Type} (a : α) : Keeps R (pure a : Act α) := by
  rintro s b t h
  cases h
  exact hR.refl s

theorem keeps_bind {α β : Type} {m : Act α} {f : α → Act β} (hm : Keeps R m)
    (hf : ∀ a, Keeps R (f a)) : Keeps R (m >>= f) := by
  intro s b t h
  obtain ⟨a, s', h1, h2⟩ := act_bind_eq_ok h
  exact hR.trans (hm _ _ _ h1) (hf a _ _ _ h2)

theorem keeps_memRead (a : Nat) : Keeps R (memRead a) := by
  intro s v t h
  unfold memRead at h
  split at h
  · split at h <;> cases h
    · exact hR.refl s
    · exact hR.hook s a _ _ (.inl (by assumption))
  · cases h

theorem keeps_memWrite (a : Nat) (v : Byte) : Keeps R (memWrite a v) := by
  intro s u t h
  unfold memWrite at h
  split at h
  · rename_i ha
    split at h <;> cases h
    · exact hR.set s a v ha
    · exact hR.hook s a _ _ (.inr (by assumption))
  · cases h

theorem keeps_fetch (i : Word) : Keeps R (fetch i) := by
  intro s w t h
  unfold fetch at h
  split at h <;> cases h
  exact hR.refl s

theorem keeps_getPc : Keeps R getPc := by
  rintro s p t h; cases h; exact hR.refl s

theorem keeps_memRead16 (a : Nat) : Keeps R (memRead16 a) :=
  keeps_bind hR (keeps_memRead hR _) fun _ =>
    keeps_bind hR (keeps_memRead hR _) fun _ => keeps_pure hR _

theorem keeps_memWrite16 (a : Nat) (v : Word) : Keeps R (memWrite16 a v) :=
  keeps_bind hR (keeps_memWrite hR _ _) fun _ => keeps_memWrite hR _ _

theorem keeps_programByte (z : Word) : Keeps R (programByte z) :=
  keeps_bind hR (keeps_fetch hR _) fun _ => keeps_pure hR _

theorem keeps_readReg (r : Reg) : Keeps R (readReg r) := keeps_memRead hR _
theorem keeps_writeReg (r : Reg) (v : Byte) : Keeps R (writeReg r v) := keeps_memWrite hR _ _
theorem keeps_readPair (r : Reg) : Keeps R (readPair r) := keeps_memRead16 hR _
theorem keeps_writePair (r : Reg) (v : Word) : Keeps R (writePair r v) :=
  keeps_memWrite16 hR _ _
theorem keeps_readPointer (p : Pointer) : Keeps R (readPointer p) :=
  fun s => keeps_memRead16 hR _ s
theorem keeps_writePointer (p : Pointer) (v : Word) : Keeps R (writePointer p v) :=
  fun s => keeps_memWrite16 hR _ _ s
theorem keeps_readSreg : Keeps R readSreg := fun s => keeps_memRead hR _ s
theorem keeps_writeSreg (v : Byte) : Keeps R (writeSreg v) := fun s => keeps_memWrite hR _ _ s
theorem keeps_readIo (a : Nat) : Keeps R (readIo a) := fun s => keeps_memRead hR _ s
theorem keeps_writeIo (a : Nat) (v : Byte) : Keeps R (writeIo a v) :=
  fun s => keeps_memWrite hR _ _ s
theorem keeps_readSp : Keeps R readSp := fun s => keeps_memRead16 hR _ s
theorem keeps_writeSp (v : Word) : Keeps R (writeSp v) := fun s => keeps_memWrite16 hR _ _ s

theorem keeps_readFlag (k : BitIx) : Keeps R (readFlag k) :=
  keeps_bind hR (keeps_readSreg hR) fun _ => keeps_pure hR _

theorem keeps_writeFlag (k : BitIx) (b : Bool) : Keeps R (writeFlag k b) :=
  keeps_bind hR (keeps_readSreg hR) fun _ => keeps_writeSreg hR _

theorem keeps_updateFlags (ws : FlagWrites) : Keeps R (updateFlags ws) :=
  keeps_bind hR (keeps_readSreg hR) fun _ => keeps_writeSreg hR _

theorem keeps_push8 (v : Byte) : Keeps R (push8 v) :=
  keeps_bind hR (keeps_readSp hR) fun _ =>
    keeps_bind hR (keeps_writeSp hR _) fun _ => keeps_memWrite hR _ _

theorem keeps_pop8 : Keeps R pop8 :=
  keeps_bind hR (keeps_readSp hR) fun _ =>
    keeps_bind hR (keeps_memRead hR _) fun _ =>
      keeps_bind hR (keeps_writeSp hR _) fun _ => keeps_pure hR _

theorem keeps_pushPc (p : Word) : Keeps R (pushPc p) :=
  keeps_bind hR (keeps_push8 hR _) fun _ => keeps_push8 hR _

theorem keeps_popPc : Keeps R popPc :=
  keeps_bind hR (keeps_pop8 hR) fun _ => keeps_bind hR (keeps_pop8 hR) fun _ => keeps_pure hR _

omit hR in
theorem keeps_raiseFault {α : Type} (f : Fault) : Keeps R (raiseFault f : Act α) := by
  rintro s a t h; cases h

end Keeping

section KeepingPc

variable {R : State → State → Prop} (hP : PcLike R)
include hP

theorem keeps_setPc (p : Word) : Keeps R (setPc p) := by
  rintro s u t h; cases h
  exact hP.pc _ _

theorem keeps_jumpBy (p : Word) : Keeps R (jumpBy p) := by
  rintro s u t h; cases h
  exact hP.pc _ _

theorem keeps_returnFromInterrupt : Keeps R returnFromInterrupt :=
  keeps_bind hP.toMemoryLike (keeps_popPc hP.toMemoryLike) fun _ =>
    keeps_bind hP.toMemoryLike (keeps_setPc hP _) fun _ => keeps_writeFlag hP.toMemoryLike _ _

end KeepingPc

theorem evolves_pcLike : PcLike Evolves where
  refl := .refl
  trans := .trans
  set s _ v ha := setMem_evolves s v ha
  hook s _ _ _ _ := applyOut_evolves _ s
  pc _ _ := ⟨⟨rfl, rfl, rfl, rfl, rfl, rfl⟩, rfl, rfl, rfl, fun i => ⟨i.params, i.memWf, i.memBelow⟩⟩

theorem takeInterrupt_evolves (v : Nat) : Keeps Evolves (takeInterrupt v) :=
  have hP := evolves_pcLike
  have hR := hP.toMemoryLike
  keeps_bind hR (keeps_getPc hR) fun _ =>
    keeps_bind hR (keeps_pushPc hR _) fun _ =>
      keeps_bind hR (keeps_setPc hP _) fun _ =>
        keeps_bind hR (by
          rintro s u t h; cases h
          exact ⟨⟨rfl, rfl, rfl, rfl, rfl, rfl⟩, rfl, rfl, by simp [pendClear],
            fun i => ⟨i.params, i.memWf, i.memBelow⟩⟩) fun _ =>
          keeps_bind hR (keeps_writeFlag hR _ _) fun _ => by
            rintro s u t h; cases h
            exact ⟨⟨rfl, rfl, rfl, rfl, rfl, rfl⟩, rfl, rfl, rfl, fun i => ⟨i.params, i.memWf, i.memBelow⟩⟩

/-- What a handler's next state is: its effects, then the number it returned in `wait`. -/
theorem runHandler_eq_next {h : Act Nat} {s t : State} (e : runHandler h s = .next t) :
    ∃ k s', h s = .ok (k, s') ∧ t = { s' with wait := k } := by
  unfold runHandler at e
  split at e
  · rename_i k s' hk
    cases e
    exact ⟨k, s', hk, rfl⟩
  · cases e

theorem runHandler_ok {h : Act Nat} {s s' : State} {k : Nat} (e : h s = .ok (k, s')) :
    runHandler h s = .next { s' with wait := k } := by simp [runHandler, e]

theorem runHandler_error {h : Act Nat} {s : State} {f : Fault} (e : h s = .error f) :
    runHandler h s = .fault f := by simp [runHandler, e]

end Sys2Proof.Machine
end

