-- ==== Sys2Proof/Laws/Operands.lean ====
section
/-! SUPPORT. The operand forms: what each answers under `NoCoreHooks`, as one update of memory, and what
every handler keeps, whatever the hooks do. -/

namespace Sys2Proof.Machine

/-! ## Register operations under `NoCoreHooks` -/

section Plain

variable {s : State} (hs : s.Plain)
include hs

/-- A register write does not reach `SREG`. -/
theorem sreg_after_reg (d : Reg) (R : Byte) :
    (s.mem.set d.val R).get s.params.sregAddr = s.sreg := by
  have := hs.inv.params.2.2.2.2.1
  exact memory_get_set_other hs.inv.memWf R (by have := d.isLt; omega)

/-- Writing a register and then the flags. -/
theorem writeReg_flags_plain (d : Reg) (R : Byte) (ws : FlagWrites) (k : Nat) :
    (do writeReg d R; updateFlags ws; return k : Act Nat) s = .ok (k, { s with
      mem := (s.mem.set d.val R).set s.params.sregAddr (withFlags s.sreg ws) }) := by
  rw [act_bind_ok (writeReg_plain hs.inv.params hs.noHooks d R),
    act_bind_ok (updateFlags_plain (s := { s with mem := s.mem.set d.val R }) hs.inv.params hs.noHooks ws)]
  simp only [sreg_after_reg hs]
  rfl

/-- Writing a register and then `SREG`. -/
theorem writeReg_sreg_plain (d : Reg) (R v : Byte) (k : Nat) :
    (do writeReg d R; writeSreg v; return k : Act Nat) s = .ok (k, { s with
      mem := (s.mem.set d.val R).set s.params.sregAddr v }) := by
  rw [act_bind_ok (writeReg_plain hs.inv.params hs.noHooks d R),
    act_bind_ok (writeSreg_plain (s := { s with mem := s.mem.set d.val R }) hs.inv.params hs.noHooks v)]
  rfl

theorem aluRR_plain (d r : Reg) (f : Byte → Byte → Byte) (fl : Byte → Byte → Byte → FlagWrites) :
    aluRR d r f fl s = .ok (1, { s with
      mem := (s.mem.set d.val (f (s.reg d) (s.reg r))).set s.params.sregAddr
        (withFlags s.sreg (fl (s.reg d) (s.reg r) (f (s.reg d) (s.reg r)))) }) := by
  unfold aluRR
  rw [act_bind_ok (readReg_plain hs.inv.params hs.noHooks d),
    act_bind_ok (readReg_plain hs.inv.params hs.noHooks r)]
  exact writeReg_flags_plain hs d _ _ 1

theorem aluRI_plain (d : Reg) (k : Byte) (f : Byte → Byte → Byte) (fl : Byte → Byte → Byte → FlagWrites) :
    aluRI d k f fl s = .ok (1, { s with
      mem := (s.mem.set d.val (f (s.reg d) k)).set s.params.sregAddr
        (withFlags s.sreg (fl (s.reg d) k (f (s.reg d) k))) }) := by
  unfold aluRI
  rw [act_bind_ok (readReg_plain hs.inv.params hs.noHooks d)]
  exact writeReg_flags_plain hs d _ _ 1

theorem aluD_plain (d : Reg) (f : Byte → Byte) (fl : Byte → Byte → FlagWrites) :
    aluD d f fl s = .ok (1, { s with
      mem := (s.mem.set d.val (f (s.reg d))).set s.params.sregAddr
        (withFlags s.sreg (fl (s.reg d) (f (s.reg d)))) }) := by
  unfold aluD
  rw [act_bind_ok (readReg_plain hs.inv.params hs.noHooks d)]
  exact writeReg_flags_plain hs d _ _ 1

theorem sbcWith_plain (d : Reg) (a b : Byte) :
    sbcWith d a b s = .ok (1, { s with
      mem := (s.mem.set d.val (subKeep s.sreg a b).1).set s.params.sregAddr
        (withFlags s.sreg (subKeep s.sreg a b).2) }) := by
  unfold sbcWith
  rw [act_bind_ok (readSreg_plain hs.inv.params hs.noHooks)]
  exact writeReg_sreg_plain hs d _ _ 1

/-- Writing a register pair and then the flags. -/
theorem writePair_flags_plain (d : Reg) (hd : d.val + 1 < 32) (R : Word) (ws : FlagWrites) (k : Nat) :
    (do writePair d R; updateFlags ws; return k : Act Nat) s = .ok (k, { s with
      mem := ((s.mem.set d.val (lowByte R)).set (d.val + 1) (highByte R)).set s.params.sregAddr
        (withFlags s.sreg ws) }) := by
  have h32 := hs.inv.params.2.2.2.2.1
  rw [act_bind_ok (writePair_plain hs.inv.params hs.noHooks d R hd),
    act_bind_ok (updateFlags_plain
      (s := { s with mem := (s.mem.set d.val (lowByte R)).set (d.val + 1) (highByte R) })
      hs.inv.params hs.noHooks ws)]
  simp only []
  rw [memory_get_set_other (memory_wf_set _ _ hs.inv.memWf) _ (by omega),
    memory_get_set_other hs.inv.memWf _ (by omega)]
  rfl

theorem aluPair_plain (d : Reg) (hd : d.val + 1 < 32) (k : BitVec 6) (f : Word → Word → Word)
    (fl : Word → Word → FlagWrites) :
    aluPair d k f fl s = .ok (2, { s with
      mem := ((s.mem.set d.val (lowByte (f (s.word d.val) (k.zeroExtend 16)))).set (d.val + 1)
        (highByte (f (s.word d.val) (k.zeroExtend 16)))).set s.params.sregAddr
        (withFlags s.sreg (fl (s.word d.val) (f (s.word d.val) (k.zeroExtend 16)))) }) := by
  unfold aluPair
  rw [act_bind_ok (readPair_plain hs.inv.params hs.noHooks d hd)]
  exact writePair_flags_plain hs d hd _ _ 2

theorem multiply_plain (d r : Reg) (product : Byte → Byte → Word) (shift : Nat) :
    multiply d r product shift s = .ok (2, { s with
      mem := ((s.mem.set 0 (lowByte (product (s.reg d) (s.reg r) <<< shift))).set 1
        (highByte (product (s.reg d) (s.reg r) <<< shift))).set s.params.sregAddr
        (withFlags s.sreg (mulFlags (product (s.reg d) (s.reg r))
          (product (s.reg d) (s.reg r) <<< shift))) }) := by
  unfold multiply
  rw [act_bind_ok (readReg_plain hs.inv.params hs.noHooks d),
    act_bind_ok (readReg_plain hs.inv.params hs.noHooks r)]
  exact writePair_flags_plain hs 0 (by decide) _ _ 2

end Plain

/-! ## Single accesses, hooked or not -/

/-- An access inside the data space answers. -/
theorem memRead_readAt {a : Nat} {s : State} (ha : a < s.params.dataSize) : ∃ v u, ReadAt s a v u := by
  cases hh : hookAt s.rdHooks a with
  | none => exact ⟨_, _, memRead_unhooked ha hh, ⟨rfl, rfl, rfl, rfl, .refl s⟩, fun _ => ⟨rfl, rfl⟩⟩
  | some h =>
    refine ⟨_, applyOut (behaviourOut h (hookIn s a 0)) s, by simp only [memRead, ha, hh, if_true]; rfl, ⟨rfl, rfl, rfl, rfl, ⟨rfl, rfl, rfl, rfl, rfl, rfl⟩⟩, ?_⟩
    simp [hh]

theorem memWrite_writeAt {a : Nat} {v : Byte} {s : State} (hi : s.Inv) (ha : a < s.params.dataSize) :
    ∃ u, WriteAt s a v u := by
  cases hh : hookAt s.wrHooks a with
  | none =>
    exact ⟨_, memWrite_unhooked ha hh, ⟨rfl, rfl, rfl, rfl, ⟨rfl, rfl, rfl, rfl, rfl, rfl⟩⟩, fun _ =>
      ⟨fun x => memory_get_set hi.memWf a v x, rfl, rfl, rfl, rfl, rfl, rfl, ⟨rfl, rfl, rfl, rfl, rfl, rfl⟩⟩⟩
  | some h =>
    refine ⟨applyOut (behaviourOut h (hookIn s a v)) s, by simp only [memWrite, ha, hh, if_true], ⟨rfl, rfl, rfl, rfl, ⟨rfl, rfl, rfl, rfl, rfl, rfl⟩⟩, ?_⟩
    simp [hh]

/-- A read keeps the invariant and the absence of core hooks. -/
theorem ReadAt.plain {a : Nat} {v : Byte} {s u : State} (h : ReadAt s a v u) (hs : s.Plain) : u.Plain := by
  have e := keeps_memRead evolves_pcLike.toMemoryLike a _ _ _ h.access
  refine ⟨e.inv hs.inv, ?_⟩
  have k := h.keeps.unit
  simpa only [State.NoCoreHooks, k.params, k.rdHooks, k.wrHooks] using hs.noHooks

theorem WriteAt.plain {a : Nat} {v : Byte} {s u : State} (h : WriteAt s a v u) (hs : s.Plain) :
    u.Plain := by
  have e := keeps_memWrite evolves_pcLike.toMemoryLike a v _ _ _ h.access
  refine ⟨e.inv hs.inv, ?_⟩
  have k := h.keeps.unit
  simpa only [State.NoCoreHooks, k.params, k.rdHooks, k.wrHooks] using hs.noHooks

/-! ## Every operand form keeps what its accesses keep -/

section Keeping

variable {R : State → State → Prop} (hR : MemoryLike R)
include hR

theorem keeps_aluRR (d r : Reg) (f : Byte → Byte → Byte) (fl : Byte → Byte → Byte → FlagWrites) :
    Keeps R (aluRR d r f fl) :=
  keeps_bind hR (keeps_readReg hR _) fun _ => keeps_bind hR (keeps_readReg hR _) fun _ =>
    keeps_bind hR (keeps_writeReg hR _ _) fun _ => keeps_bind hR (keeps_updateFlags hR _) fun _ =>
      keeps_pure hR _

theorem keeps_aluRI (d : Reg) (k : Byte) (f : Byte → Byte → Byte)
    (fl : Byte → Byte → Byte → FlagWrites) : Keeps R (aluRI d k f fl) :=
  keeps_bind hR (keeps_readReg hR _) fun _ =>
    keeps_bind hR (keeps_writeReg hR _ _) fun _ => keeps_bind hR (keeps_updateFlags hR _) fun _ =>
      keeps_pure hR _

theorem keeps_aluD (d : Reg) (f : Byte → Byte) (fl : Byte → Byte → FlagWrites) :
    Keeps R (aluD d f fl) :=
  keeps_bind hR (keeps_readReg hR _) fun _ =>
    keeps_bind hR (keeps_writeReg hR _ _) fun _ => keeps_bind hR (keeps_updateFlags hR _) fun _ =>
      keeps_pure hR _

theorem keeps_sbcWith (d : Reg) (a b : Byte) : Keeps R (sbcWith d a b) :=
  keeps_bind hR (keeps_readSreg hR) fun _ =>
    keeps_bind hR (keeps_writeReg hR _ _) fun _ => keeps_bind hR (keeps_writeSreg hR _) fun _ =>
      keeps_pure hR _

theorem keeps_aluPair (d : Reg) (k : BitVec 6) (f : Word → Word → Word)
    (fl : Word → Word → FlagWrites) : Keeps R (aluPair d k f fl) :=
  keeps_bind hR (keeps_readPair hR _) fun _ =>
    keeps_bind hR (keeps_writePair hR _ _) fun _ => keeps_bind hR (keeps_updateFlags hR _) fun _ =>
      keeps_pure hR _

theorem keeps_multiply (d r : Reg) (product : Byte → Byte → Word) (shift : Nat) :
    Keeps R (multiply d r product shift) :=
  keeps_bind hR (keeps_readReg hR _) fun _ => keeps_bind hR (keeps_readReg hR _) fun _ =>
    keeps_bind hR (keeps_writePair hR _ _) fun _ => keeps_bind hR (keeps_updateFlags hR _) fun _ =>
      keeps_pure hR _

theorem keeps_loadIndirect (d : Reg) (p : Pointer) : Keeps R (loadIndirect d p) :=
  keeps_bind hR (keeps_readPointer hR _) fun _ => keeps_bind hR (keeps_memRead hR _) fun _ =>
    keeps_bind hR (keeps_writeReg hR _ _) fun _ => keeps_pure hR _

theorem keeps_loadPostInc (d : Reg) (p : Pointer) : Keeps R (loadPostInc d p) :=
  keeps_bind hR (keeps_readPointer hR _) fun _ => keeps_bind hR (keeps_memRead hR _) fun _ =>
    keeps_bind hR (keeps_writeReg hR _ _) fun _ =>
      keeps_bind hR (keeps_writePointer hR _ _) fun _ => keeps_pure hR _

theorem keeps_loadPreDec (d : Reg) (p : Pointer) : Keeps R (loadPreDec d p) :=
  keeps_bind hR (keeps_readPointer hR _) fun _ => keeps_bind hR (keeps_writePointer hR _ _) fun _ =>
    keeps_bind hR (keeps_memRead hR _) fun _ =>
      keeps_bind hR (keeps_writeReg hR _ _) fun _ => keeps_pure hR _

theorem keeps_loadDisp (d : Reg) (p : Pointer) (q : BitVec 6) : Keeps R (loadDisp d p q) :=
  keeps_bind hR (keeps_readPointer hR _) fun _ => keeps_bind hR (keeps_memRead hR _) fun _ =>
    keeps_bind hR (keeps_writeReg hR _ _) fun _ => keeps_pure hR _

theorem keeps_storeIndirect (p : Pointer) (r : Reg) : Keeps R (storeIndirect p r) :=
  keeps_bind hR (keeps_readPointer hR _) fun _ => keeps_bind hR (keeps_readReg hR _) fun _ =>
    keeps_bind hR (keeps_memWrite hR _ _) fun _ => keeps_pure hR _

theorem keeps_storePostInc (p : Pointer) (r : Reg) : Keeps R (storePostInc p r) :=
  keeps_bind hR (keeps_readPointer hR _) fun _ => keeps_bind hR (keeps_readReg hR _) fun _ =>
    keeps_bind hR (keeps_memWrite hR _ _) fun _ =>
      keeps_bind hR (keeps_writePointer hR _ _) fun _ => keeps_pure hR _

theorem keeps_storePreDec (p : Pointer) (r : Reg) : Keeps R (storePreDec p r) :=
  keeps_bind hR (keeps_readPointer hR _) fun _ => keeps_bind hR (keeps_writePointer hR _ _) fun _ =>
    keeps_bind hR (keeps_readReg hR _) fun _ =>
      keeps_bind hR (keeps_memWrite hR _ _) fun _ => keeps_pure hR _

theorem keeps_storeDisp (p : Pointer) (q : BitVec 6) (r : Reg) : Keeps R (storeDisp p q r) :=
  keeps_bind hR (keeps_readPointer hR _) fun _ => keeps_bind hR (keeps_readReg hR _) fun _ =>
    keeps_bind hR (keeps_memWrite hR _ _) fun _ => keeps_pure hR _

theorem keeps_loadProgram (d : Reg) : Keeps R (loadProgram d) :=
  keeps_bind hR (keeps_readPointer hR _) fun _ => keeps_bind hR (keeps_programByte hR _) fun _ =>
    keeps_bind hR (keeps_writeReg hR _ _) fun _ => keeps_pure hR _

theorem keeps_loadProgramPostInc (d : Reg) : Keeps R (loadProgramPostInc d) :=
  keeps_bind hR (keeps_readPointer hR _) fun _ => keeps_bind hR (keeps_programByte hR _) fun _ =>
    keeps_bind hR (keeps_writeReg hR _ _) fun _ =>
      keeps_bind hR (keeps_writePointer hR _ _) fun _ => keeps_pure hR _

theorem keeps_refusedOpcode (op : Word) : Keeps R (refusedOpcode op) :=
  keeps_bind hR (keeps_getPc hR) fun _ => keeps_raiseFault _

end Keeping

section KeepingPc

variable {R : State → State → Prop} (hP : PcLike R)
include hP

theorem keeps_skipNext : Keeps R skipNext := by
  refine keeps_bind hP.toMemoryLike (keeps_getPc hP.toMemoryLike) fun _ => keeps_bind hP.toMemoryLike (keeps_fetch hP.toMemoryLike _) fun n => ?_
  split
  · exact keeps_bind hP.toMemoryLike (keeps_setPc hP _) fun _ => keeps_pure hP.toMemoryLike _
  · exact keeps_bind hP.toMemoryLike (keeps_setPc hP _) fun _ => keeps_pure hP.toMemoryLike _

theorem keeps_skipIf (c : Bool) : Keeps R (skipIf c) := by
  unfold skipIf
  split
  · exact keeps_skipNext hP
  · exact keeps_pure hP.toMemoryLike _

theorem keeps_branchIf (c : Bool) (k : BitVec 7) : Keeps R (branchIf c k) := by
  unfold branchIf
  split
  · exact keeps_bind hP.toMemoryLike (keeps_jumpBy hP _) fun _ => keeps_pure hP.toMemoryLike _
  · exact keeps_pure hP.toMemoryLike _

end KeepingPc

end Sys2Proof.Machine
end

