-- ==== Sys2Proof/Laws/Exec.lean ====
section
/-! SUPPORT. What a handler keeps: one lemma for all handlers, and one for those that do not write `pc`.
An invariant, a frame or a rule about all instructions is an instance of these. -/

namespace Sys2Proof.Machine

theorem runHandler_keeps {R : State → State → Prop} (hR : MemoryLike R)
    (hw : ∀ s k, R s { s with wait := k }) {h : Act Nat} (hk : Keeps R h) {s t : State}
    (e : runHandler h s = .next t) : R s t := by
  obtain ⟨k, s', hs, rfl⟩ := runHandler_eq_next e
  exact hR.trans (hk _ _ _ hs) (hw _ _)

/-- A handler that does not write `pc` keeps every relation that its data accesses keep. -/
theorem exec_keeps_memoryLike {R : State → State → Prop} (hR : MemoryLike R)
    (hw : ∀ s k, R s { s with wait := k }) {i : Instr} (hi : movesPc i = false) {s t : State}
    (e : exec i s = .next t) : R s t := by
  cases i <;> first
    | exact Bool.noConfusion hi
    | (simp only [exec, execAdd, execAdc, execSub, execSubi, execSbc, execSbci, execCp, execCpc, execCpi,
        execAnd, execAndi, execOr, execOri, execEor, execCom, execNeg, execInc, execDec,
        execAsr, execLsr, execRor, execSwap, execAdiw, execSbiw, execMul, execMuls, execMulsu,
        execFmul, execFmuls, execFmulsu, execMov, execMovw, execLdi, execLdX, execLdXInc,
        execLdXDec, execLdYInc, execLdYDec, execLddY, execLdZInc, execLdZDec, execLddZ, execStX,
        execStXInc, execStXDec, execStYInc, execStYDec, execStdY, execStZInc, execStZDec,
        execStdZ, execLds, execSts, execPush, execPop, execIn, execOut, execLpm, execLpmZ,
        execLpmZInc, execBset, execBclr, execBst, execBld, execSbi, execCbi, execNop, execWdr,
        execSleep, execBrk, execSpm] at e
       refine runHandler_keeps hR hw ?_ e
       repeat' first
         | with_reducible exact keeps_aluRR hR _ _ _ _ | with_reducible exact keeps_aluRI hR _ _ _ _ | with_reducible exact keeps_aluD hR _ _ _
         | with_reducible exact keeps_sbcWith hR _ _ _ | with_reducible exact keeps_aluPair hR _ _ _ _ | with_reducible exact keeps_multiply hR _ _ _ _
         | with_reducible exact keeps_loadIndirect hR _ _ | with_reducible exact keeps_loadPostInc hR _ _ | with_reducible exact keeps_loadPreDec hR _ _
         | with_reducible exact keeps_loadDisp hR _ _ _ | with_reducible exact keeps_storeIndirect hR _ _
         | with_reducible exact keeps_storePostInc hR _ _ | with_reducible exact keeps_storePreDec hR _ _
         | with_reducible exact keeps_storeDisp hR _ _ _ | with_reducible exact keeps_loadProgram hR _
         | with_reducible exact keeps_loadProgramPostInc hR _ | with_reducible exact keeps_refusedOpcode hR _
         | with_reducible exact keeps_readReg hR _ | with_reducible exact keeps_writeReg hR _ _ | with_reducible exact keeps_readPair hR _
         | with_reducible exact keeps_writePair hR _ _ | with_reducible exact keeps_readSreg hR | with_reducible exact keeps_writeSreg hR _
         | with_reducible exact keeps_updateFlags hR _ | with_reducible exact keeps_readFlag hR _ | with_reducible exact keeps_writeFlag hR _ _
         | with_reducible exact keeps_memRead hR _ | with_reducible exact keeps_memWrite hR _ _ | with_reducible exact keeps_readIo hR _
         | with_reducible exact keeps_writeIo hR _ _ | with_reducible exact keeps_push8 hR _ | with_reducible exact keeps_pop8 hR
         | with_reducible exact keeps_pure hR _ | refine keeps_bind hR ?_ fun _ => ?_)

/-- A handler keeps every relation that data accesses and writes of `pc` keep. -/
theorem exec_keeps_pcLike {R : State → State → Prop} (hP : PcLike R)
    (hw : ∀ s k, R s { s with wait := k }) {i : Instr} {s t : State} (e : exec i s = .next t) :
    R s t := by
  have hR := hP.toMemoryLike
  by_cases hi : movesPc i = false
  · exact exec_keeps_memoryLike hR hw hi e
  · cases i <;> first
      | exact absurd rfl hi
      | (simp only [exec, execRjmp, execJmp, execIjmp, execRcall, execCall, execIcall, execRet, execReti,
        execBrbs, execBrbc, execCpse, execSbrc, execSbrs, execSbic, execSbis] at e
         refine runHandler_keeps hR hw ?_ e
         repeat' first
           | with_reducible exact keeps_skipIf hP _ | with_reducible exact keeps_branchIf hP _ _ | with_reducible exact keeps_returnFromInterrupt hP
           | with_reducible exact keeps_jumpBy hP _ | with_reducible exact keeps_setPc hP _ | with_reducible exact keeps_getPc hR
           | with_reducible exact keeps_readPointer hR _ | with_reducible exact keeps_pushPc hR _ | with_reducible exact keeps_popPc hR
           | with_reducible exact keeps_readReg hR _ | with_reducible exact keeps_readFlag hR _ | with_reducible exact keeps_readIo hR _
           | with_reducible exact keeps_pure hR _ | refine keeps_bind hR ?_ fun _ => ?_)

/-- Every handler keeps the configuration, `total`, the latch, the number of vectors and the invariant. -/
theorem exec_evolves {i : Instr} {s t : State} (e : exec i s = .next t) : Evolves s t :=
  exec_keeps_pcLike evolves_pcLike
    (fun _ _ => ⟨⟨rfl, rfl, rfl, rfl, rfl, rfl⟩, rfl, rfl, rfl, fun i => ⟨i.params, i.memWf, i.memBelow⟩⟩) e

end Sys2Proof.Machine
end

