-- ==== Sys2Proof/Laws/Results.lean ====
section
/-! SUPPORT. From a handler's one update of memory to the frames of Safety: what a register, flag, pair,
word or stack write leaves, and the flag lines of R161 to R163 as they stand in `SREG` afterwards. -/

namespace Sys2Proof.Machine

/-! ## Results of register operations -/

/-- A handler that wrote register `d` and then the flags `ws` (R160). -/
theorem alu_result {s : State} (hs : s.Plain) (d : Reg) (R : Byte) (ws : FlagWrites) (flags : List Flag)
    (hk : ∀ f, f ∉ flags → ∀ b, (f, b) ∉ ws) :
    let t : State := { s with mem := (s.mem.set d.val R).set s.params.sregAddr (withFlags s.sreg ws), wait := 1 }
    AluResult s t d R flags ∧ ∀ f, t.flag f = bitOf (withFlags s.sreg ws) (flagIx f) := by
  intro t
  have h32 := hs.inv.params.2.2.2.2.1
  have hw := hs.inv.memWf
  have hw' := memory_wf_set d.val R hw
  have hd := d.isLt
  have hf : ∀ f, t.flag f = bitOf (withFlags s.sreg ws) (flagIx f) := by
    intro f
    simp only [t, flag_def, memory_get_set_same hw']
  refine ⟨⟨⟨rfl, rfl, rfl, rfl, rfl, rfl, ⟨rfl, rfl, rfl, rfl, rfl, rfl⟩⟩, ?_, ?_, ?_⟩, hf⟩
  · show ((s.mem.set d.val R).set s.params.sregAddr _).get d.val = R
    rw [memory_get_set_other hw' _ (by omega), memory_get_set_same hw]
  · intro a ha
    simp only [List.mem_cons, List.not_mem_nil, or_false, not_or] at ha
    show ((s.mem.set d.val R).set s.params.sregAddr _).get a = s.mem.get a
    rw [memory_get_set_other hw' _ ha.2, memory_get_set_other hw _ ha.1]
  · intro f hfl
    rw [hf f, flag_withFlags_other f ws _ (hk f hfl)]
    rfl

/-- A handler that wrote only the flags `ws`. -/
theorem flag_result {s : State} (hs : s.Plain) (ws : FlagWrites) (flags : List Flag)
    (hk : ∀ f, f ∉ flags → ∀ b, (f, b) ∉ ws) :
    let t : State := { s with mem := s.mem.set s.params.sregAddr (withFlags s.sreg ws), wait := 1 }
    FlagResult s t flags ∧ ∀ f, t.flag f = bitOf (withFlags s.sreg ws) (flagIx f) := by
  intro t
  have hw := hs.inv.memWf
  have hf : ∀ f, t.flag f = bitOf (withFlags s.sreg ws) (flagIx f) := by
    intro f
    simp only [t, flag_def, memory_get_set_same hw]
  refine ⟨⟨⟨rfl, rfl, rfl, rfl, rfl, rfl, ⟨rfl, rfl, rfl, rfl, rfl, rfl⟩⟩, ?_, ?_⟩, hf⟩
  · intro a ha
    simp only [List.mem_cons, List.not_mem_nil, or_false] at ha
    show (s.mem.set s.params.sregAddr _).get a = s.mem.get a
    rw [memory_get_set_other hw _ ha]
  · intro f hfl
    rw [hf f, flag_withFlags_other f ws _ (hk f hfl)]
    rfl

/-- A handler that wrote the pair at `d` and then the flags `ws`. -/
theorem pair_result {s : State} (hs : s.Plain) (d : Nat) (hd : d + 1 < 32) (R : Word) (ws : FlagWrites)
    (flags : List Flag) (hk : ∀ f, f ∉ flags → ∀ b, (f, b) ∉ ws) :
    let t : State := { s with
      mem := ((s.mem.set d (lowByte R)).set (d + 1) (highByte R)).set s.params.sregAddr (withFlags s.sreg ws),
      wait := 2 }
    PairResult s t d R flags ∧ ∀ f, t.flag f = bitOf (withFlags s.sreg ws) (flagIx f) := by
  intro t
  have h32 := hs.inv.params.2.2.2.2.1
  have hw := hs.inv.memWf
  have hw1 := memory_wf_set d (lowByte R) hw
  have hw2 := memory_wf_set (d + 1) (highByte R) hw1
  have hf : ∀ f, t.flag f = bitOf (withFlags s.sreg ws) (flagIx f) := by
    intro f
    simp only [t, flag_def, memory_get_set_same hw2]
  refine ⟨⟨⟨rfl, rfl, rfl, rfl, rfl, rfl, ⟨rfl, rfl, rfl, rfl, rfl, rfl⟩⟩, ?_, ?_, ?_⟩, hf⟩
  · rw [word_def]
    simp only [t]
    rw [memory_get_set_other hw2 _ (by omega), memory_get_set_other hw2 _ (by omega),
      memory_get_set_same hw1, memory_get_set_other hw1 _ (by omega), memory_get_set_same hw, joinBytes_split]
  · intro a ha
    simp only [List.mem_cons, List.not_mem_nil, or_false, not_or] at ha
    simp only [t, State.byte]
    rw [memory_get_set_other hw2 _ ha.2.2, memory_get_set_other hw1 _ ha.2.1, memory_get_set_other hw _ ha.1]
  · intro f hfl
    rw [hf f, flag_withFlags_other f ws _ (hk f hfl)]
    rfl

/-! ## The flags written -/

theorem carryNat_toNat (c : Bool) : carryNat c = c.toNat := by cases c <;> rfl
/-- The carry as a byte. -/
theorem carry_byte (c : Bool) : BitVec.ofNat 8 (carryNat c) = (if c then 1 else 0 : Byte) := by cases c <;> rfl

/-- `addFlags` is R161. -/
theorem add_flags_hold {t : State} (v a b : Byte) (c : Bool) (R : Byte)
    (hf : ∀ f, t.flag f = bitOf (withFlags v (addFlags a b c R)) (flagIx f)) : AddFlagsHold t a b c R := by
  constructor <;> simp only [hf] <;> simp [addFlags, carryNat_toNat, BitVec.msb_eq_getLsbD_last]
  · by_cases h1 : a.toInt + b.toInt + (c.toNat:Int) < -128 <;> simp [h1]
  · rfl

/-- `subFlags` is R162. -/
theorem sub_flags_hold {t : State} (v a b : Byte) (c : Bool) (R : Byte) (z : Option Bool)
    (hf : ∀ f, t.flag f = bitOf (withFlags v (subFlags a b c R z)) (flagIx f)) : SubFlagsHold t a b c R (z.getD true) := by
  constructor <;> simp only [hf] <;> simp [subFlags, carryNat_toNat, BitVec.msb_eq_getLsbD_last]
  · by_cases h1 : a.toInt - b.toInt - (c.toNat:Int) < -128 <;> simp [h1]
    · omega
    · rw [Bool.eq_iff_iff]; simp; omega
  · cases z <;> simp <;> rfl

/-- `logicFlags`, and the part of COM's flags that agrees with it, are R163. -/
theorem logic_flags_hold {t : State} (v R : Byte) (ws) (hws : ws = logicFlags R ∨ ws = comFlags R)
    (hf : ∀ f, t.flag f = bitOf (withFlags v ws) (flagIx f)) : LogicFlagsHold t R := by
  rcases hws with rfl | rfl
  · constructor <;> simp only [hf] <;> simp [logicFlags, BitVec.msb_eq_getLsbD_last]
    rfl
  · constructor <;> simp only [hf] <;> simp [comFlags, BitVec.msb_eq_getLsbD_last]
    rfl

/-- Which flags each computation names: `addFlags` (R164, R165). -/
theorem only_add (a b : Byte) (c : Bool) (R : Byte) : ∀ f, f ∉ arithFlags → ∀ x, (f, x) ∉ addFlags a b c R := by
  intro f hf x
  cases f <;> simp [arithFlags, addFlags] at hf ⊢
theorem only_sub (a b : Byte) (c : Bool) (R : Byte) (z) : ∀ f, f ∉ arithFlags → ∀ x, (f, x) ∉ subFlags a b c R z := by
  intro f hf x
  cases f <;> simp [arithFlags, subFlags] at hf ⊢
theorem only_logic (R : Byte) : ∀ f, f ∉ logicFlagSet → ∀ x, (f, x) ∉ logicFlags R := by
  intro f hf x
  cases f <;> simp [logicFlagSet, logicFlags] at hf ⊢
theorem only_com (R : Byte) : ∀ f, f ∉ shiftFlagSet → ∀ x, (f, x) ∉ comFlags R := by
  intro f hf x
  cases f <;> simp [shiftFlagSet, comFlags] at hf ⊢
theorem only_neg (a R : Byte) : ∀ f, f ∉ arithFlags → ∀ x, (f, x) ∉ negFlags a R := by
  intro f hf x
  cases f <;> simp [arithFlags, negFlags] at hf ⊢
theorem only_step (a R : Byte) : ∀ f, f ∉ logicFlagSet → ∀ x, (f, x) ∉ stepFlags a R := by
  intro f hf x
  cases f <;> simp [logicFlagSet, stepFlags] at hf ⊢
theorem only_shift (a R) : ∀ f, f ∉ shiftFlagSet → ∀ x, (f, x) ∉ shiftFlags a R := by
  intro f hf x
  cases f <;> simp [shiftFlagSet, shiftFlags] at hf ⊢
theorem only_adiw (a R) : ∀ f, f ∉ shiftFlagSet → ∀ x, (f, x) ∉ adiwFlags a R := by
  intro f hf x
  cases f <;> simp [shiftFlagSet, adiwFlags] at hf ⊢
theorem only_sbiw (a R) : ∀ f, f ∉ shiftFlagSet → ∀ x, (f, x) ∉ sbiwFlags a R := by
  intro f hf x
  cases f <;> simp [shiftFlagSet, sbiwFlags] at hf ⊢
theorem only_mul (a R) : ∀ f, f ∉ [Flag.z, Flag.c] → ∀ x, (f, x) ∉ mulFlags a R := by
  intro f hf x
  cases f <;> simp [mulFlags] at hf ⊢

/-! ## Running a handler that updates memory -/

theorem runHandler_mem {h : Act Nat} {s : State} {m : Memory} {k : Nat} (e : h s = .ok (k, { s with mem := m })) :
    runHandler h s = .next { s with mem := m, wait := k } := runHandler_ok e

theorem runHandler_mem_from {h : Act Nat} {s u : State} {m : Memory} {k : Nat} (e : h s = .ok (k, { u with mem := m })) :
    runHandler h s = .next { u with mem := m, wait := k } := runHandler_ok e

/-! ## Words, pointers and the stack -/

/-- The word read where a word was stored. -/
theorem word_of_map {t : State} {b : Nat} {w : Word} {f : Nat → Byte} (h0 : t.byte b = withWord b w f b)
    (h1 : t.byte (b+1) = withWord b w f (b+1)) : t.word b = w := by
  simp [withWord] at h0 h1
  simp only [State.byte] at h0 h1
  simp [word_def, h0, h1]

section Plain

variable {s : State} (hs : s.Plain)
include hs

/-- The bytes after a 16-bit store. -/
theorem writeWord_map (b : Nat) (w : Word) (a : Nat) :
   ((s.mem.set b (lowByte w)).set (b + 1) (highByte w)).get a = withWord b w s.byte a := by
  simp only [State.byte, withWord]
  rw [memory_get_set (memory_wf_set _ _ hs.inv.memWf), memory_get_set hs.inv.memWf]
  by_cases h1 : a = b
  · subst h1; simp
  · simp [h1]

/-- A store keeps the invariant and the absence of core hooks. -/
theorem plain_setMem {a : Nat} (v : Byte) (ha : a < s.params.dataSize) : State.Plain { s with mem := s.mem.set a v } :=
  ⟨(setMem_evolves s v ha).inv hs.inv, hs.noHooks⟩

/-- A handler that wrote register `d` and nothing else. -/
theorem regResult_of (d : Reg) (v : Byte) (k : Nat) : RegResult s { s with mem := s.mem.set d.val v, wait := k } d v k :=
  ⟨⟨rfl, rfl, rfl, rfl, rfl, rfl, rfl, rfl, rfl, rfl, rfl, rfl⟩, memory_get_set_same hs.inv.memWf _ _,
    fun x hx => memory_get_set_other hs.inv.memWf _ (by simpa using hx)⟩

/-- The absence of core hooks is a matter of the configuration only. -/
theorem plain_of_same {u : State} (hi : u.Inv) (h : SameUnit s u) : u.Plain :=
  ⟨hi, by simpa only [State.NoCoreHooks, h.params, h.rdHooks, h.wrHooks] using hs.noHooks⟩

theorem plain_word (b : Nat) (w : Word) (hb : b + 1 < s.params.dataSize) :
   State.Plain { s with mem := (s.mem.set b (lowByte w)).set (b+1) (highByte w) } :=
  plain_setMem (plain_setMem hs (lowByte w) (by omega)) (highByte w) hb

/-- The pointer registers lie in the data space. -/
theorem ptr_in (p : Pointer) : pointerAddr s.params p + 1 < s.params.dataSize :=
  params_reg_lt hs.inv.params (pointerAddr_bounds hs.inv.params p).1

/-- The slot of `SP` lies in the data space. -/
theorem sp_in : s.params.spAddr + 1 < s.params.dataSize := hs.inv.params.2.2.2.1

/-- A 16-bit store, as a frame. -/
theorem onlyMem_word (b : Nat) (w : Word) : OnlyMem s { s with mem := (s.mem.set b (lowByte w)).set (b + 1) (highByte w) } (withWord b w s.byte) :=
  ⟨writeWord_map hs b w, rfl, rfl, rfl, rfl, rfl, rfl, rfl, rfl, rfl, rfl, rfl, rfl⟩

/-- What RET and RETI pop (R141, R217). -/
theorem popPc_plain (hlo : s.sp.toNat < s.params.dataSize) (hhi : (s.sp + 1).toNat < s.params.dataSize)
    (h0 : hookAt s.rdHooks s.sp.toNat = none) (h1 : hookAt s.rdHooks (s.sp + 1).toNat = none) :
    ∃ m, popPc s = .ok (joinBytes (withWord s.params.spAddr (s.sp + 1) s.byte (s.sp + 1).toNat) (s.byte s.sp.toNat), { s with mem := m }) ∧
     ∀ a, m.get a = withWord s.params.spAddr (s.sp + 2) s.byte a := by
  have hm := plain_word hs s.params.spAddr (s.sp + 1) (sp_in hs)
  have hsp : State.sp { s with mem := (s.mem.set s.params.spAddr (lowByte (s.sp + 1))).set (s.params.spAddr + 1) (highByte (s.sp + 1)) } = s.sp + 1 :=
    word_of_map (f := s.byte) (writeWord_map hs _ _ _) (writeWord_map hs _ _ _)
  refine ⟨?m, ?_, ?_⟩
  rotate_left
  · unfold popPc
    rw [act_bind_ok (pop8_plain hs.inv.params hs.noHooks hlo h0)]
    rw [act_bind_ok (pop8_plain (s := { s with mem := (s.mem.set s.params.spAddr (lowByte (s.sp + 1))).set (s.params.spAddr + 1) (highByte (s.sp + 1)) }) hm.inv.params hm.noHooks (by rw [hsp]; exact hhi) (by rw [hsp]; exact h1))]
    simp only [hsp, act_pure]
    rw [writeWord_map hs]
  · intro a
    have := writeWord_map hm s.params.spAddr (s.sp + 1 + 1) a
    refine this.trans ?_
    simp only [withWord, State.byte]
    have e : s.sp + 1 + 1 = s.sp + 2 := by rw [BitVec.add_assoc]; rfl
    rw [e]
    by_cases h : a = s.params.spAddr
    · simp [h]
    · by_cases h' : a = s.params.spAddr + 1
      · simp [h']
      · simp only [h, h', if_false]
        rw [writeWord_map hs]; simp [withWord, h, h']

/-- What a call and an interrupt push on an open stack (R141, R318). -/
theorem pushPc_open (p : Word) (ho : StackOpen s) : ∃ m, pushPc p s = .ok ((), { s with mem := m }) ∧ m.wf = true ∧ m.below s.params.dataSize = true ∧
   ∀ a, m.get a = withReturnAddress s p a := by
  obtain ⟨⟨r1, r2⟩, ⟨k1, k2⟩, hc⟩ := ho
  have hc1 := hc _ (.inl rfl)
  have hc2 := hc _ (.inr rfl)
  have e1 := push8_plain hs.inv.params hs.noHooks (highByte p) r1 k1
  have hm := plain_setMem (plain_word hs s.params.spAddr (s.sp - 1) (sp_in hs)) (highByte p) r1
  have e : s.sp - 1 - 1 = s.sp - 2 := by rw [BitVec.sub_sub]; rfl
  have hsp : State.sp { s with mem := ((s.mem.set s.params.spAddr (lowByte (s.sp - 1))).set (s.params.spAddr + 1) (highByte (s.sp - 1))).set (s.sp - 1).toNat (highByte p) } = s.sp - 1 := by
    refine word_of_map (f := s.byte) ?_ ?_
    · simp only [State.byte]; rw [memory_get_set_other (memory_wf_set _ _ (memory_wf_set _ _ hs.inv.memWf)) _ (Ne.symm hc1.2.1)]
      exact writeWord_map hs _ _ _
    · simp only [State.byte]; rw [memory_get_set_other (memory_wf_set _ _ (memory_wf_set _ _ hs.inv.memWf)) _ (Ne.symm hc1.2.2)]
      exact writeWord_map hs _ _ _
  have e2 := push8_plain (s := { s with mem := ((s.mem.set s.params.spAddr (lowByte (s.sp - 1))).set (s.params.spAddr + 1) (highByte (s.sp - 1))).set (s.sp - 1).toNat (highByte p) }) hm.inv.params hm.noHooks (lowByte p) (by rw [hsp, e]; exact r2) (by rw [hsp, e]; exact k2)
  rw [hsp, e] at e2
  refine ⟨?m, ?_, ?_, ?_, ?_⟩
  rotate_left
  · unfold pushPc
    rw [act_bind_ok e1, e2]
  · exact memory_wf_set _ _ (memory_wf_set _ _ (memory_wf_set _ _ hm.inv.memWf))
  · exact memory_below_set _ r2 (memory_below_set _ (sp_in hm) (memory_below_set _ (Nat.lt_of_succ_lt (sp_in hm)) hm.inv.memBelow))
  · intro a
    have hne : (s.sp - 1).toNat ≠ (s.sp - 2).toNat := by bv_omega
    rw [memory_get_set (memory_wf_set _ _ (memory_wf_set _ _ hm.inv.memWf))]
    have := writeWord_map hm s.params.spAddr (s.sp - 2) a
    simp only at this
    rw [this]
    simp only [withReturnAddress, withWord, State.byte]
    by_cases h1 : a = (s.sp - 1).toNat
    · subst h1
      rw [if_neg hne, if_neg hc1.2.1, if_neg hc1.2.2, if_pos rfl]
      exact memory_get_set_same (memory_wf_set _ _ (memory_wf_set _ _ hs.inv.memWf)) _ _
    · simp only [h1, if_false]
      by_cases h2 : a = (s.sp - 2).toNat
      · simp [h2]
      · simp only [h2, if_false]
        by_cases h : a = s.params.spAddr
        · simp [h]
        · by_cases h' : a = s.params.spAddr + 1
          · simp [h']
          · simp only [h, h', if_false]
            rw [memory_get_set_other (memory_wf_set _ _ (memory_wf_set _ _ hs.inv.memWf)) _ h1]
            rw [writeWord_map hs]; simp [withWord, h, h']
end Plain

end Sys2Proof.Machine
end

