-- ==== Sys2Proof/Laws/Forms.lean ====
section
/-! SUPPORT. What the operand forms of Machine/Operands.lean do as handlers: the addressing modes with and
without a pointer update, the skips and the branches, each once for all instructions of its shape. -/

namespace Sys2Proof.Machine

/-- A handler that moved `pc` and nothing else. -/
theorem runHandler_pc_from {h : Act Nat} {s u : State} {p : Word} {k : Nat} (e : h s = .ok (k, { u with pc := p })) :
    runHandler h s = .next { u with pc := p, wait := k } := runHandler_ok e

theorem ran_pc (u : State) (p : Word) (k : Nat) : Ran u { u with pc := p, wait := k } p k :=
  ⟨rfl, rfl, rfl, rfl, rfl, rfl, rfl, rfl, rfl, rfl, rfl, rfl⟩

/-- What a skip with condition `c` does (R146). -/
theorem skipIf_runs (u : State) (c : Bool) (taken : Prop) (h : taken ↔ c = true) :
    SkipRuns u (runHandler (skipIf c) u) taken := by
  have step : ∀ n, progWord u u.pc = some n → skipNext u =
      if isTwoWord n then .ok (3, { u with pc := u.pc + 2 }) else .ok (2, { u with pc := u.pc + 1 }) := by
    intro n hn
    unfold skipNext
    rw [act_bind_ok (getPc_apply u), act_bind_ok (fetch_inside hn)]
    cases isTwoWord n <;> rfl
  refine ⟨fun hc => ?_, fun n hc hn h2 => ?_, fun n hc hn h2 => ?_, fun hc hn => ?_⟩
  · have : c = false := by cases c; rfl; exact absurd (h.2 rfl) hc
    subst this
    exact ⟨_, rfl, ran_pc u u.pc 1, fun _ _ => rfl⟩
  · rw [h.1 hc]
    exact ⟨_, runHandler_pc_from (u := u) (by simpa [skipIf, h2] using step n hn), ran_pc u _ 2, fun _ _ => rfl⟩
  · rw [h.1 hc]
    exact ⟨_, runHandler_pc_from (u := u) (by simpa [skipIf, h2] using step n hn), ran_pc u _ 3, fun _ _ => rfl⟩
  · rw [h.1 hc]
    refine runHandler_error ?_
    simp only [skipIf, if_true, skipNext]
    rw [act_bind_ok (getPc_apply u), act_bind_error (fetch_outside hn)]

/-- What a conditional branch does (R219, R220). -/
theorem branchIf_runs (s : State) (c : Bool) (k : BitVec 7) :
    ∃ t, runHandler (branchIf c k) s = .next t ∧ OnlyBytes s t [] ∧
      if c then Ran s t (s.pc + k.signExtend 16) 2 else Ran s t s.pc 1 := by
  cases c
  · exact ⟨_, rfl, fun _ _ => rfl, ran_pc s s.pc 1⟩
  · exact ⟨_, rfl, fun _ _ => rfl, ran_pc s _ 2⟩

section Plain

variable {s : State} (hs : s.Plain)
include hs

theorem ptr_read (p : Pointer) : readPointer p s = .ok (s.ptr p, s) := readPointer_plain hs.inv.params hs.noHooks p
theorem ptr_write (p : Pointer) (w : Word) : writePointer p w s = .ok ((), { s with mem := (s.mem.set (pointerAddr s.params p) (lowByte w)).set (pointerAddr s.params p + 1) (highByte w) }) := writePointer_plain (s := s) hs.inv.params hs.noHooks p w

/-- A pointer written back, as a frame. -/
theorem after_pointer (p : Pointer) (w : Word) : OnlyMem s { s with mem := (s.mem.set (pointerAddr s.params p) (lowByte w)).set (pointerAddr s.params p + 1) (highByte w) } (withWord (pointerAddr s.params p) w s.byte) := by
  refine ⟨fun a => ?_, rfl, rfl, rfl, rfl, rfl, rfl, rfl, rfl, rfl, rfl, rfl, rfl⟩
  simp only [State.byte, withWord]
  rw [memory_get_set (memory_wf_set _ _ hs.inv.memWf), memory_get_set hs.inv.memWf]
  by_cases h1 : a = pointerAddr s.params p
  · subst h1; simp
  · simp [h1]

/-- A load at an address `m` computes without changing the state. -/
theorem load_runs (d : Reg) (ea : Word) (m : Act Word) (hm : m s = .ok (ea, s)) (k : Nat) :
    let act : Act Nat := do
      let ea ← m
      let v ← memRead ea.toNat
      writeReg d v
      return k
    (ea.toNat < s.params.dataSize →
      ∃ v u t, ReadAt s ea.toNat v u ∧ runHandler act s = .next t ∧ RegResult u t d v k) ∧
    (s.params.dataSize ≤ ea.toNat → runHandler act s = .fault (.addressRange .data ea.toNat)) := by
  intro act
  constructor
  · intro h
    obtain ⟨v, u, hr⟩ := memRead_readAt (s := s) h
    have hu := hr.plain hs
    refine ⟨v, u, _, hr, ?_, regResult_of hu d v k⟩
    refine runHandler_mem_from ?_
    simp only [act]
    rw [act_bind_ok hm, act_bind_ok hr.access, act_bind_ok (writeReg_plain hu.inv.params hu.noHooks d v)]
    rfl
  · intro h
    refine runHandler_error ?_
    simp only [act]
    rw [act_bind_ok hm, act_bind_error (memRead_outside h)]

/-- The pointer is written after the access, over a loaded half of it (R231, R232). -/
theorem loadPostInc_runs (d : Reg) (p : Pointer) : let ea := s.ptr p
        (ea.toNat < s.params.dataSize →
          ∃ v u t, ReadAt s ea.toNat v u ∧ runHandler (loadPostInc d p) s = .next t ∧ Ran u t s.pc 2 ∧
            ∀ a, t.byte a = withWord (pointerAddr s.params p) (ea + 1)
              (fun x => if x = d.val then v else u.byte x) a) ∧
        (s.params.dataSize ≤ ea.toNat → runHandler (loadPostInc d p) s = .fault (.addressRange .data ea.toNat)) := by
  intro ea
  constructor
  · intro h
    obtain ⟨v, u, hr⟩ := memRead_readAt (s := s) h
    have hu := hr.plain hs
    have hu' := plain_setMem hu v (params_reg_lt hu.inv.params d.isLt)
    refine ⟨v, u, { u with mem := ((u.mem.set d.val v).set (pointerAddr u.params p) (lowByte (ea+1))).set (pointerAddr u.params p + 1) (highByte (ea+1)), wait := 2 }, hr, ?_, ?_, ?_⟩
    · refine runHandler_mem_from (u := u) ?_
      unfold loadPostInc
      rw [act_bind_ok (ptr_read hs p), act_bind_ok hr.access, act_bind_ok (writeReg_plain hu.inv.params hu.noHooks d v),
        act_bind_ok (ptr_write hu' p _)]
      rfl
    · exact ⟨hr.keeps.pc, rfl, rfl, rfl, rfl, rfl, rfl, rfl, rfl, rfl, rfl, rfl⟩
    · intro a
      rw [← hr.keeps.unit.params]
      exact (writeWord_map hu' _ _ a).trans (by
        simp only [withWord, State.byte, memory_get_set hu.inv.memWf])
  · intro h
    refine runHandler_error ?_
    unfold loadPostInc
    rw [act_bind_ok (ptr_read hs p), act_bind_error (memRead_outside h)]

/-- The pointer is written before the access (R231). -/
theorem loadPreDec_runs (d : Reg) (p : Pointer) : let ea := s.ptr p - 1
        (ea.toNat < s.params.dataSize →
          ∃ m v u t, OnlyMem s m (withWord (pointerAddr s.params p) ea s.byte) ∧
            ReadAt m ea.toNat v u ∧ runHandler (loadPreDec d p) s = .next t ∧ RegResult u t d v 2) ∧
        (s.params.dataSize ≤ ea.toNat → runHandler (loadPreDec d p) s = .fault (.addressRange .data ea.toNat)) := by
  intro ea
  have hm := plain_word hs (pointerAddr s.params p) ea (ptr_in hs p)
  constructor
  · intro h
    obtain ⟨v, u, hr⟩ := memRead_readAt (s := { s with mem := (s.mem.set (pointerAddr s.params p) (lowByte ea)).set (pointerAddr s.params p +1) (highByte ea) }) h
    have hu := hr.plain hm
    refine ⟨_, v, u, _, after_pointer hs p ea, hr, ?_, regResult_of hu d v 2⟩
    refine runHandler_mem_from (u := u) ?_
    unfold loadPreDec
    rw [act_bind_ok (ptr_read hs p), act_bind_ok (ptr_write hs p _), act_bind_ok hr.access,
      act_bind_ok (writeReg_plain hu.inv.params hu.noHooks d v)]
    rfl
  · intro h
    refine runHandler_error ?_
    unfold loadPreDec
    rw [act_bind_ok (ptr_read hs p), act_bind_ok (ptr_write hs p _), act_bind_error (memRead_outside (by exact h))]

/-- The old pointer half is stored (R231, R232). -/
theorem storePostInc_runs (r : Reg) (p : Pointer) : let ea := s.ptr p
        (ea.toNat < s.params.dataSize →
          ∃ u t, WriteAt s ea.toNat (s.reg r) u ∧ runHandler (storePostInc p r) s = .next t ∧ Ran u t s.pc 2 ∧
            ∀ a, t.byte a = withWord (pointerAddr s.params p) (ea + 1) u.byte a) ∧
        (s.params.dataSize ≤ ea.toNat → runHandler (storePostInc p r) s = .fault (.addressRange .data ea.toNat)) := by
  intro ea
  constructor
  · intro h
    obtain ⟨u, hr⟩ := memWrite_writeAt (s := s) (v := s.reg r) hs.inv h
    have hu := hr.plain hs
    refine ⟨u, { u with mem := (u.mem.set (pointerAddr u.params p) (lowByte (ea+1))).set (pointerAddr u.params p + 1) (highByte (ea+1)), wait := 2 }, hr, ?_, ?_, ?_⟩
    · refine runHandler_mem_from (u := u) ?_
      unfold storePostInc
      rw [act_bind_ok (ptr_read hs p), act_bind_ok (readReg_plain hs.inv.params hs.noHooks r), act_bind_ok hr.access,
        act_bind_ok (ptr_write hu p _)]
      rfl
    · exact ⟨hr.keeps.pc, rfl, rfl, rfl, rfl, rfl, rfl, rfl, rfl, rfl, rfl, rfl⟩
    · intro a
      rw [← hr.keeps.unit.params]
      exact (writeWord_map hu _ _ a)
  · intro h
    refine runHandler_error ?_
    unfold storePostInc
    rw [act_bind_ok (ptr_read hs p), act_bind_ok (readReg_plain hs.inv.params hs.noHooks r), act_bind_error (memWrite_outside h)]

/-- The new pointer half is stored (R231, R232). -/
theorem storePreDec_runs (r : Reg) (p : Pointer) : let ea := s.ptr p - 1
        (ea.toNat < s.params.dataSize →
          ∃ m u, OnlyMem s m (withWord (pointerAddr s.params p) ea s.byte) ∧
            WriteAt m ea.toNat (m.reg r) u ∧ runHandler (storePreDec p r) s = .next { u with wait := 2 }) ∧
        (s.params.dataSize ≤ ea.toNat → runHandler (storePreDec p r) s = .fault (.addressRange .data ea.toNat)) := by
  intro ea
  have hm := plain_word hs (pointerAddr s.params p) ea (ptr_in hs p)
  constructor
  · intro h
    obtain ⟨u, hr⟩ := memWrite_writeAt (v := State.reg { s with mem := (s.mem.set (pointerAddr s.params p) (lowByte ea)).set (pointerAddr s.params p +1) (highByte ea) } r) hm.inv h
    refine ⟨_, u, after_pointer hs p ea, hr, ?_⟩
    refine runHandler_ok ?_
    unfold storePreDec
    rw [act_bind_ok (ptr_read hs p), act_bind_ok (ptr_write hs p _), act_bind_ok (readReg_plain hm.inv.params hm.noHooks r),
     act_bind_ok hr.access]
    rfl
  · intro h
    refine runHandler_error ?_
    unfold storePreDec
    rw [act_bind_ok (ptr_read hs p), act_bind_ok (ptr_write hs p _), act_bind_ok (readReg_plain hm.inv.params hm.noHooks r), act_bind_error (memWrite_outside (by exact h))]


end Plain

end Sys2Proof.Machine
end

