-- ==== Sys2Proof/Laws/Table.lean ====
section
/-! SUPPORT. The instruction table: the entry of an opcode, what a handler of a table's own keeps, and the
execute step by the kind of entry. -/

namespace Sys2Proof.Machine

/-! ## Entries -/

@[simp] theorem reference_entry (op : Word) : ITable.reference.entry op = .reference := rfl

@[simp] theorem entryIn_nil (op : Word) (e : ITableEntry) : entryIn [] op e = e := rfl

theorem entryIn_cons_self (op : Word) (e d : ITableEntry) (rest : List (Word × ITableEntry)) :
    entryIn ((op, e) :: rest) op d = e := by simp [entryIn]

theorem entryIn_cons_ne {op w : Word} (h : op ≠ w) (e d : ITableEntry)
    (rest : List (Word × ITableEntry)) : entryIn ((w, e) :: rest) op d = entryIn rest op d := by
  simp [entryIn, h]

/-- The entries of a function listed for some words: the function at each of them, the default beside. -/
theorem entryIn_map (f : Word → ITableEntry) (d : ITableEntry) (op : Word) :
    ∀ ws : List Word, entryIn (ws.map fun w => (w, f w)) op d = if op ∈ ws then f op else d
  | [] => rfl
  | w :: rest => by
    by_cases h : op = w
    · subst h; simp [entryIn]
    · simp [entryIn, h, entryIn_map f d op rest]

/-! ## Handlers of the table's own -/

/-- A handler of the table's own keeps every relation that data accesses and writes of `pc` keep. -/
theorem keeps_runProg {R : State → State → Prop} (hP : PcLike R) : ∀ p, Keeps R (runProg p)
  | .done _ => keeps_pure hP.toMemoryLike _
  | .memRead _ next =>
    keeps_bind hP.toMemoryLike (keeps_memRead hP.toMemoryLike _) fun v => keeps_runProg hP (next v)
  | .memWrite _ _ next =>
    keeps_bind hP.toMemoryLike (keeps_memWrite hP.toMemoryLike _ _) fun _ => keeps_runProg hP next
  | .fetch _ next =>
    keeps_bind hP.toMemoryLike (keeps_fetch hP.toMemoryLike _) fun w => keeps_runProg hP (next w)
  | .readPc next =>
    keeps_bind hP.toMemoryLike (keeps_getPc hP.toMemoryLike) fun p => keeps_runProg hP (next p)
  | .writePc _ next => keeps_bind hP.toMemoryLike (keeps_setPc hP _) fun _ => keeps_runProg hP next

/-! ## The execute step -/

/-- An opcode the table leaves to `REF_ITABLE`. -/
theorem executeStep_reference {s : State} {op : Word} (ho : progWord s s.pc = some op)
    (he : s.itable.entry op = .reference) : executeStep s = executeReference s := by
  simp [executeStep, ho, he]

/-- An opcode the table has a handler of its own for. -/
theorem executeStep_own {s : State} {op : Word} {h : OwnHandler} {p : HandlerProg}
    (ho : progWord s s.pc = some op) (he : s.itable.entry op = .own h) (hp : ownProg h op = some p) :
    executeStep s = runHandler (runProg p) { s with pc := s.pc + 1 } := by
  simp [executeStep, ho, he, hp]

/-- An opcode an own entry of the table says "no instruction" for. -/
theorem executeStep_noInstruction {s : State} {op : Word} {h : OwnHandler}
    (ho : progWord s s.pc = some op) (he : s.itable.entry op = .own h) (hp : ownProg h op = none) :
    executeStep s = .fault (.decode op s.pc) := by
  simp [executeStep, ho, he, hp]

/-- Nothing to fetch. -/
theorem executeStep_outside {s : State} (ho : progWord s s.pc = none) :
    executeStep s = .fault (.addressRange .program s.pc.toNat) := by
  simp [executeStep, ho]

/-- With `REF_ITABLE` as the table, the execute step is that of `REF_ITABLE` everywhere. -/
theorem executeStep_of_reference_table {s : State} (h : s.itable = ITable.reference) :
    executeStep s = executeReference s := by
  cases ho : progWord s s.pc with
  | none => simp [executeStep, executeReference, fetchInstr, codeAt, decodeWords, ho]
  | some op => exact executeStep_reference ho (by simp [h])

end Sys2Proof.Machine
end

