-- ==== Sys2Proof/Tests/Slice0.lean ====
section
/-! SUPPORT. The model's own tests: each check of `wellFormed` refuses an ill-formed term, every
constructor is decoded from a word written out bit by bit, every instruction makes one step, the
engine, the hooks and reset answer the examples of the spec, and every obligation with hypotheses has
a witness that meets them. Expected values are from spec/95_test_vectors.md (V1 to V137, E1 to E23,
S4, S6) or, where a line says so, calculated by hand from the rules. -/

namespace Sys2Proof.Tests

open Sys2Proof Sys2Proof.Machine

-- one theorem after another: many at once ask for more threads than the check allows
set_option Elab.async false

/-! ## Helpers -/

/-- The bare unit after reset with `pc`, program words placed there and bytes of `B` set. -/
def unit (pc : Word) (code : List Word) (cells : List Host.Cell) : State :=
  { State.reset with
    pc := pc
    prog := List.replicate pc.toNat 0 ++ code
    mem := State.reset.mem.pokes Config.params.dataSize cells }

/-- One step reaches a state with these bytes, this `pc` and the step count k (`wait` is k - 1). -/
def steps (s : State) (cells : List Host.Cell) (pc : Word) (k : Nat) : Bool :=
  match step s with
  | .next t => cells.all (fun c => t.mem.get c.1 == c.2) && t.pc == pc && t.wait + 1 == k &&
      t.total == s.total + 1 && t.mem.wf
  | .fault _ => false
  | .refused _ => false

/-- One step ends in this fault. -/
def stops (s : State) (f : Fault) : Bool :=
  match step s with
  | .next _ => false
  | .fault g => g == f
  | .refused _ => false

/-- The words are exactly this instruction. -/
def reads (ws : List Word) (i : Instr) : Bool :=
  match decodeWords ws with
  | .ok (j, rest) => j == i && rest.isEmpty && wellFormed i
  | .error _ => false

/-- An access answers this. -/
def answers {α : Type} [DecidableEq α] (r : Except Fault (α × State)) (v : α) (cells : List Host.Cell) : Bool :=
  match r with
  | .ok (w, t) => w == v && cells.all fun c => t.mem.get c.1 == c.2
  | .error _ => false

/-! ## Ill-formed terms -/

theorem test_upperReg_refuses :
    wellFormed (.ldi 15 0xFF) = false ∧ wellFormed (.ldi 16 0xFF) = true ∧
    wellFormed (.subi 0 1) = false ∧ wellFormed (.sbci 0 1) = false ∧ wellFormed (.cpi 0 1) = false ∧
    wellFormed (.andi 0 1) = false ∧ wellFormed (.ori 0 1) = false ∧
    wellFormed (.muls 15 16) = false ∧ wellFormed (.muls 16 15) = false := by decide

theorem test_fractReg_refuses :
    wellFormed (.mulsu 15 16) = false ∧ wellFormed (.mulsu 16 24) = false ∧
    wellFormed (.fmul 24 16) = false ∧ wellFormed (.fmul 16 15) = false ∧
    wellFormed (.fmuls 24 16) = false ∧ wellFormed (.fmuls 16 15) = false ∧
    wellFormed (.fmulsu 24 16) = false ∧ wellFormed (.fmulsu 16 15) = false ∧
    wellFormed (.mulsu 16 23) = true := by decide

theorem test_evenReg_refuses :
    wellFormed (.movw 1 2) = false ∧ wellFormed (.movw 2 1) = false ∧
    wellFormed (.movw 30 0) = true := by decide

theorem test_wordReg_refuses :
    wellFormed (.adiw 25 0) = false ∧ wellFormed (.adiw 22 0) = false ∧
    wellFormed (.sbiw 31 0) = false ∧ wellFormed (.sbiw 23 0) = false ∧
    wellFormed (.sbiw 24 0) = true := by decide

/-! ## Decoding: words written out from the encodings of R106

The operands are d = 21 (10101), r = 18 (10010) and, in the other formats, values whose bits differ
from their neighbours. -/

theorem test_decode_format_RR_a :
    reads [0b0000111101010010] (.add 21 18) ∧
    reads [0b0001111101010010] (.adc 21 18) ∧
    reads [0b0001101101010010] (.sub 21 18) ∧
    reads [0b0000101101010010] (.sbc 21 18) ∧
    reads [0b0001011101010010] (.cp 21 18) ∧
    reads [0b0000011101010010] (.cpc 21 18) := by decide +kernel

theorem test_decode_format_RR_b :
    reads [0b0010001101010010] (.and 21 18) ∧
    reads [0b0010101101010010] (.or 21 18) ∧
    reads [0b0010011101010010] (.eor 21 18) ∧
    reads [0b1001111101010010] (.mul 21 18) ∧
    reads [0b0001001101010010] (.cpse 21 18) ∧
    reads [0b0010111101010010] (.mov 21 18) := by decide +kernel

theorem test_decode_format_RI :
    reads [0b0101101010100110] (.subi 26 0xA6) ∧
    reads [0b0100101010100110] (.sbci 26 0xA6) ∧
    reads [0b0011101010100110] (.cpi 26 0xA6) ∧
    reads [0b0111101010100110] (.andi 26 0xA6) ∧
    reads [0b0110101010100110] (.ori 26 0xA6) ∧
    reads [0b1110101010100110] (.ldi 26 0xA6) := by decide +kernel

theorem test_decode_format_RD_a :
    reads [0b1001010101010000] (.com 21) ∧
    reads [0b1001010101010001] (.neg 21) ∧
    reads [0b1001010101010011] (.inc 21) ∧
    reads [0b1001010101011010] (.dec 21) ∧
    reads [0b1001010101010101] (.asr 21) ∧
    reads [0b1001010101010110] (.lsr 21) := by decide +kernel

theorem test_decode_format_RD_b :
    reads [0b1001010101010111] (.ror 21) ∧
    reads [0b1001010101010010] (.swap 21) := by decide +kernel

theorem test_decode_format_WI :
    reads [0b1001011010100110] (.adiw 28 38) ∧
    reads [0b1001011110100110] (.sbiw 28 38) := by decide +kernel

theorem test_decode_format_M16 :
    reads [0b0000001001011001] (.muls 21 25) := by decide +kernel

theorem test_decode_format_M8 :
    reads [0b0000001101010011] (.mulsu 21 19) ∧
    reads [0b0000001101011011] (.fmul 21 19) ∧
    reads [0b0000001111010011] (.fmuls 21 19) ∧
    reads [0b0000001111011011] (.fmulsu 21 19) := by decide +kernel

theorem test_decode_format_J12 :
    reads [0b1100101000110101] (.rjmp 0xA35) ∧
    reads [0b1101101000110101] (.rcall 0xA35) := by decide +kernel

theorem test_decode_format_J22 :
    reads [0b1001010101011101, 0b0100001100100001] (.jmp 0x2B4321) ∧
    reads [0b1001010101011111, 0b0100001100100001] (.call 0x2B4321) := by decide +kernel

theorem test_decode_format_Z0_a :
    reads [0b1001010000001001] (.ijmp) ∧
    reads [0b1001010100001001] (.icall) ∧
    reads [0b1001010100001000] (.ret) ∧
    reads [0b1001010100011000] (.reti) ∧
    reads [0b1001010111001000] (.lpm) ∧
    reads [0b0000000000000000] (.nop) := by decide +kernel

theorem test_decode_format_Z0_b :
    reads [0b1001010110101000] (.wdr) ∧
    reads [0b1001010110001000] (.sleep) ∧
    reads [0b1001010110011000] (.brk) ∧
    reads [0b1001010111101000] (.spm) := by decide +kernel

theorem test_decode_format_BR :
    reads [0b1111001010011110] (.brbs 6 0x53) ∧
    reads [0b1111011010011110] (.brbc 6 0x53) := by decide +kernel

theorem test_decode_format_RB :
    reads [0b1111110101010110] (.sbrc 21 6) ∧
    reads [0b1111111101010110] (.sbrs 21 6) ∧
    reads [0b1111101101010110] (.bst 21 6) ∧
    reads [0b1111100101010110] (.bld 21 6) := by decide +kernel

theorem test_decode_format_IOB :
    reads [0b1001100110110101] (.sbic 22 5) ∧
    reads [0b1001101110110101] (.sbis 22 5) ∧
    reads [0b1001101010110101] (.sbi 22 5) ∧
    reads [0b1001100010110101] (.cbi 22 5) := by decide +kernel

theorem test_decode_format_MW :
    reads [0b0000000110101001] (.movw 20 18) := by decide +kernel

theorem test_decode_format_LS_a :
    reads [0b1001000101011100] (.ldX 21) ∧
    reads [0b1001000101011101] (.ldXInc 21) ∧
    reads [0b1001000101011110] (.ldXDec 21) ∧
    reads [0b1001000101011001] (.ldYInc 21) ∧
    reads [0b1001000101011010] (.ldYDec 21) ∧
    reads [0b1001000101010001] (.ldZInc 21) := by decide +kernel

theorem test_decode_format_LS_b :
    reads [0b1001000101010010] (.ldZDec 21) ∧
    reads [0b1001001101011100] (.stX 21) ∧
    reads [0b1001001101011101] (.stXInc 21) ∧
    reads [0b1001001101011110] (.stXDec 21) ∧
    reads [0b1001001101011001] (.stYInc 21) ∧
    reads [0b1001001101011010] (.stYDec 21) := by decide +kernel

theorem test_decode_format_LS_c :
    reads [0b1001001101010001] (.stZInc 21) ∧
    reads [0b1001001101010010] (.stZDec 21) ∧
    reads [0b1001001101011111] (.push 21) ∧
    reads [0b1001000101011111] (.pop 21) ∧
    reads [0b1001000101010100] (.lpmZ 21) ∧
    reads [0b1001000101010101] (.lpmZInc 21) := by decide +kernel

theorem test_decode_format_LDD :
    reads [0b1010010101011101] (.lddY 21 45) ∧
    reads [0b1010010101010101] (.lddZ 21 45) ∧
    reads [0b1010011101011101] (.stdY 45 21) ∧
    reads [0b1010011101010101] (.stdZ 45 21) := by decide +kernel

theorem test_decode_format_LS2 :
    reads [0b1001000101010000, 0b0001001000110100] (.lds 21 0x1234) ∧
    reads [0b1001001101010000, 0b0001001000110100] (.sts 0x1234 21) := by decide +kernel

theorem test_decode_format_IO :
    reads [0b1011010101011101] (.inp 21 45) ∧
    reads [0b1011110101011101] (.out 45 21) := by decide +kernel

theorem test_decode_format_SF :
    reads [0b1001010001101000] (.bset 6) ∧
    reads [0b1001010011101000] (.bclr 6) := by decide +kernel
/-- R105, R110, R117: the table's numbering puts the second word in bits 31 to 16. -/
theorem test_decodeTableWord :
    decodeTableWord 32 0x1234940C = some (.jmp 0x1234) ∧ decodeTableWord 16 0x9000 = some (.lds 0 0) ∧
    decodeTableWord 16 0x0001 = none ∧ decodeTableWord 16 0xF808 = none := by decide +kernel

/-- Every value of V130 to V137 is reserved. -/
theorem test_reserved_words :
    stops (unit 0x100 [0x0001] []) (.decode 0x0001 0x0100) ∧
    stops (unit 0x100 [0xFF08] []) (.decode 0xFF08 0x0100) ∧
    stops (unit 0x100 [0x9404] []) (.decode 0x9404 0x0100) ∧
    stops (unit 0x100 [0x9419] []) (.decode 0x9419 0x0100) ∧
    stops (unit 0x100 [0x95D8] []) (.decode 0x95D8 0x0100) ∧
    stops (unit 0x100 [0x9006] []) (.decode 0x9006 0x0100) ∧
    stops (unit 0x100 [0x9204] []) (.decode 0x9204 0x0100) ∧
    stops (unit 0x100 [0x940B] []) (.decode 0x940B 0x0100) := by decide +kernel

/-! ## One step: arithmetic and logic -/

/-- V1, V3. -/
theorem test_add :
    steps (unit 0x100 [0x0F01, 0, 0] [(16, 0x7F), (17, 0x01), (0x5F, 0x00)])
      [(16, 0x80), (0x5F, 0x2C)] 0x0101 1 ∧
    steps (unit 0x100 [0x0F01, 0, 0] [(16, 0x80), (17, 0x80), (0x5F, 0x00)])
      [(16, 0x00), (0x5F, 0x1B)] 0x0101 1 := by decide +kernel

/-- V5, V7. -/
theorem test_adc :
    steps (unit 0x100 [0x1F01, 0, 0] [(16, 0xFF), (17, 0x00), (0x5F, 0x01)])
      [(16, 0x00), (0x5F, 0x23)] 0x0101 1 ∧
    steps (unit 0x100 [0x1F00, 0, 0] [(16, 0x80), (0x5F, 0x01)])
      [(16, 0x01), (0x5F, 0x19)] 0x0101 1 := by decide +kernel

/-- V9, V10. -/
theorem test_sub :
    steps (unit 0x100 [0x1B01, 0, 0] [(16, 0x80), (17, 0x01), (0x5F, 0x00)])
      [(16, 0x7F), (0x5F, 0x38)] 0x0101 1 ∧
    steps (unit 0x100 [0x1B00, 0, 0] [(16, 0x5A), (0x5F, 0xFF)])
      [(16, 0x00), (0x5F, 0xC2)] 0x0101 1 := by decide +kernel

/-- V11. -/
theorem test_subi :
    steps (unit 0x100 [0x5100, 0, 0] [(16, 0x0F), (0x5F, 0x00)])
      [(16, 0xFF), (0x5F, 0x15)] 0x0101 1 := by decide +kernel

/-- V13, V14. -/
theorem test_sbc :
    steps (unit 0x100 [0x0B01, 0, 0] [(16, 0x00), (17, 0x00), (0x5F, 0x03)])
      [(16, 0xFF), (0x5F, 0x35)] 0x0101 1 ∧
    steps (unit 0x100 [0x0B01, 0, 0] [(16, 0x01), (17, 0x00), (0x5F, 0x03)])
      [(16, 0x00), (0x5F, 0x02)] 0x0101 1 := by decide +kernel

/-- V15. -/
theorem test_sbci :
    steps (unit 0x100 [0x4F0F, 0, 0] [(16, 0x00), (0x5F, 0x01)])
      [(16, 0x00), (0x5F, 0x21)] 0x0101 1 := by decide +kernel

/-- V16, V17. -/
theorem test_cp :
    steps (unit 0x100 [0x1701, 0, 0] [(16, 0x05), (17, 0x05), (0x5F, 0x00)])
      [(16, 0x05), (0x5F, 0x02)] 0x0101 1 ∧
    steps (unit 0x100 [0x1701, 0, 0] [(16, 0x80), (17, 0x7F), (0x5F, 0x00)])
      [(16, 0x80), (0x5F, 0x38)] 0x0101 1 := by decide +kernel

/-- V18, V19. -/
theorem test_cpc :
    steps (unit 0x100 [0x0701, 0, 0] [(16, 0x00), (17, 0x00), (0x5F, 0x02)])
      [(16, 0x00), (0x5F, 0x02)] 0x0101 1 ∧
    steps (unit 0x100 [0x0701, 0, 0] [(16, 0x00), (17, 0x00), (0x5F, 0x00)])
      [(16, 0x00), (0x5F, 0x00)] 0x0101 1 := by decide +kernel

/-- V20. -/
theorem test_cpi :
    steps (unit 0x100 [0x3800, 0, 0] [(16, 0x7F), (0x5F, 0x00)])
      [(16, 0x7F), (0x5F, 0x0D)] 0x0101 1 := by decide +kernel

/-- V21. -/
theorem test_and :
    steps (unit 0x100 [0x2301, 0, 0] [(16, 0xF0), (17, 0x0F), (0x5F, 0x09)])
      [(16, 0x00), (0x5F, 0x03)] 0x0101 1 := by decide +kernel

/-- V22. -/
theorem test_andi :
    steps (unit 0x100 [0x7800, 0, 0] [(16, 0xFF), (0x5F, 0x00)])
      [(16, 0x80), (0x5F, 0x14)] 0x0101 1 := by decide +kernel

/-- V23. -/
theorem test_or :
    steps (unit 0x100 [0x2B01, 0, 0] [(16, 0x00), (17, 0x00), (0x5F, 0x01)])
      [(16, 0x00), (0x5F, 0x03)] 0x0101 1 := by decide +kernel

/-- V24. -/
theorem test_ori :
    steps (unit 0x100 [0x6801, 0, 0] [(16, 0x00), (0x5F, 0x00)])
      [(16, 0x81), (0x5F, 0x14)] 0x0101 1 := by decide +kernel

/-- V25. -/
theorem test_eor :
    steps (unit 0x100 [0x2700, 0, 0] [(16, 0xA5), (0x5F, 0xFF)])
      [(16, 0x00), (0x5F, 0xE3)] 0x0101 1 := by decide +kernel

/-- V26, V27. -/
theorem test_com :
    steps (unit 0x100 [0x9500, 0, 0] [(16, 0x00), (0x5F, 0x00)])
      [(16, 0xFF), (0x5F, 0x15)] 0x0101 1 ∧
    steps (unit 0x100 [0x9500, 0, 0] [(16, 0xFF), (0x5F, 0x00)])
      [(16, 0x00), (0x5F, 0x03)] 0x0101 1 := by decide +kernel

/-- V28, V30. -/
theorem test_neg :
    steps (unit 0x100 [0x9501, 0, 0] [(16, 0x80), (0x5F, 0x00)])
      [(16, 0x80), (0x5F, 0x0D)] 0x0101 1 ∧
    steps (unit 0x100 [0x9501, 0, 0] [(16, 0x01), (0x5F, 0x00)])
      [(16, 0xFF), (0x5F, 0x35)] 0x0101 1 := by decide +kernel

/-- V31, V32. -/
theorem test_inc :
    steps (unit 0x100 [0x9503, 0, 0] [(16, 0x7F), (0x5F, 0x01)])
      [(16, 0x80), (0x5F, 0x0D)] 0x0101 1 ∧
    steps (unit 0x100 [0x9503, 0, 0] [(16, 0xFF), (0x5F, 0x01)])
      [(16, 0x00), (0x5F, 0x03)] 0x0101 1 := by decide +kernel

/-- V33, V35. -/
theorem test_dec :
    steps (unit 0x100 [0x950A, 0, 0] [(16, 0x80), (0x5F, 0x00)])
      [(16, 0x7F), (0x5F, 0x18)] 0x0101 1 ∧
    steps (unit 0x100 [0x950A, 0, 0] [(16, 0x01), (0x5F, 0x01)])
      [(16, 0x00), (0x5F, 0x03)] 0x0101 1 := by decide +kernel

/-- V36, V37. -/
theorem test_asr :
    steps (unit 0x100 [0x9505, 0, 0] [(16, 0x81), (0x5F, 0x00)])
      [(16, 0xC0), (0x5F, 0x15)] 0x0101 1 ∧
    steps (unit 0x100 [0x9505, 0, 0] [(16, 0x01), (0x5F, 0x00)])
      [(16, 0x00), (0x5F, 0x1B)] 0x0101 1 := by decide +kernel

/-- V38, V39. -/
theorem test_lsr :
    steps (unit 0x100 [0x9506, 0, 0] [(16, 0x01), (0x5F, 0x00)])
      [(16, 0x00), (0x5F, 0x1B)] 0x0101 1 ∧
    steps (unit 0x100 [0x9506, 0, 0] [(16, 0x80), (0x5F, 0x00)])
      [(16, 0x40), (0x5F, 0x00)] 0x0101 1 := by decide +kernel

/-- V40, V41. -/
theorem test_ror :
    steps (unit 0x100 [0x9507, 0, 0] [(16, 0x01), (0x5F, 0x01)])
      [(16, 0x80), (0x5F, 0x15)] 0x0101 1 ∧
    steps (unit 0x100 [0x9507, 0, 0] [(16, 0x00), (0x5F, 0x00)])
      [(16, 0x00), (0x5F, 0x02)] 0x0101 1 := by decide +kernel

/-- V42. -/
theorem test_swap :
    steps (unit 0x100 [0x9502, 0, 0] [(16, 0xA5), (0x5F, 0xFF)])
      [(16, 0x5A), (0x5F, 0xFF)] 0x0101 1 := by decide +kernel

/-- V43, V44. -/
theorem test_adiw :
    steps (unit 0x100 [0x9601, 0, 0] [(24, 0xFF), (25, 0xFF), (0x5F, 0x00)])
      [(24, 0x00), (25, 0x00), (0x5F, 0x03)] 0x0101 2 ∧
    steps (unit 0x100 [0x96CF, 0, 0] [(24, 0xC1), (25, 0x7F), (0x5F, 0x00)])
      [(24, 0x00), (25, 0x80), (0x5F, 0x0C)] 0x0101 2 := by decide +kernel

/-- V46, V47. -/
theorem test_sbiw :
    steps (unit 0x100 [0x9711, 0, 0] [(26, 0x00), (27, 0x00), (0x5F, 0x00)])
      [(26, 0xFF), (27, 0xFF), (0x5F, 0x15)] 0x0101 2 ∧
    steps (unit 0x100 [0x9721, 0, 0] [(28, 0x00), (29, 0x80), (0x5F, 0x00)])
      [(28, 0xFF), (29, 0x7F), (0x5F, 0x18)] 0x0101 2 := by decide +kernel

/-- V49, V50. -/
theorem test_mul :
    steps (unit 0x100 [0x9F01, 0, 0] [(16, 0xFF), (17, 0xFF), (0x5F, 0x00)])
      [(0, 0x01), (1, 0xFE), (0x5F, 0x01)] 0x0101 2 ∧
    steps (unit 0x100 [0x9F01, 0, 0] [(16, 0x00), (17, 0xFF), (0x5F, 0x01)])
      [(0, 0x00), (1, 0x00), (0x5F, 0x02)] 0x0101 2 := by decide +kernel

/-- V51, V53. -/
theorem test_muls :
    steps (unit 0x100 [0x0201, 0, 0] [(16, 0xFF), (17, 0xFF), (0x5F, 0x00)])
      [(0, 0x01), (1, 0x00), (0x5F, 0x00)] 0x0101 2 ∧
    steps (unit 0x100 [0x0201, 0, 0] [(16, 0x80), (17, 0x7F), (0x5F, 0x00)])
      [(0, 0x80), (1, 0xC0), (0x5F, 0x01)] 0x0101 2 := by decide +kernel

/-- V54. -/
theorem test_mulsu :
    steps (unit 0x100 [0x0301, 0, 0] [(16, 0xFF), (17, 0xFF), (0x5F, 0x00)])
      [(0, 0x01), (1, 0xFF), (0x5F, 0x01)] 0x0101 2 := by decide +kernel

/-- V55, V56. -/
theorem test_fmul :
    steps (unit 0x100 [0x0309, 0, 0] [(16, 0x80), (17, 0x80), (0x5F, 0x00)])
      [(0, 0x00), (1, 0x80), (0x5F, 0x00)] 0x0101 2 ∧
    steps (unit 0x100 [0x0309, 0, 0] [(16, 0xFF), (17, 0xFF), (0x5F, 0x00)])
      [(0, 0x02), (1, 0xFC), (0x5F, 0x01)] 0x0101 2 := by decide +kernel

/-- V57, V58. -/
theorem test_fmuls :
    steps (unit 0x100 [0x0381, 0, 0] [(16, 0x80), (17, 0x80), (0x5F, 0x00)])
      [(0, 0x00), (1, 0x80), (0x5F, 0x00)] 0x0101 2 ∧
    steps (unit 0x100 [0x0381, 0, 0] [(16, 0xC0), (17, 0x40), (0x5F, 0x00)])
      [(0, 0x00), (1, 0xE0), (0x5F, 0x01)] 0x0101 2 := by decide +kernel

/-- V59. -/
theorem test_fmulsu :
    steps (unit 0x100 [0x0389, 0, 0] [(16, 0x80), (17, 0xFF), (0x5F, 0x00)])
      [(0, 0x00), (1, 0x01), (0x5F, 0x01)] 0x0101 2 := by decide +kernel

/-! ## One step: control transfer -/

/-- V61, V62. -/
theorem test_rjmp :
    steps (unit 0x100 [0xC7FF, 0, 0] [(0x5F, 0x00)]) [(0x5F, 0x00)] 0x0900 2 ∧
    steps (unit 0x900 [0xC800, 0, 0] [(0x5F, 0x00)])
      [(0x5F, 0x00)] 0x0101 2 := by decide +kernel

/-- V67. -/
theorem test_jmp :
    steps (unit 0x100 [0x940C, 0xFFFF, 0, 0] [(0x5F, 0x00)])
      [(0x5F, 0x00)] 0xFFFF 3 := by decide +kernel

/-- V65. -/
theorem test_ijmp :
    steps (unit 0x100 [0x9409, 0, 0] [(30, 0xFF), (31, 0xFF), (0x5F, 0x00)])
      [(0x5F, 0x00)] 0xFFFF 2 := by decide +kernel

/-- V63, V64. -/
theorem test_rcall :
    steps (unit 0x100 [0xDFFF, 0, 0] [(0x5F, 0x00), (0x5D, 0xFF), (0x5E, 0x08)])
      [(0x8FD, 0x01), (0x8FE, 0x01), (0x5F, 0x00), (0x5D, 0xFD), (0x5E, 0x08)] 0x0100 3 ∧
    stops (unit 0x100 [0xD000, 0, 0] [(0x5F, 0x00), (0x5D, 0x01), (0x5E, 0x00)])
      (.addressRange .data 0xFFFF) := by decide +kernel

/-- V68. -/
theorem test_call :
    steps (unit 0x100 [0x940E, 0x0000, 0, 0] [(0x5F, 0x00), (0x5D, 0x00), (0x5E, 0x02)])
      [(0x1FE, 0x02), (0x1FF, 0x01), (0x5F, 0x00), (0x5D, 0xFE), (0x5E, 0x01)] 0x0000 4 := by decide +kernel

/-- V66. -/
theorem test_icall :
    steps (unit 0x100 [0x9509, 0, 0] [(30, 0x00), (31, 0x02), (0x5F, 0x00), (0x5D, 0xFF), (0x5E, 0x08)])
      [(0x8FD, 0x01), (0x8FE, 0x01), (0x5F, 0x00), (0x5D, 0xFD), (0x5E, 0x08)] 0x0200 3 := by decide +kernel

/-- V69, V70. -/
theorem test_ret :
    steps (unit 0x100 [0x9508, 0, 0] [(0x8FD, 0x34), (0x8FE, 0x12), (0x5F, 0x00), (0x5D, 0xFD), (0x5E, 0x08)])
      [(0x5F, 0x00), (0x5D, 0xFF), (0x5E, 0x08)] 0x1234 4 ∧
    stops (unit 0x100 [0x9508, 0, 0] [(0x5F, 0x00), (0x5D, 0xFF), (0x5E, 0x08)])
      (.addressRange .data 0x0900) := by decide +kernel

/-- V71. -/
theorem test_reti :
    steps (unit 0x100 [0x9518, 0, 0] [(0x8FD, 0x34), (0x8FE, 0x12), (0x5F, 0x03), (0x5D, 0xFD), (0x5E, 0x08)])
      [(0x5F, 0x83), (0x5D, 0xFF), (0x5E, 0x08)] 0x1234 4 := by decide +kernel

/-- V73, V75. -/
theorem test_brbs :
    steps (unit 0x100 [0xF008, 0, 0] [(0x5F, 0xFE)]) [(0x5F, 0xFE)] 0x0101 1 ∧
    steps (unit 0x100 [0xF204, 0, 0] [(0x5F, 0x10)])
      [(0x5F, 0x10)] 0x00C1 2 := by decide +kernel

/-- V74. -/
theorem test_brbc :
    steps (unit 0x100 [0xF7FF, 0, 0] [(0x5F, 0x00)])
      [(0x5F, 0x00)] 0x0100 2 := by decide +kernel

/-- V76, V79. -/
theorem test_cpse :
    steps (unit 0x100 [0x1000, 0x940E, 0x0000] [(0, 0x11), (0x5F, 0x00)]) [(0x5F, 0x00)] 0x0103 3 ∧
    steps (unit 0x100 [0x1001, 0, 0] [(0, 0x11), (1, 0x12), (0x5F, 0x00)])
      [(0x5F, 0x00)] 0x0101 1 := by decide +kernel

/-- V80. -/
theorem test_sbrc :
    steps (unit 0x100 [0xFC00, 0, 0] [(0, 0xFE), (0x5F, 0x00)])
      [(0x5F, 0x00)] 0x0102 2 := by decide +kernel

/-- V81. -/
theorem test_sbrs :
    steps (unit 0x100 [0xFFF7, 0, 0] [(31, 0x7F), (0x5F, 0x00)])
      [(0x5F, 0x00)] 0x0101 1 := by decide +kernel

/-- V82. -/
theorem test_sbic :
    steps (unit 0x100 [0x99FF, 0x940C, 0x0000] [(0x3F, 0x7F), (0x5F, 0x00)])
      [(0x5F, 0x00)] 0x0103 3 := by decide +kernel

/-- V83. -/
theorem test_sbis :
    steps (unit 0x100 [0x9B00, 0, 0] [(0x20, 0x01), (0x5F, 0x00)])
      [(0x5F, 0x00)] 0x0102 2 := by decide +kernel

/-! ## One step: data transfer -/

/-- V84. -/
theorem test_mov :
    steps (unit 0x100 [0x2E0F, 0, 0] [(31, 0x99), (0x5F, 0x00)])
      [(0, 0x99), (0x5F, 0x00)] 0x0101 1 := by decide +kernel

/-- V85. -/
theorem test_movw :
    steps (unit 0x100 [0x010F, 0, 0] [(30, 0xCD), (31, 0xAB), (0x5F, 0x00)])
      [(0, 0xCD), (1, 0xAB), (0x5F, 0x00)] 0x0101 1 := by decide +kernel

/-- V86. -/
theorem test_ldi :
    steps (unit 0x100 [0xE000, 0, 0] [(16, 0xFF), (0x5F, 0xFF)])
      [(16, 0x00), (0x5F, 0xFF)] 0x0101 1 := by decide +kernel

/-- V87. -/
theorem test_ldX :
    steps (unit 0x100 [0x900C, 0, 0] [(26, 0x1A), (27, 0x00), (0x5F, 0x00)])
      [(0, 0x1A), (0x5F, 0x00)] 0x0101 2 := by decide +kernel

/-- V88. -/
theorem test_ldXInc :
    steps (unit 0x100 [0x900D, 0, 0] [(26, 0xFF), (27, 0x00), (0xFF, 0x42), (0x5F, 0x00)])
      [(0, 0x42), (26, 0x00), (27, 0x01), (0x5F, 0x00)] 0x0101 2 := by decide +kernel

/-- V89. -/
theorem test_ldXDec :
    steps (unit 0x100 [0x900E, 0, 0] [(26, 0x00), (27, 0x01), (0xFF, 0x42), (0x5F, 0x00)])
      [(0, 0x42), (26, 0xFF), (27, 0x00), (0x5F, 0x00)] 0x0101 2 := by decide +kernel

/-- by hand from the rules. -/
theorem test_ldYInc :
    steps (unit 0x100 [0x91C9, 0, 0] [(28, 0x00), (29, 0x02), (0x200, 0x42)])
      [(28, 0x01), (29, 0x02)] 0x0101 2 := by decide +kernel

/-- V90, by hand from the rules. -/
theorem test_ldYDec :
    stops (unit 0x100 [0x900A, 0, 0] [(28, 0x00), (29, 0x00), (0x5F, 0x00)])
      (.addressRange .data 0xFFFF) ∧
    steps (unit 0x100 [0x900A, 0, 0] [(28, 0x00), (29, 0x02), (0x1FF, 0x42)])
      [(0, 0x42), (28, 0xFF), (29, 0x01)] 0x0101 2 := by decide +kernel

/-- V93. -/
theorem test_lddY :
    steps (unit 0x100 [0x8009, 0, 0] [(28, 0xFF), (29, 0xFF), (0x0, 0x00), (0x5F, 0x00)])
      [(0, 0x00), (0x5F, 0x00)] 0x0101 2 := by decide +kernel

/-- by hand from the rules. -/
theorem test_ldZInc :
    steps (unit 0x100 [0x9001, 0, 0] [(30, 0xFF), (31, 0x02), (0x2FF, 0x42)])
      [(0, 0x42), (30, 0x00), (31, 0x03)] 0x0101 2 := by decide +kernel

/-- by hand from the rules. -/
theorem test_ldZDec :
    steps (unit 0x100 [0x91E2, 0, 0] [(30, 0x00), (31, 0x03), (0x2FF, 0x42)])
      [(30, 0x42), (31, 0x02)] 0x0101 2 := by decide +kernel

/-- V91, V92. -/
theorem test_lddZ :
    stops (unit 0x100 [0xAC07, 0, 0] [(30, 0xC1), (31, 0x08), (0x5F, 0x00)])
      (.addressRange .data 0x0900) ∧
    steps (unit 0x100 [0xAC06, 0, 0] [(30, 0xC1), (31, 0x08), (0x8FF, 0x77), (0x5F, 0x00)])
      [(0, 0x77), (0x5F, 0x00)] 0x0101 2 := by decide +kernel

/-- V94. -/
theorem test_stX :
    steps (unit 0x100 [0x930C, 0, 0] [(16, 0x55), (26, 0x5F), (27, 0x00), (0x5F, 0x00)])
      [(0x5F, 0x55), (0x5F, 0x55)] 0x0101 2 := by decide +kernel

/-- by hand from the rules. -/
theorem test_stXInc :
    steps (unit 0x100 [0x93AD, 0, 0] [(26, 0x80), (27, 0x02)])
      [(0x280, 0x80), (26, 0x81), (27, 0x02)] 0x0101 2 := by decide +kernel

/-- by hand from the rules. -/
theorem test_stXDec :
    steps (unit 0x100 [0x93AE, 0, 0] [(26, 0x80), (27, 0x02)])
      [(0x27F, 0x7F), (26, 0x7F), (27, 0x02)] 0x0101 2 := by decide +kernel

/-- V95. -/
theorem test_stYInc :
    steps (unit 0x100 [0x9309, 0, 0] [(16, 0x12), (28, 0x05), (29, 0x00), (0x5F, 0x00)])
      [(5, 0x12), (28, 0x06), (29, 0x00), (0x5F, 0x00)] 0x0101 2 := by decide +kernel

/-- by hand from the rules. -/
theorem test_stYDec :
    steps (unit 0x100 [0x930A, 0, 0] [(16, 0x12), (28, 0x00), (29, 0x02)])
      [(0x1FF, 0x12), (28, 0xFF), (29, 0x01)] 0x0101 2 := by decide +kernel

/-- V97, by hand from the rules. -/
theorem test_stdY :
    stops (unit 0x100 [0x8309, 0, 0] [(16, 0x34), (28, 0xFF), (29, 0x08), (0x5F, 0x00)])
      (.addressRange .data 0x0900) ∧
    steps (unit 0x100 [0xAF0F, 0, 0] [(16, 0x12), (28, 0x00), (29, 0x02)])
      [(0x23F, 0x12), (28, 0x00), (29, 0x02)] 0x0101 2 := by decide +kernel

/-- by hand from the rules. -/
theorem test_stZInc :
    steps (unit 0x100 [0x9301, 0, 0] [(16, 0x12), (30, 0xFF), (31, 0x02)])
      [(0x2FF, 0x12), (30, 0x00), (31, 0x03)] 0x0101 2 := by decide +kernel

/-- V96. -/
theorem test_stZDec :
    steps (unit 0x100 [0x9302, 0, 0] [(16, 0x12), (30, 0x00), (31, 0x09), (0x5F, 0x00)])
      [(30, 0xFF), (31, 0x08), (0x8FF, 0x12), (0x5F, 0x00)] 0x0101 2 := by decide +kernel

/-- V98. -/
theorem test_stdZ :
    steps (unit 0x100 [0x8301, 0, 0] [(16, 0x08), (30, 0x5D), (31, 0x00), (0x5F, 0x00), (0x5D, 0xFF), (0x5E, 0x08)])
      [(0x5F, 0x00), (0x5D, 0xFF), (0x5E, 0x08)] 0x0101 2 := by decide +kernel

/-- V99, V100. -/
theorem test_lds :
    steps (unit 0x100 [0x9000, 0x005F, 0, 0] [(0x5F, 0xA5)])
      [(0, 0xA5), (0x5F, 0xA5)] 0x0102 2 ∧
    stops (unit 0x100 [0x9000, 0xFFFF, 0, 0] [(0x5F, 0x00)])
      (.addressRange .data 0xFFFF) := by decide +kernel

/-- V101, V102. -/
theorem test_sts :
    steps (unit 0x100 [0x9300, 0x08FF, 0, 0] [(16, 0xEE), (0x5F, 0x00)])
      [(0x8FF, 0xEE), (0x5F, 0x00)] 0x0102 2 ∧
    stops (unit 0x100 [0x9300, 0x0900, 0, 0] [(16, 0xEE), (0x5F, 0x00)])
      (.addressRange .data 0x0900) := by decide +kernel

/-- V103, V104. -/
theorem test_push :
    steps (unit 0x100 [0x920F, 0, 0] [(0, 0x77), (0x5F, 0x00), (0x5D, 0xFF), (0x5E, 0x08)])
      [(0x8FE, 0x77), (0x8FF, 0x00), (0x5F, 0x00), (0x5D, 0xFE), (0x5E, 0x08)] 0x0101 2 ∧
    stops (unit 0x100 [0x920F, 0, 0] [(0, 0x77), (0x5F, 0x00), (0x5D, 0x00), (0x5E, 0x00)])
      (.addressRange .data 0xFFFF) := by decide +kernel

/-- V106, V107. -/
theorem test_pop :
    steps (unit 0x100 [0x900F, 0, 0] [(0x8FE, 0x66), (0x5F, 0x00), (0x5D, 0xFE), (0x5E, 0x08)])
      [(0, 0x66), (0x5F, 0x00), (0x5D, 0xFF), (0x5E, 0x08)] 0x0101 2 ∧
    stops (unit 0x100 [0x900F, 0, 0] [(0x5F, 0x00), (0x5D, 0x00), (0x5E, 0x09)])
      (.addressRange .data 0x0900) := by decide +kernel

/-- V108, V109. -/
theorem test_inp :
    steps (unit 0x100 [0xB60D, 0, 0] [(0x5F, 0x00), (0x5D, 0xFF), (0x5E, 0x08)])
      [(0, 0xFF), (0x5F, 0x00), (0x5D, 0xFF), (0x5E, 0x08)] 0x0101 1 ∧
    steps (unit 0x100 [0xB60E, 0, 0] [(0x5F, 0x00), (0x5D, 0xFF), (0x5E, 0x08)])
      [(0, 0x08), (0x5F, 0x00), (0x5D, 0xFF), (0x5E, 0x08)] 0x0101 1 := by decide +kernel

/-- V110, V111. -/
theorem test_out :
    steps (unit 0x100 [0xBF0E, 0, 0] [(16, 0x04), (0x5F, 0x00), (0x5D, 0xFF), (0x5E, 0x08)])
      [(0x5F, 0x00), (0x5D, 0xFF), (0x5E, 0x04)] 0x0101 1 ∧
    steps (unit 0x100 [0xBF0F, 0, 0] [(16, 0xFF), (0x5F, 0x00)])
      [(0x5F, 0xFF)] 0x0101 1 := by decide +kernel

/-- V113. -/
theorem test_lpm :
    steps (unit 0x100 [0x95C8, 0, 0] [(30, 0x00), (31, 0x02), (0x5F, 0x00)])
      [(0, 0xC8), (0x5F, 0x00)] 0x0101 3 := by decide +kernel

/-- V114. -/
theorem test_lpmZ :
    steps (unit 0x100 [0x9014, 0, 0] [(30, 0x01), (31, 0x02), (0x5F, 0x00)])
      [(1, 0x90), (0x5F, 0x00)] 0x0101 3 := by decide +kernel

/-- V115, by hand from the rules. -/
theorem test_lpmZInc :
    stops (unit 0x100 [0x9015, 0, 0] [(30, 0xFF), (31, 0xFF), (0x5F, 0x00)])
      (.addressRange .program 0x7FFF) ∧
    steps (unit 0x100 [0x9015, 0, 0] [(30, 0x01), (31, 0x02)])
      [(1, 0x90), (30, 0x02), (31, 0x02)] 0x0101 3 := by decide +kernel

/-! ## One step: bits and MCU control -/

/-- V116. -/
theorem test_bset :
    steps (unit 0x100 [0x9478, 0, 0] [(0x5F, 0x00)])
      [(0x5F, 0x80)] 0x0101 1 := by decide +kernel

/-- V117, V118. -/
theorem test_bclr :
    steps (unit 0x100 [0x94F8, 0, 0] [(0x5F, 0x80)]) [(0x5F, 0x00)] 0x0101 1 ∧
    steps (unit 0x100 [0x9488, 0, 0] [(0x5F, 0xFF)])
      [(0x5F, 0xFE)] 0x0101 1 := by decide +kernel

/-- V119, V120. -/
theorem test_bst :
    steps (unit 0x100 [0xFA07, 0, 0] [(0, 0x80), (0x5F, 0x00)]) [(0x5F, 0x40)] 0x0101 1 ∧
    steps (unit 0x100 [0xFA00, 0, 0] [(0, 0xFE), (0x5F, 0xFF)])
      [(0x5F, 0xBF)] 0x0101 1 := by decide +kernel

/-- V121, V122. -/
theorem test_bld :
    steps (unit 0x100 [0xF800, 0, 0] [(0, 0x00), (0x5F, 0x40)])
      [(0, 0x01), (0x5F, 0x40)] 0x0101 1 ∧
    steps (unit 0x100 [0xF804, 0, 0] [(0, 0xFF), (0x5F, 0xBF)])
      [(0, 0xEF), (0x5F, 0xBF)] 0x0101 1 := by decide +kernel

/-- V123. -/
theorem test_sbi :
    steps (unit 0x100 [0x9AFF, 0, 0] [(0x3F, 0x00), (0x5F, 0x00)])
      [(0x3F, 0x80), (0x5F, 0x00)] 0x0101 2 := by decide +kernel

/-- V124. -/
theorem test_cbi :
    steps (unit 0x100 [0x9800, 0, 0] [(0x20, 0xFF), (0x5F, 0x00)])
      [(0x20, 0xFE), (0x5F, 0x00)] 0x0101 2 := by decide +kernel

/-- V125. -/
theorem test_nop :
    steps (unit 0x100 [0x0000, 0, 0] [(0x5F, 0xFF)])
      [(0x5F, 0xFF)] 0x0101 1 := by decide +kernel

/-- V126. -/
theorem test_wdr :
    steps (unit 0x100 [0x95A8, 0, 0] [(0x5F, 0xFF)])
      [(0x5F, 0xFF)] 0x0101 1 := by decide +kernel

/-- V127. -/
theorem test_sleep :
    stops (unit 0x100 [0x9588, 0, 0] [(0x5F, 0x00)])
      (.decode 0x9588 0x0100) := by decide +kernel

/-- V128. -/
theorem test_brk :
    stops (unit 0x100 [0x9598, 0, 0] [(0x5F, 0x00)])
      (.decode 0x9598 0x0100) := by decide +kernel

/-- V129. -/
theorem test_spm :
    stops (unit 0x100 [0x95E8, 0, 0] [(0x5F, 0x00)])
      (.decode 0x95E8 0x0100) := by decide +kernel
/-! ## The engine, hooks and reset -/

/-- A unit at `pc` 0x0123 with NOPs there, `SREG`, and the vectors pending. -/
def pending (sreg : Byte) (vs : List Nat) : State :=
  { unit 0x0123 [0x0000, 0x0000] [(0x5F, sreg)] with pend := vs.foldl pendRaise State.reset.pend }

def leftPending (s : State) : Option (List Bool) :=
  match step s with
  | .next t => some t.pend
  | .fault _ => none
  | .refused _ => none

/-- A step reaches just this state. -/
def reaches (s t : State) : Bool :=
  match step s with
  | .next u => u == t
  | .fault _ => false
  | .refused _ => false

/-- E1. -/
theorem test_wait_step :
    reaches { pending 0x80 [0] with wait := 3, total := 10 }
      { pending 0x80 [0] with wait := 2, total := 11 } := by decide +kernel

/-- E2, E5 (vector 0 is a vector). -/
theorem test_interrupt_step :
    steps (pending 0x80 [5]) [(0x8FE, 0x01), (0x8FD, 0x23), (0x5D, 0xFD), (0x5E, 0x08), (0x5F, 0x00)] 0x000A 4 ∧
    leftPending (pending 0x80 [5]) = some State.reset.pend ∧
    steps (pending 0x80 [0]) [(0x8FE, 0x01), (0x8FD, 0x23), (0x5D, 0xFD), (0x5E, 0x08)] 0x0000 4 := by
  decide +kernel

/-- E3, E4. -/
theorem test_no_interrupt :
    steps (pending 0x00 [5]) [] 0x0124 1 ∧
    leftPending (pending 0x00 [5]) = some (pendRaise State.reset.pend 5) ∧
    steps (pending 0x80 []) [(0x5F, 0x80)] 0x0124 1 := by decide +kernel

/-- E6, E7. -/
theorem test_interrupt_priority :
    steps (pending 0x80 [25, 3, 7]) [] 0x0006 4 ∧
    leftPending (pending 0x80 [25, 3, 7]) = some (pendRaise (pendRaise State.reset.pend 7) 25) ∧
    steps (pending 0xFF [1]) [(0x5F, 0x7F)] 0x0002 4 := by decide +kernel

/-- E8, E9. -/
theorem test_step_faults :
    stops { pending 0x80 [1] with mem := (State.reset.mem.pokes 0x900 [(0x5F, 0x80), (0x5D, 1), (0x5E, 0)]) }
      (.addressRange .data 0xFFFF) ∧
    stops (unit 0x0102 [] []) (.addressRange .program 0x0102) := by decide +kernel

/-- E13, E14, E15. -/
theorem test_raise_and_clear :
    pendRaise State.reset.pend 26 = State.reset.pend ∧
    leftPending (pending 0x80 [4, 4]) = some State.reset.pend ∧
    pendActs State.reset.pend [.raise 4, .clear 4] = State.reset.pend := by decide +kernel

/-- The refusal of an image. -/
def refusedImage (image : List Byte) : Option Fault :=
  match resetUnit defaultPlatform image with
  | .ok _ => none
  | .error f => some f

/-- The program store after a reset. -/
def imageWords (image : List Byte) : Option (List Word) :=
  match resetUnit defaultPlatform image with
  | .ok s => some s.prog
  | .error _ => none

/-- E16 to E19. -/
theorem test_images :
    refusedImage [0, 0, 0] = some (.configuration .oddLength) ∧
    refusedImage [] = some (.configuration .empty) ∧ imageWords [0, 0] = some [0x0000] ∧
    imageWords [0x0C, 0x94, 0x34, 0x12] = some [0x940C, 0x1234] := by decide +kernel

/-- Reset by hand from R37 and R6: `SP` is 0x08FF, `SREG` 0, `pc` 0. -/
theorem test_reset :
    State.reset.sp = 0x08FF ∧ State.reset.sreg = 0 ∧ State.reset.pc = 0 ∧
    State.reset.pend.length = 26 ∧ State.reset.mem = [(0x5D, 0xFF), (0x5E, 0x08)] := by decide +kernel

/-- A unit with hooks at 0x0100 and 0x0101: reads answer 0x5A; a write is ignored but for the peripheral
state, which the address's hook shifts the value into. -/
def hooked : State :=
  { unit 0x100 [0x9300, 0x0100, 0x9110, 0x0100] [(16, 0x77)] with
    plat := [0, 0]
    rdHooks := registerHook (registerHook [] 0x100 (some (.script [] (.lit 0x11)))) 0x100
      (some (.script [] (.lit 0x5A)))
    wrHooks := [(0x100, .script [.setPlat 0 .written, .raise 3] (.lit 0)),
      (0x101, .script [.setPlat 1 (.add .written (.platAt 0))] (.lit 0))] }

/-- E20, E23: the last hook registered answers, and the stored byte stays. -/
theorem test_read_hook :
    answers (memRead 0x100 hooked) 0x5A [(0x100, 0x00)] ∧
    answers (memRead 0x102 hooked) 0x00 [] := by decide +kernel

/-- The peripheral state a write leaves. -/
def platAfter (r : Except Fault (Unit × State)) : Plat × List Bool :=
  match r with
  | .ok (_, t) => (t.plat, t.pend)
  | .error _ => ([], [])

/-- E21, E22: the write hook is the whole effect; a word write calls the low byte's hook first (0xBE +
0xEF is 0xAD modulo 256). -/
theorem test_write_hook :
    answers (memWrite 0x100 0x77 hooked) () [(0x100, 0x00)] ∧
    platAfter (memWrite16 0x100 0xBEEF hooked) = ([0xEF, 0xAD], pendRaise State.reset.pend 3) := by
  decide +kernel

/-- S6. -/
theorem test_word_access :
    answers (memWrite16 0x100 0xBEEF State.reset) () [(0x100, 0xEF), (0x101, 0xBE)] ∧
    answers (memWrite16 0x101 0x1234 State.reset) () [(0x101, 0x34), (0x102, 0x12)] ∧
    answers (memRead16 0x5D State.reset) 0x08FF [] ∧
    memWrite16 0x8FF 0x1234 State.reset = .error (.addressRange .data 0x900) := by
  refine ⟨by decide +kernel, by decide +kernel, by decide +kernel, rfl⟩

/-- By hand from R330: a peripheral before the core raises a vector that the core takes in that tick, one
after the core does not. -/
theorem test_clock_order :
    steps { pending 0x80 [] with clock := { before := [.script [.raise 2] (.lit 0)], after := [] } } [] 0x0004 4 ∧
    steps { pending 0x80 [] with clock := { before := [], after := [.script [.raise 2] (.lit 0)] } } [] 0x0124 1 := by
  decide +kernel

/-- The host's two questions on one word of two words. -/
theorem test_withFetchWord :
    steps (State.reset.withFetchWord 32 0x1234940C) [] 0x1234 3 ∧
    steps (State.reset.withFetchWord 16 0xE00F) [(16, 0x0F)] 0x0001 1 := by decide +kernel

/-- By hand from R230: with `IO_BASE` = 0xFFF0, I/O location 0x10 is data address 0, which is r0. -/
theorem test_io_address_wraps :
    steps { unit 0x100 [0xB310] [(0, 0x5A)] with params := { Config.params with ioBase := 0xFFF0 } }
      [(17, 0x5A)] 0x0101 1 := by decide +kernel

/-- The table of S9, S9's two opcodes being 0x0001 and 0x0002: "no effect, return 1" and "`pc <- 0`,
return 2"; every other opcode is "no instruction". -/
def tableS9 : ITable :=
  { listed := [(0x0001, .own (.script [] (.lit 1))), (0x0002, .own (.script [.writePc (.lit 0)] (.lit 2)))]
    others := .own .noInstruction }

/-- S9 and E10 to E12: the period is 3 with the costs 1 and 2; an opcode outside the table faults. -/
theorem test_own_table :
    let s := { unit 0 [0x0001, 0x0002, 0x0000] [] with itable := tableS9 }
    steps s [] 0x0001 1 ∧ steps { s with pc := 1 } [] 0x0000 2 ∧
    stops { s with pc := 2 } (.decode 0x0000 0x0002) := by decide +kernel

/-- R290: SLEEP added to a table as a spin, `pc <- pc - 1`; a handler that stores through the data space, and
one that loads there and returns the byte as its cost; the other words stay `REF_ITABLE`'s. -/
theorem test_own_handlers :
    let s := { unit 0x100 [0x9588, 0xFFFF, 0x00FF, 0x0F01] [(16, 0x7F), (17, 0x01)] with
      itable :=
        { listed := [(0x9588, .own (.script [.readPc, .writePc (.sub (.answer 0) (.lit 1))] (.lit 1))),
            (0xFFFF, .own (.script [.memWrite (.lit 0x123) .opcode] (.lit 0))),
            (0x00FF, .own (.script [.memRead (.lit 17)] (.answer 0)))]
          others := .reference } }
    steps s [] 0x0100 1 ∧ steps { s with pc := 0x101 } [(0x123, 0xFF)] 0x0102 1 ∧
    steps { s with pc := 0x102 } [] 0x0103 1 ∧
    steps { s with pc := 0x103 } [(16, 0x80), (0x5F, 0x2C)] 0x0104 1 := by decide +kernel

/-! ## Witnesses

One named theorem for each obligation that has hypotheses: a state and operands that meet all of them,
each clause at a boundary of its range. -/

/-- Bytes for the witnesses: X, Y and Z at the last address of the data space, a little stack. -/
def demo : State :=
  unit 0x100 [0x0000, 0x0000, 0x940E, 0x0200]
    [(0, 0x80), (1, 0x80), (2, 0x7F), (26, 0xFF), (27, 0x08), (28, 0xFF), (29, 0x08), (30, 0xFF), (31, 0x08)]

theorem demo_inv : demo.Inv := ⟨by decide +kernel, by decide +kernel, by decide +kernel⟩

theorem plain_of_no_hooks {s : State} (h : s.Inv) (hr : s.rdHooks = []) (hw : s.wrHooks = []) : s.Plain :=
  ⟨h, by constructor <;> simp [hr, hw, hookAt]⟩

theorem demo_plain : demo.Plain := plain_of_no_hooks demo_inv rfl rfl

/-- `demo` with bytes set. -/
def demoWith (cells : List Host.Cell) : State := { demo with mem := demo.mem.pokes 0x900 cells }

theorem demoWith_plain (cells : List Host.Cell) (h : (demo.mem.pokes 0x900 cells).wf = true)
    (hb : (demo.mem.pokes 0x900 cells).below 0x900 = true) : (demoWith cells).Plain :=
  plain_of_no_hooks ⟨demo_inv.params, h, hb⟩ rfl rfl

/-- `demo` with `SP`. -/
def demoSp (lo hi : Byte) : State := demoWith [(0x5D, lo), (0x5E, hi)]

theorem witness_ResetGivesTheResetState :
    let pf := { defaultPlatform with connections := [⟨0x08FF, some (.free 0), some (.free 1)⟩] }
    pf.params.Ok ∧ ([0, 0] : List Byte).length % 2 = 0 ∧ 0 < ([0, 0] : List Byte).length ∧
      (List.replicate 131072 (0 : Byte)).length ≤ 131072 ∧
      ∀ c ∈ pf.connections, c.addr < pf.params.dataSize := by
  refine ⟨by decide, rfl, by decide, (List.length_replicate ..).le, by decide⟩

theorem witness_ResetRefusesMalformedUnits :
    ([0] : List Byte).length % 2 = 1 ∧ ([] : List Byte).length = 0 ∧
    ((List.replicate 131074 (0 : Byte)).length % 2 = 0 ∧ 131072 < (List.replicate 131074 (0 : Byte)).length) ∧
    let cs : List Connection := [⟨0x08FF, none, none⟩, ⟨0x0900, none, none⟩]
    let pf := { defaultPlatform with connections := cs }
    pf.connections = [⟨0x08FF, none, none⟩] ++ ⟨0x0900, none, none⟩ :: [] ∧
      (∀ d ∈ [(⟨0x08FF, none, none⟩ : Connection)], d.addr < pf.params.dataSize) ∧
      pf.params.dataSize ≤ (⟨0x0900, none, none⟩ : Connection).addr := by
  refine ⟨rfl, rfl, ⟨by rw [List.length_replicate], by rw [List.length_replicate]; decide⟩, rfl, by decide, by decide⟩

theorem witness_ProgramStoreIsTheImage :
    (∃ s, resetUnit defaultPlatform [0x0C, 0x94] = .ok s) ∧
    ([0x0C, 0x94] : List Byte)[2 * 0]? = some 0x0C ∧ ([0x0C, 0x94] : List Byte)[2 * 0 + 1]? = some 0x94 ∧
    ∃ t, step demo = .next t := by
  refine ⟨⟨_, rfl⟩, rfl, rfl, ⟨_, rfl⟩⟩

theorem witness_ResetStatesMeetTheInvariant :
    defaultPlatform.params.Ok ∧ ∃ s, resetUnit defaultPlatform [0, 0] = .ok s :=
  ⟨by decide, ⟨_, rfl⟩⟩

theorem witness_FirstStepAfterResetExecutesWordZero :
    defaultPlatform.params.Ok ∧
    ∃ s, resetUnit defaultPlatform [0x0C, 0x94] = .ok s ∧ hookAt s.rdHooks s.params.sregAddr = none :=
  ⟨by decide, ⟨_, rfl, rfl⟩⟩

/-- The last address, the first address beyond, a hooked one. -/
theorem witness_ByteReadMultiplexer :
    demo.params.dataSize ≤ 0x900 ∧ (0x8FF < demo.params.dataSize ∧ hookAt demo.rdHooks 0x8FF = none) ∧
    (0x100 < hooked.params.dataSize ∧ hookAt hooked.rdHooks 0x100 = some (.script [] (.lit 0x5A))) := by
  refine ⟨by decide, ⟨by decide, rfl⟩, by decide, rfl⟩

theorem hooked_inv : hooked.Inv := ⟨by decide +kernel, by decide +kernel, by decide +kernel⟩

theorem witness_ByteWriteMultiplexer :
    demo.Inv ∧ hooked.Inv ∧ demo.params.dataSize ≤ 0x900 ∧
    (0x8FF < demo.params.dataSize ∧ hookAt demo.wrHooks 0x8FF = none) ∧
    (0x100 < hooked.params.dataSize ∧
      hookAt hooked.wrHooks 0x100 = some (.script [.setPlat 0 .written, .raise 3] (.lit 0))) := by
  refine ⟨demo_inv, hooked_inv, by decide, ⟨by decide, rfl⟩, by decide, rfl⟩

theorem witness_WordAccessRoundTrip :
    demo.Inv ∧ 0x8FE + 1 < demo.params.dataSize ∧ 0x8FF + 1 = demo.params.dataSize ∧
    ∀ a, hookAt demo.wrHooks a = none ∧ hookAt demo.rdHooks a = none :=
  ⟨demo_inv, by decide, rfl, fun _ => ⟨rfl, rfl⟩⟩

theorem witness_StatusBitAccessorsRoundTrip :
    demo.Inv ∧ hookAt demo.rdHooks demo.params.sregAddr = none ∧
    hookAt demo.wrHooks demo.params.sregAddr = none ∧ (7 : BitIx) ≠ 0 :=
  ⟨demo_inv, rfl, rfl, by decide⟩

/-- `SP` at 0x900 is the highest that pushes, at 0x8FF the highest that pops; 0 and 0x901, and 0x900, fault. -/
theorem witness_PushAndPopAreInverse :
    (demoSp 0x00 0x09).Plain ∧ ((demoSp 0x00 0x09).sp - 1).toNat < demo.params.dataSize ∧
    demo.params.dataSize ≤ (demoSp 0x00 0x09).sp.toNat ∧
    (demoSp 0x00 0x00).Plain ∧ demo.params.dataSize ≤ ((demoSp 0x00 0x00).sp - 1).toNat ∧
    (demoSp 0xFF 0x08).Plain ∧ (demoSp 0xFF 0x08).sp.toNat < demo.params.dataSize ∧
    ((demoSp 0x00 0x09).sp - 1).toNat ≠ demo.params.spAddr ∧
    ((demoSp 0x00 0x09).sp - 1).toNat ≠ demo.params.spAddr + 1 := by
  refine ⟨demoWith_plain _ (by decide +kernel) (by decide +kernel), by decide +kernel, by decide +kernel,
    demoWith_plain _ (by decide +kernel) (by decide +kernel), by decide +kernel,
    demoWith_plain _ (by decide +kernel) (by decide +kernel), by decide +kernel, by decide +kernel,
    by decide +kernel⟩

theorem witness_WaitStepOnlyCounts :
    { demo with wait := 1 }.halted = none ∧ { demo with wait := 1 }.wait ≠ 0 := ⟨rfl, by decide⟩

theorem witness_WaitRunsDown :
    demo.clock = { before := [], after := [] } ∧ demo.halted = none ∧ 3 ≤ { demo with wait := 3 }.wait :=
  ⟨rfl, rfl, by decide⟩

/-- `demo` with I set and the last vector pending. -/
def demoIrq : State := { demoWith [(0x5F, 0x80)] with pend := pendRaise State.reset.pend 25 }

theorem demoIrq_plain : demoIrq.Plain :=
  plain_of_no_hooks ⟨demo_inv.params, by decide +kernel, by decide +kernel⟩ rfl rfl

theorem demoIrq_stack : StackOpen demoIrq := by
  refine ⟨by decide +kernel, ⟨rfl, rfl⟩, ?_⟩
  rintro a (rfl | rfl) <;> decide +kernel

theorem witness_InterruptEntryNetEffect :
    demoIrq.Plain ∧ demoIrq.halted = none ∧ demoIrq.wait = 0 ∧ demoIrq.flag .i = true ∧
    demoIrq.pend[25]? = some true ∧ (∀ u < 25, demoIrq.pend[u]? = some false) ∧ StackOpen demoIrq :=
  ⟨demoIrq_plain, rfl, rfl, by decide +kernel, by decide +kernel, by decide +kernel, demoIrq_stack⟩

theorem witness_InterruptsNeedTheEnableAndAPendingVector :
    (demo.Plain ∧ demo.halted = none ∧ demo.wait = 0 ∧ demo.flag .i = false ∧ firstPending demo.pend = none) ∧
    (demoIrq.Plain ∧ demoIrq.halted = none ∧ demoIrq.wait = 0 ∧ demoIrq.flag .i = true ∧
      firstPending demoIrq.pend = some 25) :=
  ⟨⟨demo_plain, rfl, rfl, by decide +kernel, by decide +kernel⟩,
    ⟨demoIrq_plain, rfl, rfl, by decide +kernel, by decide +kernel⟩⟩

theorem demo_executes : Executes demo := ⟨rfl, rfl, demo_plain, .inl (by decide +kernel)⟩

/-- A two-word instruction in the last words of the image. -/
theorem witness_StepRunsTheDecodedInstruction :
    let s := { demo with pc := 0x102 }
    Executes (stepPeripherals s.clock.before s) ∧ decodeWords [0x940E, 0x0200] = .ok (.call 0x0200, []) ∧
    (∀ k < 2, progWord s (s.pc + BitVec.ofNat 16 k) = ([0x940E, 0x0200] : List Word)[k]?) ∧
    ∀ op, ([0x940E, 0x0200] : List Word).head? = some op → s.itable.entry op = .reference := by
  exact ⟨⟨rfl, rfl, plain_of_no_hooks ⟨demo_inv.params, demo_inv.memWf, demo_inv.memBelow⟩ rfl rfl,
    .inl (by decide +kernel)⟩, rfl, by decide +kernel, fun _ _ => rfl⟩

/-- `demo` with a table of its own: a handler that completes and one that faults. -/
def demoTable : State :=
  { demo with
    itable :=
      { listed := [(0x0000, .own (.script [.writePc (.lit 0x200)] (.lit 3)))]
        others := .own (.script [.memRead (.lit 0x900)] (.lit 1)) } }

theorem demoTable_executes (pc : Word) : Executes { demoTable with pc := pc } :=
  ⟨rfl, rfl, plain_of_no_hooks ⟨demo_inv.params, demo_inv.memWf, demo_inv.memBelow⟩ rfl rfl,
    .inl (show demo.flag .i = false by decide +kernel)⟩

theorem witness_TheUnitsTableDecidesTheExecuteStep :
    (∃ h p, Executes { demoTable with pc := 0x100 } ∧
      progWord { demoTable with pc := 0x100 } 0x100 = some 0x0000 ∧
      demoTable.itable.entry 0x0000 = .own h ∧ ownProg h 0x0000 = some p ∧
      ∃ k t, runProg p { demoTable with pc := 0x101 } = .ok (k, t)) ∧
    (∃ h p, Executes { demoTable with pc := 0x102 } ∧
      progWord { demoTable with pc := 0x102 } 0x102 = some 0x940E ∧
      demoTable.itable.entry 0x940E = .own h ∧ ownProg h 0x940E = some p ∧
      runProg p { demoTable with pc := 0x103 } = .error (.addressRange .data 0x900)) :=
  ⟨⟨_, _, demoTable_executes _, by decide +kernel, rfl, rfl, _, _, rfl⟩,
    ⟨_, _, demoTable_executes _, by decide +kernel, rfl, rfl, rfl⟩⟩

theorem witness_OpcodeWithoutInstructionFaults :
    let s := { demo with prog := List.replicate 0x100 0 ++ [0x00FF] }
    Executes s ∧ progWord s s.pc = some 0x00FF ∧ NoInstruction s.itable 0x00FF ∧
    NoInstruction s.itable 0x9588 ∧ NoInstruction tableS9 0x0000 := by
  refine ⟨⟨rfl, rfl, plain_of_no_hooks ⟨demo_inv.params, demo_inv.memWf, demo_inv.memBelow⟩ rfl rfl,
    .inl (by decide +kernel)⟩, by decide +kernel, .inl rfl, .inr (.inl rfl), rfl⟩

theorem witness_FetchOutsideTheImageFaults :
    (Executes { demo with pc := 0x104 } ∧ demo.prog.length ≤ 0x104) ∧
    (let s := { demo with pc := 0x103, prog := List.replicate 0x103 0 ++ [0x9000] }
     Executes s ∧ progWord s s.pc = some 0x9000 ∧ isTwoWord 0x9000 = true ∧
       s.itable.entry 0x9000 = .reference ∧ s.prog.length ≤ (s.pc + 1).toNat) := by
  refine ⟨⟨⟨rfl, rfl, plain_of_no_hooks ⟨demo_inv.params, demo_inv.memWf, demo_inv.memBelow⟩ rfl rfl,
    .inl (by decide +kernel)⟩, by decide +kernel⟩, ⟨rfl, rfl,
    plain_of_no_hooks ⟨demo_inv.params, demo_inv.memWf, demo_inv.memBelow⟩ rfl rfl, .inl (by decide +kernel)⟩,
    by decide +kernel, by decide, rfl, by decide +kernel⟩

theorem witness_FaultsAreLatched :
    step { demo with pc := 0xFFFF } = .fault (.addressRange .program 0xFFFF) := rfl

theorem witness_HandlersFaultOnlyOutsideTheSpaces :
    exec .sleep demo = .fault (.decode 0x9588 0x00FF) ∧
    exec (.lds 0 0x900) demo = .fault (.addressRange .data 0x900) ∧
    exec .lpm (demoWith [(30, 0xFF), (31, 0xFF)]) = .fault (.addressRange .program 0x7FFF) ∧
    runProg (.memRead 0x900 fun _ => .done 1) demo = .error (.addressRange .data 0x900) ∧
    runProg (.fetch 0x104 fun _ => .done 1) demo = .error (.addressRange .program 0x104) :=
  ⟨rfl, rfl, rfl, rfl, rfl⟩

theorem witness_HandlersKeepTheEngineState :
    (∃ t, exec (.inc 0) demo = .next t) ∧ demo.rdHooks = [] ∧ demo.wrHooks = [] ∧
    (∃ t, exec (.sts 0x100 16) hooked = .next t) ∧
    ∃ t, runProg (.memWrite 0x100 0x77 (.done 3)) hooked = .ok (3, t) :=
  ⟨⟨_, rfl⟩, rfl, rfl, ⟨_, rfl⟩, ⟨_, rfl⟩⟩

theorem witness_OnlyControlTransfersMoveThePc :
    movesPc (.inc 0) = false ∧ ∃ t, exec (.inc 0) demo = .next t := ⟨rfl, ⟨_, rfl⟩⟩

theorem witness_StepKeepsTheInvariant :
    demo.Inv ∧ (∃ t, step demo = .next t) ∧ hooked.Inv ∧ ∃ t, step hooked = .next t :=
  ⟨demo_inv, ⟨_, rfl⟩, hooked_inv, ⟨_, rfl⟩⟩

theorem witness_StepKeepsTheConfiguration : ∃ t, step hooked = .next t := ⟨_, rfl⟩

/-- The state after the interrupt step of `demoIrq`. -/
def demoIrqTaken : State :=
  { demoIrq with
    pc := 50
    wait := 4
    pend := State.reset.pend
    mem := demoIrq.mem.pokes 0x900 [(0x8FE, 0x01), (0x8FD, 0x00), (0x5D, 0xFD), (0x5F, 0x00)] }

theorem demoIrqTaken_plain : demoIrqTaken.Plain :=
  plain_of_no_hooks ⟨demo_inv.params, by decide +kernel, by decide +kernel⟩ rfl rfl

theorem witness_ReturnUndoesInterruptEntry :
    demoIrq.Plain ∧ StackOpen demoIrq ∧ interruptStep 25 demoIrq = .next demoIrqTaken ∧
    demoIrqTaken.Plain ∧ SameUnit demoIrqTaken demoIrqTaken ∧
    hookAt demoIrq.rdHooks (demoIrq.sp - 1).toNat = none ∧
    hookAt demoIrq.rdHooks (demoIrq.sp - 2).toNat = none :=
  ⟨demoIrq_plain, demoIrq_stack, by rfl, demoIrqTaken_plain, ⟨rfl, rfl, rfl, rfl, rfl, rfl⟩, rfl, rfl⟩

theorem witness_DecodeOfEncode : wellFormed (.fmulsu 23 23) = true ∧ wellFormed (.jmp 0x3FFFFF) = true := by
  decide

theorem witness_EncodeOfDecode : decodeWords [0x95FD, 0xFFFF, 0x0000] = .ok (.jmp 0x3FFFFF, [0x0000]) := rfl

theorem witness_TwoWordOpcodes :
    wellFormed (.lds 31 0xFFFF) = true ∧ wellFormed (.pop 31) = true ∧ isTwoWord 0x95FF = true := by
  decide

/-- All the statements about register and flag results in plain states. -/
theorem witness_AddResults : demo.Plain := demo_plain
theorem witness_SubtractResults : demo.Plain ∧ 16 ≤ (16 : Reg).val ∧ 16 ≤ (31 : Reg).val :=
  ⟨demo_plain, by decide, by decide⟩
theorem witness_CompareResults : demo.Plain ∧ 16 ≤ (16 : Reg).val ∧ 16 ≤ (31 : Reg).val :=
  ⟨demo_plain, by decide, by decide⟩
theorem witness_LogicResults : demo.Plain ∧ 16 ≤ (16 : Reg).val ∧ 16 ≤ (31 : Reg).val :=
  ⟨demo_plain, by decide, by decide⟩
theorem witness_OneRegisterResults : demo.Plain := demo_plain
theorem witness_ShiftResults : demo.Plain := demo_plain
theorem witness_WordImmediateResults :
    demo.Plain ∧ (24 : Reg).val ∈ [24, 26, 28, 30] ∧ (30 : Reg).val ∈ [24, 26, 28, 30] :=
  ⟨demo_plain, by decide, by decide⟩
theorem witness_MultiplyResults :
    demo.Plain ∧ (16 ≤ (31 : Reg).val ∧ 16 ≤ (16 : Reg).val) ∧ 16 ≤ (23 : Reg).val ∧ (23 : Reg).val < 24 :=
  ⟨demo_plain, by decide, by decide, by decide⟩
theorem witness_MoveResults :
    demo.Plain ∧ ((30 : Reg).val % 2 = 0 ∧ (0 : Reg).val % 2 = 0) ∧ 16 ≤ (16 : Reg).val :=
  ⟨demo_plain, by decide, by decide⟩

/-- X, Y and Z are at the last address, and a displacement of 1, the decremented zero, and 0x900 lie
beyond. -/
theorem demo_pointers :
    (∀ p, (demo.ptr p).toNat < demo.params.dataSize) ∧
    (∀ p, demo.params.dataSize ≤ (demo.ptr p + (1 : BitVec 6).zeroExtend 16).toNat) ∧
    (∀ p, demo.params.dataSize ≤
      (({ demo with mem := [] } : State).ptr p - 1).toNat) ∧
    ∀ p, demo.params.dataSize ≤ ((demoWith [(26, 0), (27, 9), (28, 0), (29, 9), (30, 0), (31, 9)]).ptr p).toNat := by
  refine ⟨?_, ?_, ?_, ?_⟩ <;> intro p <;> cases p <;> decide +kernel

theorem zero_plain : ({ demo with mem := [] } : State).Plain :=
  plain_of_no_hooks ⟨demo_inv.params, by decide, by decide⟩ rfl rfl

theorem beyond_plain : (demoWith [(26, 0), (27, 9), (28, 0), (29, 9), (30, 0), (31, 9)]).Plain :=
  demoWith_plain _ (by decide +kernel) (by decide +kernel)

theorem witness_LoadResults :
    demo.Plain ∧ (demo.ptr .x).toNat < demo.params.dataSize ∧
    demo.params.dataSize ≤ (demo.ptr .y + (1 : BitVec 6).zeroExtend 16).toNat ∧
    (demo.ptr .z + (0 : BitVec 6).zeroExtend 16).toNat < demo.params.dataSize ∧
    (0x08FF : Word).toNat < demo.params.dataSize ∧ demo.params.dataSize ≤ (0x0900 : Word).toNat :=
  ⟨demo_plain, demo_pointers.1 .x, demo_pointers.2.1 .y, by decide +kernel, by decide, by decide⟩

theorem witness_StoreResults :
    demo.Plain ∧ (demo.ptr .x).toNat < demo.params.dataSize ∧
    demo.params.dataSize ≤ (demo.ptr .z + (1 : BitVec 6).zeroExtend 16).toNat ∧
    (demo.ptr .y + (0 : BitVec 6).zeroExtend 16).toNat < demo.params.dataSize ∧
    (0x08FF : Word).toNat < demo.params.dataSize ∧ demo.params.dataSize ≤ (0x0900 : Word).toNat :=
  ⟨demo_plain, demo_pointers.1 .x, demo_pointers.2.1 .z, by decide +kernel, by decide, by decide⟩

theorem witness_LoadAndUpdateResults :
    demo.Plain ∧ (∀ p, (demo.ptr p).toNat < demo.params.dataSize) ∧
    (∀ p, (demo.ptr p - 1).toNat < demo.params.dataSize) ∧
    ({ demo with mem := [] } : State).Plain ∧
    (∀ p, demo.params.dataSize ≤ (({ demo with mem := [] } : State).ptr p - 1).toNat) ∧
    (demoWith [(26, 0), (27, 9), (28, 0), (29, 9), (30, 0), (31, 9)]).Plain ∧
    ∀ p, demo.params.dataSize ≤ ((demoWith [(26, 0), (27, 9), (28, 0), (29, 9), (30, 0), (31, 9)]).ptr p).toNat :=
  ⟨demo_plain, demo_pointers.1, fun p => by cases p <;> decide +kernel, zero_plain, demo_pointers.2.2.1,
    beyond_plain, demo_pointers.2.2.2⟩

theorem witness_StoreAndUpdateResults :
    demo.Plain ∧ (∀ p, (demo.ptr p).toNat < demo.params.dataSize) ∧
    (∀ p, (demo.ptr p - 1).toNat < demo.params.dataSize) ∧
    ({ demo with mem := [] } : State).Plain ∧
    (∀ p, demo.params.dataSize ≤ (({ demo with mem := [] } : State).ptr p - 1).toNat) ∧
    (demoWith [(26, 0), (27, 9), (28, 0), (29, 9), (30, 0), (31, 9)]).Plain ∧
    ∀ p, demo.params.dataSize ≤ ((demoWith [(26, 0), (27, 9), (28, 0), (29, 9), (30, 0), (31, 9)]).ptr p).toNat :=
  witness_LoadAndUpdateResults

theorem witness_PushAndPopResults :
    ((demoSp 0x00 0x09).Plain ∧ ((demoSp 0x00 0x09).sp - 1).toNat < demo.params.dataSize ∧
      demo.params.dataSize ≤ (demoSp 0x00 0x09).sp.toNat) ∧
    ((demoSp 0x00 0x00).Plain ∧ demo.params.dataSize ≤ ((demoSp 0x00 0x00).sp - 1).toNat ∧
      (demoSp 0x00 0x00).sp.toNat < demo.params.dataSize) :=
  ⟨⟨demoWith_plain _ (by decide +kernel) (by decide +kernel), by decide +kernel, by decide +kernel⟩,
    demoWith_plain _ (by decide +kernel) (by decide +kernel), by decide +kernel, by decide +kernel⟩

/-- `demo` with the I/O space at the end of the data space: location 0 exists, location 1 does not. -/
def demoIo : State := { demo with params := { demo.params with ioBase := 0x8FF } }

theorem demoIo_plain : demoIo.Plain :=
  plain_of_no_hooks ⟨by decide, demo_inv.memWf, demo_inv.memBelow⟩ rfl rfl

theorem witness_IoResults :
    demoIo.Plain ∧ (demoIo.params.ioBase + (0 : Fin 64).val) % 65536 < demoIo.params.dataSize ∧
    demoIo.params.dataSize ≤ (demoIo.params.ioBase + (1 : Fin 64).val) % 65536 ∧
    (demoIo.params.ioBase + (0 : Fin 32).val) % 65536 < demoIo.params.dataSize ∧
    demoIo.params.dataSize ≤ (demoIo.params.ioBase + (1 : Fin 32).val) % 65536 :=
  ⟨demoIo_plain, by decide, by decide, by decide, by decide⟩

/-- Z at the last byte of the image and one beyond. -/
theorem witness_ProgramLoadResults :
    ((demoWith [(30, 0x07), (31, 0x02)]).Plain ∧
      demo.prog[((demoWith [(30, 0x07), (31, 0x02)]).ptr .z).toNat / 2]? = some 0x0200) ∧
    ((demoWith [(30, 0x08), (31, 0x02)]).Plain ∧
      demo.prog.length ≤ ((demoWith [(30, 0x08), (31, 0x02)]).ptr .z).toNat / 2) :=
  ⟨⟨demoWith_plain _ (by decide +kernel) (by decide +kernel), by decide +kernel⟩,
    demoWith_plain _ (by decide +kernel) (by decide +kernel), by decide +kernel⟩

theorem witness_JumpResults : demo.Plain := demo_plain

theorem demo_stack : StackOpen demo := by
  refine ⟨by decide +kernel, ⟨rfl, rfl⟩, ?_⟩
  rintro a (rfl | rfl) <;> decide +kernel

/-- The open stack; two pushes that fit; the first and the second push out of range. -/
theorem witness_JmpAndCallResults :
    demo.Plain ∧ StackOpen demo ∧
    (∃ m u, push8 (highByte demo.pc) demo = .ok ((), m) ∧ push8 (lowByte demo.pc) m = .ok ((), u)) ∧
    push8 (highByte demo.pc) (demoSp 0x00 0x00) = .error (.addressRange .data 0xFFFF) ∧
    ∃ m, push8 (highByte demo.pc) (demoSp 0x01 0x00) = .ok ((), m) ∧
      push8 (lowByte demo.pc) m = .error (.addressRange .data 0xFFFF) :=
  ⟨demo_plain, demo_stack, ⟨_, _, rfl, rfl⟩, rfl, ⟨_, rfl, rfl⟩⟩

/-- `SP` at 0x8FE pops two bytes, at 0x8FF one, at 0x900 none. -/
theorem witness_ReturnResults :
    ((demoSp 0xFE 0x08).Plain ∧ (demoSp 0xFE 0x08).sp.toNat < demo.params.dataSize ∧
      ((demoSp 0xFE 0x08).sp + 1).toNat < demo.params.dataSize) ∧
    (demo.Plain ∧ demo.sp.toNat < demo.params.dataSize ∧ demo.params.dataSize ≤ (demo.sp + 1).toNat) ∧
    ((demoSp 0x00 0x09).Plain ∧ demo.params.dataSize ≤ (demoSp 0x00 0x09).sp.toNat) ∧
    ∀ a, hookAt demo.rdHooks a = none :=
  ⟨⟨demoWith_plain _ (by decide +kernel) (by decide +kernel), by decide +kernel, by decide +kernel⟩,
    ⟨demo_plain, by decide +kernel, by decide +kernel⟩,
    ⟨demoWith_plain _ (by decide +kernel) (by decide +kernel), by decide +kernel⟩, fun _ => rfl⟩

theorem witness_BranchResults :
    demo.Plain ∧ demo.sreg.getLsbD (0 : BitIx).val = false ∧
    (demoWith [(0x5F, 0x80)]).Plain ∧ (demoWith [(0x5F, 0x80)]).sreg.getLsbD (7 : BitIx).val = true :=
  ⟨demo_plain, by decide +kernel, demoWith_plain _ (by decide +kernel) (by decide +kernel), by decide +kernel⟩

/-- Taken and not taken, before a one-word and a two-word instruction and at the end of the image; the
I/O location in range and not. -/
theorem witness_SkipResults :
    demo.Plain ∧ demo.reg 0 = demo.reg 1 ∧ demo.reg 0 ≠ demo.reg 2 ∧
    (demo.reg 0).getLsbD (0 : BitIx).val = false ∧ (demo.reg 0).getLsbD (7 : BitIx).val = true ∧
    (progWord demo demo.pc = some 0x0000 ∧ isTwoWord 0x0000 = false) ∧
    (progWord { demo with pc := 0x102 } 0x102 = some 0x940E ∧ isTwoWord 0x940E = true) ∧
    progWord { demo with pc := 0x104 } 0x104 = none ∧
    demoIo.Plain ∧ (demoIo.params.ioBase + (0 : Fin 32).val) % 65536 < demoIo.params.dataSize ∧
    demoIo.params.dataSize ≤ (demoIo.params.ioBase + (1 : Fin 32).val) % 65536 ∧
    (∃ v u, ReadAt demo 0x20 v u) := by
  refine ⟨demo_plain, by decide +kernel, by decide +kernel, by decide +kernel, by decide +kernel,
    ⟨by decide +kernel, by decide⟩, ⟨by decide +kernel, by decide⟩, by decide +kernel, demoIo_plain, by decide,
    by decide, _, _, rfl, ⟨rfl, rfl, rfl, rfl, ⟨rfl, rfl, rfl, rfl, rfl, rfl⟩⟩, fun _ => ⟨rfl, rfl⟩⟩

theorem witness_BitResults : demo.Plain := demo_plain

end Sys2Proof.Tests
end

section
/-! SUPPORT. What one tick keeps: each part of the core's step is an `Evolves` (Laws/Ops), and a whole tick
is one too but for `total` (spec/40_engine_step.md R130 to R136, spec/60_exceptions.md R330). -/

namespace Sys2Proof.Machine

/-! ## The parts of the core's step -/

theorem setWait_evolves (s : State) (k : Nat) : Evolves s { s with wait := k } :=
  ⟨⟨rfl, rfl, rfl, rfl, rfl, rfl⟩, rfl, rfl, rfl, fun i => ⟨i.params, i.memWf, i.memBelow⟩⟩

/-- The interrupt check does no more than one read of `SREG`, hooked or not (R132). -/
theorem interruptCheck_evolves : Keeps Evolves interruptCheck := by
  have hR := evolves_pcLike.toMemoryLike
  refine keeps_bind hR (keeps_readFlag hR _) fun enabled => ?_
  cases enabled with
  | false => exact keeps_pure hR _
  | true => rintro s v t h; cases h; exact .refl s

theorem interruptStep_evolves {v : Nat} {s t : State} (h : interruptStep v s = .next t) :
    Evolves s t := by
  unfold interruptStep at h
  split at h <;> cases h
  exact takeInterrupt_evolves v _ _ _ (by assumption)

theorem executeReference_evolves {s t : State} (h : executeReference s = .next t) : Evolves s t := by
  unfold executeReference at h
  split at h
  · exact (evolves_pcLike.pc s _).trans (exec_evolves h)
  · cases h

/-- The execute step, by the kind of entry the unit's table has for the opcode (R101, R134). -/
theorem executeStep_evolves {s t : State} (h : executeStep s = .next t) : Evolves s t := by
  cases ho : progWord s s.pc with
  | none => rw [executeStep_outside ho] at h; cases h
  | some op =>
    cases he : s.itable.entry op with
    | reference => exact executeReference_evolves (executeStep_reference ho he ▸ h)
    | own own =>
      cases hp : ownProg own op with
      | none => rw [executeStep_noInstruction ho he hp] at h; cases h
      | some p =>
        rw [executeStep_own ho he hp] at h
        have handler := runHandler_keeps evolves_pcLike.toMemoryLike setWait_evolves
          (keeps_runProg evolves_pcLike p) h
        exact (evolves_pcLike.pc s _).trans handler

theorem activeStep_evolves {s t : State} (h : activeStep s = .next t) : Evolves s t := by
  unfold activeStep at h
  split at h
  · exact (interruptCheck_evolves _ _ _ (by assumption)).trans (interruptStep_evolves h)
  · exact (interruptCheck_evolves _ _ _ (by assumption)).trans (executeStep_evolves h)
  · cases h

theorem stepPeripherals_evolves : ∀ (l : List Behaviour) (s : State), Evolves s (stepPeripherals l s)
  | [], s => .refl s
  | b :: rest, s => (applyOut_evolves _ s).trans (stepPeripherals_evolves rest (stepPeripheral b s))

/-! ## A core step and a tick -/

/-- What a core step or a tick may do to the state: as `Evolves`, but `total` may move (R29, R135). -/
structure TickKeeps (s t : State) : Prop where
  unit : SameUnit s t
  halted : t.halted = s.halted
  vectors : t.pend.length = s.pend.length
  inv : s.Inv → t.Inv

theorem Evolves.tickKeeps {s t : State} (h : Evolves s t) : TickKeeps s t :=
  ⟨h.unit, h.halted, h.vectors, h.inv⟩

theorem TickKeeps.trans {s t u : State} (h : TickKeeps s t) (g : TickKeeps t u) : TickKeeps s u :=
  ⟨h.unit.trans g.unit, g.halted.trans h.halted, g.vectors.trans h.vectors, fun i => g.inv (h.inv i)⟩

theorem bookkeep_tickKeeps (s : State) : TickKeeps s (bookkeep s) :=
  ⟨⟨rfl, rfl, rfl, rfl, rfl, rfl⟩, rfl, rfl, fun i => ⟨i.params, i.memWf, i.memBelow⟩⟩

theorem finishStep_eq_next {o : Host.Outcome State Fault Refusal} {t : State}
    (h : finishStep o = .next t) : ∃ s, o = .next s ∧ t = bookkeep s := by
  cases o <;> cases h
  exact ⟨_, rfl, rfl⟩

/-- A core step is a wait step, or an active step and its bookkeeping (R130, R131, R135). -/
theorem coreStep_eq_next {s t : State} (h : coreStep s = .next t) :
    s.halted = none ∧
      (s.wait ≠ 0 ∧ t = bookkeep s ∨ s.wait = 0 ∧ ∃ u, activeStep s = .next u ∧ t = bookkeep u) := by
  unfold coreStep at h
  split at h
  · cases h
  · refine ⟨by assumption, ?_⟩
    split at h
    · cases h
      exact .inl ⟨by assumption, rfl⟩
    · exact .inr ⟨by omega, finishStep_eq_next h⟩

theorem coreStep_tickKeeps {s t : State} (h : coreStep s = .next t) : TickKeeps s t := by
  obtain ⟨-, ⟨-, rfl⟩ | ⟨-, u, hu, rfl⟩⟩ := coreStep_eq_next h
  · exact bookkeep_tickKeeps s
  · exact (activeStep_evolves hu).tickKeeps.trans (bookkeep_tickKeeps u)

/-- A tick is a core step between the steps of the peripherals before it and after it (R330). -/
theorem step_eq_next {s t : State} (h : step s = .next t) :
    ∃ u, coreStep (stepPeripherals s.clock.before s) = .next u ∧
      t = stepPeripherals s.clock.after u := by
  unfold step advance at h
  split at h <;> cases h
  exact ⟨_, by assumption, rfl⟩

theorem step_tickKeeps {s t : State} (h : step s = .next t) : TickKeeps s t := by
  obtain ⟨u, hu, rfl⟩ := step_eq_next h
  have before := (stepPeripherals_evolves s.clock.before s).tickKeeps
  have after := (stepPeripherals_evolves s.clock.after u).tickKeeps
  exact (before.trans (coreStep_tickKeeps hu)).trans after

end Sys2Proof.Machine
end

section
/-! SUPPORT. What a reset leaves (spec/70_reset_and_hazards.md R350), and the words of an image
(spec/10_state.md R32). -/

namespace Sys2Proof

theorem wordsOfBytes_length : ∀ bytes : List Byte, (wordsOfBytes bytes).length = bytes.length / 2
  | [] => rfl
  | [_] => by simp [wordsOfBytes]
  | _ :: _ :: rest => by
    simp only [wordsOfBytes, List.length_cons, wordsOfBytes_length rest]
    omega

/-- Word `i` of an image, from the two bytes it is made of (R32). -/
theorem wordsOfBytes_getElem? : ∀ {bytes : List Byte} {i : Nat} {lo hi : Byte},
    bytes[2 * i]? = some lo → bytes[2 * i + 1]? = some hi →
    (wordsOfBytes bytes)[i]? = some (joinBytes hi lo)
  | [], _, _, _, hlo, _ => by simp at hlo
  | [_], _, _, _, _, hhi => by simp at hhi
  | _ :: _ :: _, 0, _, _, hlo, hhi => by cases hlo; cases hhi; rfl
  | _ :: _ :: rest, i + 1, _, _, hlo, hhi => wordsOfBytes_getElem? (bytes := rest) (i := i) hlo hhi

/-- A byte pair is the low byte and 256 times the high byte (R32, R65). -/
theorem joinBytes_eq_ofNat (hi lo : Byte) :
    joinBytes hi lo = BitVec.ofNat 16 (lo.toNat + 256 * hi.toNat) := by
  rw [joinBytes, Nat.add_comm, Nat.mul_comm]

namespace Machine

/-- `Connect`s change the hook tables only (R69). -/
theorem connectAll_eq_ok : ∀ {l : List Connection} {s t : State}, connectAll l s = .ok t →
    ∃ rd wr, t = { s with rdHooks := rd, wrHooks := wr }
  | [], s, _, h => by cases h; exact ⟨s.rdHooks, s.wrHooks, rfl⟩
  | c :: rest, s, t, h => by
    by_cases hc : c.addr < s.params.dataSize
    · simp only [connectAll, connect, hc, if_true] at h
      obtain ⟨rd, wr, rfl⟩ := connectAll_eq_ok h
      exact ⟨rd, wr, rfl⟩
    · simp [connectAll, connect, hc] at h

/-- What a reset that answers leaves: the state of R350, with some hook tables. -/
theorem resetUnit_eq_ok {pf : Platform} {image : List Byte} {s : State}
    (h : resetUnit pf image = .ok s) :
    imageProblem image = none ∧ ∃ rd wr, s =
      { mem := State.resetMem pf.params (Memory.pokes pf.params.dataSize [] pf.memInit)
        pc := 0, wait := 0, total := 0, pend := List.replicate pf.nVectors false, plat := pf.plat
        halted := none, params := pf.params, prog := wordsOfBytes image
        rdHooks := rd, wrHooks := wr, clock := pf.clock, itable := pf.itable } := by
  unfold resetUnit at h
  split at h
  · cases h
  · exact ⟨by assumption, connectAll_eq_ok h⟩

theorem resetUnit_prog {pf : Platform} {image : List Byte} {s : State}
    (h : resetUnit pf image = .ok s) : s.prog = wordsOfBytes image := by
  obtain ⟨-, _, _, rfl⟩ := resetUnit_eq_ok h
  rfl

end Machine

end Sys2Proof
end

section
/-! The statements on the state (spec/10_state.md). -/

namespace Sys2Proof.Machine

/-- Settles O3: a reset loads the words of the image, and a tick keeps the whole configuration. -/
theorem programStoreIsTheImage : Obligations.ProgramStoreIsTheImage := by
  refine ⟨fun pf image s hs => ?_, fun s t h => (step_tickKeeps h).unit.prog⟩
  rw [resetUnit_prog hs]
  refine ⟨wordsOfBytes_length image, fun i lo hi hlo hhi => ?_⟩
  rw [← joinBytes_eq_ofNat]
  exact wordsOfBytes_getElem? hlo hhi

end Sys2Proof.Machine
end

section
/-! The statements on single accesses of the data space (spec/20_memory.md R63, R64), and what an access
answers where a hook is attached. -/

namespace Sys2Proof.Machine

/-! ## Accesses with a hook -/

/-- A hooked read is one call of the hook, which is not told a written byte (R66). -/
theorem memRead_hooked {a : Nat} {s : State} {h : Behaviour} (ha : a < s.params.dataSize)
    (hh : hookAt s.rdHooks a = some h) :
    memRead a s = .ok ((behaviourOut h (hookIn s a 0)).answer,
      applyOut (behaviourOut h (hookIn s a 0)) s) := by
  simp only [memRead, ha, hh, if_true]

/-- A hooked write is one call of the hook; the multiplexer stores nothing itself (R67). -/
theorem memWrite_hooked {a : Nat} {v : Byte} {s : State} {h : Behaviour} (ha : a < s.params.dataSize)
    (hh : hookAt s.wrHooks a = some h) :
    memWrite a v s = .ok ((), applyOut (behaviourOut h (hookIn s a v)) s) := by
  simp only [memWrite, ha, hh, if_true]

/-! ## The statements -/

/-- Settles O6: the three cases of a read are the three rules of `memRead`. -/
theorem byteReadMultiplexer : Obligations.ByteReadMultiplexer := fun _ _ =>
  ⟨memRead_outside, memRead_unhooked, fun _ => memRead_hooked⟩

/-- Settles O7: the cases of a write are the rules of `memWrite`; that a store changes no other byte is
`WriteAt.unhooked`, for which memory has to be in canonical form. -/
theorem byteWriteMultiplexer : Obligations.ByteWriteMultiplexer := by
  intro a v s hinv
  refine ⟨memWrite_outside, fun ha hh => ?_, fun _ => memWrite_hooked⟩
  obtain ⟨t, ht⟩ := memWrite_writeAt hinv ha
  exact ⟨t, ht.access, ht.unhooked hh⟩

end Sys2Proof.Machine
end

section
/-! SUPPORT. Rows of the pattern table that exclude each other (spec/30_encoding.md R118). -/

namespace Sys2Proof

/-- Two rows differ in a bit that both of them fix, so that no word is of both (R118). -/
def Row.Conflicts (r q : Row) : Prop := r.pattern &&& q.mask ≠ q.pattern &&& r.mask

/-- A word of two rows has, in the bits both masks keep, the bits of both patterns. -/
theorem Row.not_conflicts_of_match {r q : Row} {op : Word} (hr : op &&& r.mask = r.pattern)
    (hq : op &&& q.mask = q.pattern) : ¬ r.Conflicts q := by
  intro conflict
  apply conflict
  rw [← hr, ← hq, BitVec.and_assoc, BitVec.and_assoc, BitVec.and_comm r.mask]

/-- Every two rows of the table conflict: a finite check of masks and patterns, without the words. -/
theorem table_pairwise_conflicts : table.Pairwise Row.Conflicts := by
  unfold Row.Conflicts
  decide +kernel

/-- Of rows that conflict pairwise a word is of at most one. -/
theorem matching_rows_length_le_one {rows : List Row} (h : rows.Pairwise Row.Conflicts) (op : Word) :
    (rows.filter fun r => op &&& r.mask == r.pattern).length ≤ 1 := by
  have conflicts := h.filter fun r => op &&& r.mask == r.pattern
  have hits : ∀ r ∈ rows.filter (fun r => op &&& r.mask == r.pattern), op &&& r.mask = r.pattern :=
    fun r hr => by simpa using (List.mem_filter.mp hr).2
  generalize rows.filter (fun r => op &&& r.mask == r.pattern) = found at conflicts hits ⊢
  match found with
  | [] => simp
  | [_] => simp
  | r :: q :: _ =>
    have hrq : r.Conflicts q := List.rel_of_pairwise_cons conflicts (by simp)
    exact absurd hrq (Row.not_conflicts_of_match (hits r (by simp)) (hits q (by simp)))

end Sys2Proof
end

section
/-! SUPPORT. The execute step of an opcode without an instruction (spec/30_encoding.md R102, R110, R111),
and the core step of a state that executes (spec/40_engine_step.md R132, R134). -/

namespace Sys2Proof.Machine

/-! ## What is fetched -/

/-- The opcode word is the first of the words at `pc`. -/
theorem codeAt_eq_cons {s : State} {op : Word} (ho : progWord s s.pc = some op) :
    ∃ more, codeAt s = op :: more := by
  cases h2 : progWord s (s.pc + 1) with
  | none => exact ⟨[], by simp only [codeAt, ho, h2]⟩
  | some w2 => exact ⟨[w2], by simp only [codeAt, ho, h2]⟩

/-- A word no row matches is a decode fault of the fetch (R102, R110). -/
theorem fetchInstr_reserved {s : State} {op : Word} (ho : progWord s s.pc = some op)
    (hl : lookup op = none) : fetchInstr s = .error (.decode op s.pc) := by
  obtain ⟨more, hc⟩ := codeAt_eq_cons ho
  simp only [fetchInstr, hc, decodeWords, hl]

/-- A word of a one-word row is fetched alone (R105, R134). -/
theorem fetchInstr_oneWord {s : State} {op : Word} {row : Row} (ho : progWord s s.pc = some op)
    (hl : lookup op = some row) (hw : row.words = 1) :
    fetchInstr s = .ok (row.build op 0, s.pc + 1) := by
  obtain ⟨more, hc⟩ := codeAt_eq_cons ho
  have one : (op :: more).length - more.length = 1 := by simp
  simp only [fetchInstr, hc, decodeWords, hl, hw, if_true, one]
  rfl

/-! ## The refused rows -/

/-- The fault of a refused opcode carries the address before the `pc` it is entered with (R302, D28). -/
theorem runHandler_refusedOpcode (op p : Word) (s : State) :
    runHandler (refusedOpcode op) { s with pc := p + 1 } = .fault (.decode op p) := by
  apply runHandler_error
  unfold refusedOpcode
  rw [act_bind_ok (getPc_apply _)]
  simp only [raiseFault, BitVec.add_sub_cancel]

/-- A word whose one-word row builds an instruction that is only refused (R111). -/
theorem executeReference_refused {s : State} {op : Word} {row : Row} (ho : progWord s s.pc = some op)
    (hl : lookup op = some row) (hw : row.words = 1)
    (he : ∀ u, exec (row.build op 0) u = runHandler (refusedOpcode op) u) :
    executeReference s = .fault (.decode op s.pc) := by
  simp only [executeReference, fetchInstr_oneWord ho hl hw, he, runHandler_refusedOpcode]

/-! ## No instruction -/

/-- A word `REF_ITABLE` has no instruction for: no row matches it, or its row is SLEEP, BREAK or SPM. -/
theorem executeReference_noInstruction {s : State} {op : Word} (ho : progWord s s.pc = some op)
    (hn : NoReferenceInstruction op) : executeReference s = .fault (.decode op s.pc) := by
  obtain hl | rfl | rfl | rfl := hn
  · simp only [executeReference, fetchInstr_reserved ho hl]
  · exact executeReference_refused ho rfl rfl fun _ => rfl
  · exact executeReference_refused ho rfl rfl fun _ => rfl
  · exact executeReference_refused ho rfl rfl fun _ => rfl

/-- The execute step of an opcode the unit's table has no instruction for, by the kind of its entry. -/
theorem executeStep_fault_of_noInstruction {s : State} {op : Word} (ho : progWord s s.pc = some op)
    (hn : NoInstruction s.itable op) : executeStep s = .fault (.decode op s.pc) := by
  unfold NoInstruction at hn
  cases he : s.itable.entry op with
  | reference =>
    rw [he] at hn
    rw [executeStep_reference ho he, executeReference_noInstruction ho hn]
  | own h =>
    rw [he] at hn
    exact executeStep_noInstruction ho he hn

/-! ## The step that executes -/

/-- With I clear or nothing pending the check takes no interrupt, and reads only (R132). -/
theorem interruptCheck_quiet {s : State} (hp : s.Plain)
    (hq : s.flag .i = false ∨ firstPending s.pend = none) : interruptCheck s = .ok (none, s) := by
  have read : readFlag flagI s = .ok (s.flag .i, s) := readFlag_plain hp.inv.params hp.noHooks flagI
  unfold interruptCheck
  rw [act_bind_ok read]
  cases hi : s.flag .i with
  | false => rfl
  | true =>
    have none_pending : firstPending s.pend = none := hq.resolve_left (by simp [hi])
    simp only [if_true, none_pending]

/-- The core step of a state that executes is the execute step and its bookkeeping (R132, R134). -/
theorem Executes.coreStep_eq {s : State} (h : Executes s) :
    coreStep s = finishStep (executeStep s) := by
  have active : activeStep s = executeStep s := by
    simp only [activeStep, interruptCheck_quiet h.plain h.quiet]
  simp only [coreStep, h.running, h.ready, ne_eq, not_true, if_false, active]

end Sys2Proof.Machine
end

section
/-! The statements on the encoding (spec/30_encoding.md R102, R118). -/

namespace Sys2Proof.Machine

/-- Settles O32: every two rows conflict, and no word is of two rows that do. -/
theorem noWordMatchesTwoRows : Obligations.NoWordMatchesTwoRows :=
  ⟨rfl, matching_rows_length_le_one table_pairwise_conflicts⟩

/-- Settles O19: the core step is the execute step, whose fault the bookkeeping leaves as it is. -/
theorem opcodeWithoutInstructionFaults : Obligations.OpcodeWithoutInstructionFaults := by
  intro s op hx ho hn
  rw [hx.coreStep_eq, executeStep_fault_of_noInstruction ho hn]
  rfl

end Sys2Proof.Machine
end

section
/-! The statement on the wait step (spec/40_engine_step.md R131, R135). -/

namespace Sys2Proof.Machine

/-- A core step entered with `wait` not 0 is its bookkeeping alone (R131): neither the interrupt check nor
the fetch is reached. -/
theorem coreStep_of_wait_ne_zero {s : State} (running : s.halted = none) (waiting : s.wait ≠ 0) :
    coreStep s = .next (bookkeep s) := by
  simp only [coreStep, running, if_pos waiting]

/-- Settles O13: the step is the bookkeeping, which writes `wait` and `total` only. -/
theorem waitStepOnlyCounts : Obligations.WaitStepOnlyCounts :=
  fun _ running waiting => coreStep_of_wait_ne_zero running waiting

end Sys2Proof.Machine
end

section
/-! SUPPORT. Operand fields of an opcode word (spec/30_encoding.md R106): a word built up from a pattern by
putting fields into it, its value and its fixed bits; and the row an opcode is decoded by (R103). -/

namespace Sys2Proof.Machine

/-! ## Putting fields into a pattern -/

/-- The bits of the field of `n` bits from bit `lo` up. -/
def fieldBits (lo n : Nat) : Word := BitVec.ofNat 16 ((2 ^ n - 1) * 2 ^ lo)

/-- A field's value has no bit outside the field. -/
theorem ofNat_shift_and_fieldBits {lo n v : Nat} (hv : v < 2 ^ n) :
    BitVec.ofNat 16 (v * 2 ^ lo) &&& fieldBits lo n = BitVec.ofNat 16 (v * 2 ^ lo) := by
  rw [fieldBits, ← BitVec.ofNat_and, ← Nat.shiftLeft_eq, ← Nat.shiftLeft_eq, ← Nat.shiftLeft_and_distrib,
    Nat.and_two_pow_sub_one_of_lt_two_pow hv]

/-- A field's value has no bit in a mask that leaves the field out. -/
theorem ofNat_shift_and {m : Word} {lo n v : Nat} (hv : v < 2 ^ n) (hm : fieldBits lo n &&& m = 0) :
    BitVec.ofNat 16 (v * 2 ^ lo) &&& m = 0 := by
  rw [← ofNat_shift_and_fieldBits hv, BitVec.and_assoc, hm]
  exact BitVec.and_zero

/-- A word inside a mask is inside a larger one. -/
theorem and_or_of_and_eq {w m : Word} (h : w &&& m = w) (f : Word) : w &&& (m ||| f) = w := by
  have absorb : m &&& (m ||| f) = m := by
    ext k
    cases hk : m[k] <;> simp [hk]
  rw [← h, BitVec.and_assoc, absorb]

/-- A word being laid out: it has the fixed bits `p` of the row's mask `m`, no bit outside `used`, and the
value `n`. -/
structure Layout (p m used w : Word) (n : Nat) : Prop where
  fixed : w &&& m = p
  within : w &&& used = w
  value : w = BitVec.ofNat 16 n

/-- A pattern as such, before any field. -/
theorem Layout.pattern {p : Nat} {m : Word} (hp : BitVec.ofNat 16 p &&& m = BitVec.ofNat 16 p) :
    Layout (BitVec.ofNat 16 p) m m (BitVec.ofNat 16 p) p := ⟨hp, hp, rfl⟩

/-- A field put where there is no bit yet adds its value. -/
theorem Layout.put {p m used w : Word} {k : Nat} (h : Layout p m used w k) (lo n : Nat) {v : Nat}
    (hv : v < 2 ^ n) (hm : fieldBits lo n &&& m = 0 := by decide)
    (hu : fieldBits lo n &&& used = 0 := by decide) :
    Layout p m (used ||| fieldBits lo n) (put w lo v) (k + v * 2 ^ lo) := by
  have apart : w &&& BitVec.ofNat 16 (v * 2 ^ lo) = 0 := by
    rw [← h.within, BitVec.and_assoc, BitVec.and_comm used, ofNat_shift_and hv hu]
    exact BitVec.and_zero
  refine ⟨?_, ?_, ?_⟩
  · rw [Sys2Proof.put, BitVec.and_or_distrib_right, ofNat_shift_and hv hm, h.fixed]
    exact BitVec.or_zero
  · rw [Sys2Proof.put, BitVec.and_or_distrib_right, and_or_of_and_eq h.within, BitVec.or_comm used,
      and_or_of_and_eq (ofNat_shift_and_fieldBits hv)]
  · rw [Sys2Proof.put, ← BitVec.add_eq_or_of_and_eq_zero _ _ apart, h.value, BitVec.ofNat_add]

/-! ## The row of an opcode -/

/-- A row that matches a word is the one the decoder finds: a second one would conflict with it (R118). -/
theorem lookup_of_match {op : Word} {row : Row} (hrow : row ∈ table) (hm : op &&& row.mask = row.pattern) :
    lookup op = some row := by
  have one := matching_rows_length_le_one table_pairwise_conflicts op
  have hit : row ∈ table.filter fun r => op &&& r.mask == r.pattern := by
    simpa [hrow] using hm
  rw [lookup, ← List.head?_filter]
  match hf : table.filter fun r => op &&& r.mask == r.pattern with
  | [] => simp [hf] at hit
  | [r] => simpa [hf, eq_comm] using hit
  | r :: q :: rest => simp [hf] at one

/-- A one-word instruction, from its row of the table. -/
theorem rowOf_of_mem_table {i : Instr} {row : Row} {w : Word} (hrow : row ∈ table) (one : row.words = 1)
    (he : encode i = [w]) (hm : w &&& row.mask = row.pattern) (hb : row.build w 0 = i) :
    RowOf i row.mask row.pattern w [] := by
  refine ⟨he, hm, fun more => ?_⟩
  simp only [List.nil_append, decodeWords, lookup_of_match hrow hm, one, if_true, hb]

/-! ## The formats of the arithmetic and logic instructions

For each format: the encoder's word is the sum of R106, and the row that reads its fields is that of the
instruction. -/

/-- Format `RR`. -/
theorem rowOf_RR (p : Nat) (i : Reg → Reg → Instr) (d r : Reg)
    (hrow : ⟨0xFC00#16, BitVec.ofNat 16 p, 1, fun w _ => i (dReg w) (rRR w)⟩ ∈ table)
    (he : encode (i d r) = [encRR (BitVec.ofNat 16 p) d r])
    (hp : BitVec.ofNat 16 p &&& 0xFC00 = BitVec.ofNat 16 p := by decide) (h0 : p % 1024 = 0 := by decide) :
    RowOf (i d r) 0xFC00 (BitVec.ofNat 16 p) (wordRR p d r) [] := by
  have high : r.val / 16 < 2 ^ 1 := by omega
  have low : r.val % 16 < 2 ^ 4 := by omega
  have laid := (((Layout.pattern hp).put 9 1 high).put 4 5 d.isLt).put 0 4 low
  have word : encRR (BitVec.ofNat 16 p) d r = wordRR p d r := by simpa [encRR, wordRR] using laid.value
  have hd : dReg (wordRR p d r) = d := Fin.ext (by simp [dReg, field, wordRR]; omega)
  have hr : rRR (wordRR p d r) = r := Fin.ext (by simp [rRR, field, wordRR]; omega)
  exact rowOf_of_mem_table hrow rfl (word ▸ he) (word ▸ laid.fixed) (by simp only [hd, hr])

/-- Format `RI`. -/
theorem rowOf_RI (p : Nat) (i : Reg → Byte → Instr) (d : Reg) (k : Byte) (h16 : 16 ≤ d.val)
    (hrow : ⟨0xF000#16, BitVec.ofNat 16 p, 1, fun w _ => i (dRI w) (kRI w)⟩ ∈ table)
    (he : encode (i d k) = [encRI (BitVec.ofNat 16 p) d k])
    (hp : BitVec.ofNat 16 p &&& 0xF000 = BitVec.ofNat 16 p := by decide) (h0 : p % 4096 = 0 := by decide) :
    RowOf (i d k) 0xF000 (BitVec.ofNat 16 p) (wordRI p d k) [] := by
  have reg : d.val % 16 = d.val - 16 := by omega
  have hk := k.isLt
  have high : k.toNat / 16 < 2 ^ 4 := by omega
  have mid : d.val % 16 < 2 ^ 4 := by omega
  have low : k.toNat % 16 < 2 ^ 4 := by omega
  have laid := (((Layout.pattern hp).put 8 4 high).put 4 4 mid).put 0 4 low
  have word : encRI (BitVec.ofNat 16 p) d k = wordRI p d k := by
    simpa [encRI, wordRI, reg] using laid.value
  have hd : dRI (wordRI p d k) = d := Fin.ext (by simp [dRI, field, wordRI]; omega)
  have hk : kRI (wordRI p d k) = k := BitVec.eq_of_toNat_eq (by simp [kRI, field, wordRI]; omega)
  exact rowOf_of_mem_table hrow rfl (word ▸ he) (word ▸ laid.fixed) (by simp only [hd, hk])

/-- Format `RD`: the pattern has bits on both sides of the register field. -/
theorem rowOf_RD (p : Nat) (i : Reg → Instr) (d : Reg)
    (hrow : ⟨0xFE0F#16, BitVec.ofNat 16 p, 1, fun w _ => i (dReg w)⟩ ∈ table)
    (he : encode (i d) = [encD (BitVec.ofNat 16 p) d])
    (hp : BitVec.ofNat 16 p &&& 0xFE0F = BitVec.ofNat 16 p := by decide)
    (h0 : p / 16 % 32 = 0 := by decide) :
    RowOf (i d) 0xFE0F (BitVec.ofNat 16 p) (wordD p d) [] := by
  have laid := (Layout.pattern hp).put 4 5 d.isLt
  have word : encD (BitVec.ofNat 16 p) d = wordD p d := by simpa [encD, wordD] using laid.value
  have hd : dReg (wordD p d) = d := Fin.ext (by simp [dReg, field, wordD]; omega)
  exact rowOf_of_mem_table hrow rfl (word ▸ he) (word ▸ laid.fixed) (by simp only [hd])

/-- Format `M16`. -/
theorem rowOf_M16 (p : Nat) (i : Reg → Reg → Instr) (d r : Reg) (hd16 : 16 ≤ d.val) (hr16 : 16 ≤ r.val)
    (hrow : ⟨0xFF00#16, BitVec.ofNat 16 p, 1, fun w _ => i (dRI w) (rM16 w)⟩ ∈ table)
    (he : encode (i d r) = [encM16 (BitVec.ofNat 16 p) d r])
    (hp : BitVec.ofNat 16 p &&& 0xFF00 = BitVec.ofNat 16 p := by decide) (h0 : p % 256 = 0 := by decide) :
    RowOf (i d r) 0xFF00 (BitVec.ofNat 16 p) (wordM16 p d r) [] := by
  have regs : d.val % 16 = d.val - 16 ∧ r.val % 16 = r.val - 16 := by omega
  have high : d.val % 16 < 2 ^ 4 := by omega
  have low : r.val % 16 < 2 ^ 4 := by omega
  have laid := ((Layout.pattern hp).put 4 4 high).put 0 4 low
  have word : encM16 (BitVec.ofNat 16 p) d r = wordM16 p d r := by
    simpa [encM16, wordM16, regs] using laid.value
  have hd : dRI (wordM16 p d r) = d := Fin.ext (by simp [dRI, field, wordM16]; omega)
  have hr : rM16 (wordM16 p d r) = r := Fin.ext (by simp [rM16, field, wordM16]; omega)
  exact rowOf_of_mem_table hrow rfl (word ▸ he) (word ▸ laid.fixed) (by simp only [hd, hr])

/-- Format `M8`: the pattern has bits beside and between the register fields. -/
theorem rowOf_M8 (p : Nat) (i : Reg → Reg → Instr) (d r : Reg) (hd8 : 16 ≤ d.val ∧ d.val < 24)
    (hr8 : 16 ≤ r.val ∧ r.val < 24)
    (hrow : ⟨0xFF88#16, BitVec.ofNat 16 p, 1, fun w _ => i (dM8 w) (rM8 w)⟩ ∈ table)
    (he : encode (i d r) = [encM8 (BitVec.ofNat 16 p) d r])
    (hp : BitVec.ofNat 16 p &&& 0xFF88 = BitVec.ofNat 16 p := by decide)
    (h0 : p % 8 = 0 ∧ p / 16 % 8 = 0 := by decide) :
    RowOf (i d r) 0xFF88 (BitVec.ofNat 16 p) (wordM8 p d r) [] := by
  have regs : d.val % 8 = d.val - 16 ∧ r.val % 8 = r.val - 16 := by omega
  have high : d.val % 8 < 2 ^ 3 := by omega
  have low : r.val % 8 < 2 ^ 3 := by omega
  have laid := ((Layout.pattern hp).put 4 3 high).put 0 3 low
  have word : encM8 (BitVec.ofNat 16 p) d r = wordM8 p d r := by
    simpa [encM8, wordM8, regs] using laid.value
  have hd : dM8 (wordM8 p d r) = d := Fin.ext (by simp [dM8, field, wordM8]; omega)
  have hr : rM8 (wordM8 p d r) = r := Fin.ext (by simp [rM8, field, wordM8]; omega)
  exact rowOf_of_mem_table hrow rfl (word ▸ he) (word ▸ laid.fixed) (by simp only [hd, hr])

/-- Format `WI`. -/
theorem rowOf_WI (p : Nat) (i : Reg → BitVec 6 → Instr) (d : Reg) (k : BitVec 6)
    (hd24 : 24 ≤ d.val ∧ d.val % 2 = 0)
    (hrow : ⟨0xFF00#16, BitVec.ofNat 16 p, 1, fun w _ => i (dWI w) (kWI w)⟩ ∈ table)
    (he : encode (i d k) = [encWI (BitVec.ofNat 16 p) d k])
    (hp : BitVec.ofNat 16 p &&& 0xFF00 = BitVec.ofNat 16 p := by decide) (h0 : p % 256 = 0 := by decide) :
    RowOf (i d k) 0xFF00 (BitVec.ofNat 16 p) (wordWI p d k) [] := by
  have reg : d.val % 8 / 2 = (d.val - 24) / 2 := by omega
  have hk := k.isLt
  have high : k.toNat / 16 < 2 ^ 2 := by omega
  have mid : d.val % 8 / 2 < 2 ^ 2 := by omega
  have low : k.toNat % 16 < 2 ^ 4 := by omega
  have laid := (((Layout.pattern hp).put 6 2 high).put 4 2 mid).put 0 4 low
  have word : encWI (BitVec.ofNat 16 p) d k = wordWI p d k := by
    simpa [encWI, wordWI, reg] using laid.value
  have hd : dWI (wordWI p d k) = d := Fin.ext (by simp [dWI, field, wordWI]; omega)
  have hk : kWI (wordWI p d k) = k := BitVec.eq_of_toNat_eq (by simp [kWI, field, wordWI]; omega)
  exact rowOf_of_mem_table hrow rfl (word ▸ he) (word ▸ laid.fixed) (by simp only [hd, hk])

end Sys2Proof.Machine
end

section
/-! SUPPORT. Carries, borrows and overflows of bytes (spec/41_ref_arith_logic.md R161, R162): the arithmetic
form of each flag line and its form in bits of the operands and the result. -/

namespace Sys2Proof.Machine

/-! ## Bits of a byte as bounds on its value -/

theorem getLsbD_seven (x : Byte) : x.getLsbD 7 = decide (128 ≤ x.toNat) := BitVec.msb_eq_decide x

theorem getLsbD_three (x : Byte) : x.getLsbD 3 = decide (8 ≤ x.toNat % 16) := by
  rw [BitVec.getLsbD, Nat.testBit_eq_decide_div_mod_eq, decide_eq_decide]
  omega

/-- A byte as a signed number. -/
theorem byte_toInt (x : Byte) : x.toInt = if 128 ≤ x.toNat then (x.toNat : Int) - 256 else x.toNat := by
  have := x.isLt
  rw [BitVec.toInt_eq_toNat_cond]
  split <;> split <;> omega

theorem add_carry_toNat (a b : Byte) (c : Bool) :
    (a + b + (if c then 1 else 0)).toNat = (a.toNat + b.toNat + c.toNat) % 256 := by
  cases c <;> simp [BitVec.toNat_add]

theorem sub_borrow_toNat (a b : Byte) (c : Bool) :
    (a - b - (if c then 1 else 0)).toNat = (a.toNat + 512 - b.toNat - c.toNat) % 256 := by
  have := b.isLt
  cases c <;> simp [BitVec.toNat_sub] <;> omega

/-! ## Carry and borrow out of a bit -/

/-- The carry out of the bit of weight `n`, from that bit of the operands and of the sum `r`. -/
theorem carry_eq_bits (n : Nat) {x y c r : Nat} (hx : x < 2 * n) (hy : y < 2 * n) (hc : c ≤ 1)
    (hr : r < 2 * n) (sum : x + y + c = r ∨ x + y + c = r + 2 * n) :
    decide (2 * n ≤ x + y + c) = (decide (n ≤ x) && decide (n ≤ y) || decide (n ≤ y) && !decide (n ≤ r) ||
      !decide (n ≤ r) && decide (n ≤ x)) := by
  rw [Bool.eq_iff_iff]
  simp only [decide_eq_true_eq, Bool.or_eq_true, Bool.and_eq_true, Bool.not_eq_true',
    decide_eq_false_iff_not]
  omega

/-- The borrow into the bit of weight `n`, from that bit of the operands and of the difference `r`. -/
theorem borrow_eq_bits (n : Nat) {x y c r : Nat} (hx : x < 2 * n) (hy : y < 2 * n) (hc : c ≤ 1)
    (hr : r < 2 * n) (diff : x = y + c + r ∨ x + 2 * n = y + c + r) :
    decide (x < y + c) = (!decide (n ≤ x) && decide (n ≤ y) || decide (n ≤ y) && decide (n ≤ r) ||
      decide (n ≤ r) && !decide (n ≤ x)) := by
  rw [Bool.eq_iff_iff]
  simp only [decide_eq_true_eq, Bool.or_eq_true, Bool.and_eq_true, Bool.not_eq_true',
    decide_eq_false_iff_not]
  omega

/-! ## The lines of R161 and R162 -/

section Lines

variable (a b : Byte) (c : Bool)

/-- V of an addition. -/
theorem add_overflow_eq_bits :
    let R := a + b + (if c then 1 else 0)
    decide (¬ (-128 ≤ a.toInt + b.toInt + c.toNat ∧ a.toInt + b.toInt + c.toNat ≤ 127)) =
      (a.getLsbD 7 && b.getLsbD 7 && !R.getLsbD 7 || !a.getLsbD 7 && !b.getLsbD 7 && R.getLsbD 7) := by
  intro R
  have hR : R.toNat = _ := add_carry_toNat a b c
  have ha := a.isLt
  have hb := b.isLt
  have hc := Bool.toNat_le c
  simp only [getLsbD_seven, byte_toInt]
  rw [Bool.eq_iff_iff]
  simp only [decide_eq_true_eq, Bool.or_eq_true, Bool.and_eq_true, Bool.not_eq_true',
    decide_eq_false_iff_not]
  split <;> split <;> omega

/-- V of a subtraction. -/
theorem sub_overflow_eq_bits :
    let R := a - b - (if c then 1 else 0)
    decide (¬ (-128 ≤ a.toInt - b.toInt - c.toNat ∧ a.toInt - b.toInt - c.toNat ≤ 127)) =
      (a.getLsbD 7 && !b.getLsbD 7 && !R.getLsbD 7 || !a.getLsbD 7 && b.getLsbD 7 && R.getLsbD 7) := by
  intro R
  have hR : R.toNat = _ := sub_borrow_toNat a b c
  have ha := a.isLt
  have hb := b.isLt
  have hc := Bool.toNat_le c
  simp only [getLsbD_seven, byte_toInt]
  rw [Bool.eq_iff_iff]
  simp only [decide_eq_true_eq, Bool.or_eq_true, Bool.and_eq_true, Bool.not_eq_true',
    decide_eq_false_iff_not]
  split <;> split <;> omega

/-- H and C of an addition are the carries out of bit 3 and bit 7. -/
theorem add_carries_eq_bits :
    let R := a + b + (if c then 1 else 0)
    decide (16 ≤ a.toNat % 16 + b.toNat % 16 + c.toNat) = (a.getLsbD 3 && b.getLsbD 3 ||
      b.getLsbD 3 && !R.getLsbD 3 || !R.getLsbD 3 && a.getLsbD 3) ∧
    decide (256 ≤ a.toNat + b.toNat + c.toNat) = (a.getLsbD 7 && b.getLsbD 7 ||
      b.getLsbD 7 && !R.getLsbD 7 || !R.getLsbD 7 && a.getLsbD 7) := by
  intro R
  have hR : R.toNat = _ := add_carry_toNat a b c
  have ha := a.isLt
  have hb := b.isLt
  have hc := Bool.toNat_le c
  simp only [getLsbD_seven, getLsbD_three]
  exact ⟨carry_eq_bits 8 (by omega) (by omega) hc (by omega) (by omega),
    carry_eq_bits 128 ha hb hc R.isLt (by omega)⟩

/-- H and C of a subtraction are the borrows into bit 3 and bit 7. -/
theorem sub_borrows_eq_bits :
    let R := a - b - (if c then 1 else 0)
    decide (a.toNat % 16 < b.toNat % 16 + c.toNat) = (!a.getLsbD 3 && b.getLsbD 3 ||
      b.getLsbD 3 && R.getLsbD 3 || R.getLsbD 3 && !a.getLsbD 3) ∧
    decide (a.toNat < b.toNat + c.toNat) = (!a.getLsbD 7 && b.getLsbD 7 ||
      b.getLsbD 7 && R.getLsbD 7 || R.getLsbD 7 && !a.getLsbD 7) := by
  intro R
  have hR : R.toNat = _ := sub_borrow_toNat a b c
  have ha := a.isLt
  have hb := b.isLt
  have hc := Bool.toNat_le c
  simp only [getLsbD_seven, getLsbD_three]
  exact ⟨borrow_eq_bits 8 (by omega) (by omega) hc (by omega) (by omega),
    borrow_eq_bits 128 ha hb hc R.isLt (by omega)⟩

/-- The sign of a difference is N, or its opposite where the subtraction overflows. -/
theorem sub_sign :
    ((a - b).getLsbD 7 ^^ decide (¬ (-128 ≤ a.toInt - b.toInt ∧ a.toInt - b.toInt ≤ 127))) =
      decide (a.toInt < b.toInt) := by
  have hR : (a - b).toNat = _ := BitVec.toNat_sub a b
  have ha := a.isLt
  have hb := b.isLt
  simp only [getLsbD_seven, byte_toInt]
  by_cases negative : 128 ≤ (a - b).toNat
  · simp only [negative, decide_true, Bool.true_xor, ← decide_not, decide_eq_decide]
    split <;> split <;> omega
  · simp only [negative, decide_false, Bool.false_xor, decide_eq_decide]
    split <;> split <;> omega

end Lines

/-! ## The flags of the model in the terms of the rules -/

theorem addFlags_eq (a b : Byte) (c : Bool) (R : Byte) :
    let v := decide (¬ (-128 ≤ a.toInt + b.toInt + c.toNat ∧ a.toInt + b.toInt + c.toNat ≤ 127))
    addFlags a b c R =
      [(.h, decide (16 ≤ a.toNat % 16 + b.toNat % 16 + c.toNat)), (.s, R.getLsbD 7 ^^ v), (.v, v),
       (.n, R.getLsbD 7), (.z, decide (R = 0)), (.c, decide (256 ≤ a.toNat + b.toNat + c.toNat))] := by
  simp only [addFlags, carryNat_toNat, BitVec.msb_eq_getLsbD_last, Bool.beq_eq_decide_eq, not_and_or, not_le,
    Nat.reduceSub]

theorem subFlags_eq (a b : Byte) (c : Bool) (R : Byte) (zOld : Option Bool) :
    let v := decide (¬ (-128 ≤ a.toInt - b.toInt - c.toNat ∧ a.toInt - b.toInt - c.toNat ≤ 127))
    subFlags a b c R zOld =
      [(.h, decide (a.toNat % 16 < b.toNat % 16 + c.toNat)), (.s, R.getLsbD 7 ^^ v), (.v, v),
       (.n, R.getLsbD 7), (.z, decide (R = 0) && zOld.getD true),
       (.c, decide (a.toNat < b.toNat + c.toNat))] := by
  cases zOld <;>
    simp only [subFlags, carryNat_toNat, BitVec.msb_eq_getLsbD_last, Bool.beq_eq_decide_eq, not_and_or, not_le,
      Option.getD_none, Option.getD_some, Bool.and_true, Nat.reduceSub]

theorem logicFlags_eq (R : Byte) :
    logicFlags R = [(.s, R.getLsbD 7), (.v, false), (.n, R.getLsbD 7), (.z, decide (R = 0))] := by
  simp only [logicFlags, BitVec.msb_eq_getLsbD_last, Bool.beq_eq_decide_eq, Nat.reduceSub]

end Sys2Proof.Machine
end

section
/-! SUPPORT. The arithmetic and logic handlers under `NoCoreHooks` (spec/41_ref_arith_logic.md R160): what a
handler that writes a register or a pair and then flags leaves, and the flag lines not in Laws/Results. -/

namespace Sys2Proof.Machine

/-! ## From a handler's equation to its result -/

/-- The state after a one-step handler that wrote register `d` and then flags. -/
def afterAlu (s : State) (d : Reg) (R : Byte) (ws : FlagWrites) : State :=
  { s with mem := (s.mem.set d.val R).set s.params.sregAddr (withFlags s.sreg ws), wait := 1 }

/-- The state after a one-step handler that wrote flags only. -/
def afterFlags (s : State) (ws : FlagWrites) : State :=
  { s with mem := s.mem.set s.params.sregAddr (withFlags s.sreg ws), wait := 1 }

/-- The state after a two-step handler that wrote the pair at `d` and then flags. -/
def afterPair (s : State) (d : Nat) (R : Word) (ws : FlagWrites) : State :=
  { s with
    mem := ((s.mem.set d (lowByte R)).set (d + 1) (highByte R)).set s.params.sregAddr (withFlags s.sreg ws)
    wait := 2 }

/-- The flags of `t` are those of `s` after the writes `ws`. -/
abbrev FlagsWritten (s t : State) (ws : FlagWrites) : Prop :=
  ∀ f, t.flag f = bitOf (withFlags s.sreg ws) (flagIx f)

section Results

variable {s : State} (hs : s.Plain) {o : Host.Outcome State Fault Refusal} {ws : FlagWrites}
  {flags : List Flag} (hk : ∀ f, f ∉ flags → ∀ b, (f, b) ∉ ws)
include hs hk

/-- A one-step operation that wrote register `d` and the flags `ws`: its result, and what the flags make
true of the state. -/
theorem alu_ends {d : Reg} {R : Byte} {P : State → Prop}
    (ho : o = .next (afterAlu s d R ws))
    (hP : ∀ t, FlagsWritten s t ws → P t) :
    ∃ t, o = .next t ∧ AluResult s t d R flags ∧ P t :=
  have ⟨result, hf⟩ := alu_result hs d R ws flags hk
  ⟨_, ho, result, hP _ hf⟩

/-- The same for an operation that writes flags only. -/
theorem flag_ends {P : State → Prop}
    (ho : o = .next (afterFlags s ws))
    (hP : ∀ t, FlagsWritten s t ws → P t) :
    ∃ t, o = .next t ∧ FlagResult s t flags ∧ P t :=
  have ⟨result, hf⟩ := flag_result hs ws flags hk
  ⟨_, ho, result, hP _ hf⟩

/-- The same for a two-step operation that writes a pair. -/
theorem pair_ends {d : Nat} (hd : d + 1 < 32) {R : Word} {P : State → Prop}
    (ho : o = .next (afterPair s d R ws))
    (hP : ∀ t, FlagsWritten s t ws → P t) :
    ∃ t, o = .next t ∧ PairResult s t d R flags ∧ P t :=
  have ⟨result, hf⟩ := pair_result hs d hd R ws flags hk
  ⟨_, ho, result, hP _ hf⟩

end Results

/-! ## Handlers that are not one operand form -/

/-- The subtraction with borrow, from the flags of the state (R162, R168). -/
theorem subKeep_sreg (s : State) (a b : Byte) :
    subKeep s.sreg a b =
      let R := a - b - (if s.flag .c then 1 else 0)
      (R, subFlags a b (s.flag .c) R (some (s.flag .z))) := by
  simp only [subKeep, carry_byte]
  rfl

section Handlers

variable {s : State} (hs : s.Plain)
include hs

/-- ADC reads `SREG` before it writes the register (R138, R165). -/
theorem execAdc_plain (d r : Reg) :
    execAdc d r s =
      let R := s.reg d + s.reg r + (if s.flag .c then 1 else 0)
      .next (afterAlu s d R (addFlags (s.reg d) (s.reg r) (s.flag .c) R)) := by
  unfold execAdc
  apply runHandler_mem
  rw [act_bind_ok (readReg_plain hs.inv.params hs.noHooks d),
    act_bind_ok (readReg_plain hs.inv.params hs.noHooks r),
    act_bind_ok (readSreg_plain hs.inv.params hs.noHooks), carry_byte]
  exact writeReg_sreg_plain hs d _ _ 1

theorem execSbc_plain (d r : Reg) :
    execSbc d r s =
      let R := s.reg d - s.reg r - (if s.flag .c then 1 else 0)
      .next (afterAlu s d R (subFlags (s.reg d) (s.reg r) (s.flag .c) R (some (s.flag .z)))) := by
  unfold execSbc
  apply runHandler_mem
  rw [act_bind_ok (readReg_plain hs.inv.params hs.noHooks d),
    act_bind_ok (readReg_plain hs.inv.params hs.noHooks r), sbcWith_plain hs, subKeep_sreg s]

theorem execSbci_plain (d : Reg) (k : Byte) :
    execSbci d k s =
      let R := s.reg d - k - (if s.flag .c then 1 else 0)
      .next (afterAlu s d R (subFlags (s.reg d) k (s.flag .c) R (some (s.flag .z)))) := by
  unfold execSbci
  apply runHandler_mem
  rw [act_bind_ok (readReg_plain hs.inv.params hs.noHooks d), sbcWith_plain hs, subKeep_sreg s]

theorem execCp_plain (d r : Reg) :
    execCp d r s = .next (afterFlags s (subFlags (s.reg d) (s.reg r) false (s.reg d - s.reg r) none)) := by
  unfold execCp
  apply runHandler_mem
  rw [act_bind_ok (readReg_plain hs.inv.params hs.noHooks d),
    act_bind_ok (readReg_plain hs.inv.params hs.noHooks r),
    act_bind_ok (updateFlags_plain hs.inv.params hs.noHooks _)]
  rfl

theorem execCpi_plain (d : Reg) (k : Byte) :
    execCpi d k s = .next (afterFlags s (subFlags (s.reg d) k false (s.reg d - k) none)) := by
  unfold execCpi
  apply runHandler_mem
  rw [act_bind_ok (readReg_plain hs.inv.params hs.noHooks d),
    act_bind_ok (updateFlags_plain hs.inv.params hs.noHooks _)]
  rfl

theorem execCpc_plain (d r : Reg) :
    execCpc d r s =
      let R := s.reg d - s.reg r - (if s.flag .c then 1 else 0)
      .next (afterFlags s (subFlags (s.reg d) (s.reg r) (s.flag .c) R (some (s.flag .z)))) := by
  unfold execCpc
  apply runHandler_mem
  rw [act_bind_ok (readReg_plain hs.inv.params hs.noHooks d),
    act_bind_ok (readReg_plain hs.inv.params hs.noHooks r),
    act_bind_ok (readSreg_plain hs.inv.params hs.noHooks),
    act_bind_ok (writeSreg_plain hs.inv.params hs.noHooks _), subKeep_sreg s]
  rfl

/-- ROR shifts the C that `SREG` held in (R184). -/
theorem execRor_plain (d : Reg) :
    execRor d s =
      let R := withBit (s.reg d >>> 1) 7 (s.flag .c)
      .next (afterAlu s d R (shiftFlags (bitOf (s.reg d) 0) R)) := by
  unfold execRor
  apply runHandler_mem
  rw [act_bind_ok (readReg_plain hs.inv.params hs.noHooks d),
    act_bind_ok (readSreg_plain hs.inv.params hs.noHooks)]
  exact writeReg_sreg_plain hs d _ _ 1

theorem execSwap_plain (d : Reg) :
    execSwap d s = .next { s with
      mem := s.mem.set d.val ((s.reg d <<< 4) ||| (s.reg d >>> 4)), wait := 1 } := by
  unfold execSwap
  apply runHandler_mem
  rw [act_bind_ok (readReg_plain hs.inv.params hs.noHooks d),
    act_bind_ok (writeReg_plain hs.inv.params hs.noHooks d _)]
  rfl

end Handlers

/-! ## The flag lines of R178 to R193 -/

section FlagLines

variable {s t : State}

/-- `negFlags` is R179. -/
theorem neg_flags_hold (a R : Byte)
    (hf : FlagsWritten s t (negFlags a R)) :
    SignFlagsHold t R (decide (R = 0x80)) ∧ t.flag .h = (R.getLsbD 3 || a.getLsbD 3) ∧
      t.flag .c = decide (R ≠ 0) := by
  have h : t.flag .h = (bitOf R 3 || bitOf a 3) := by simp [hf, negFlags]
  refine ⟨⟨?_, ?_, ?_, ?_⟩, h, ?_⟩ <;>
    simp [hf, negFlags, BitVec.msb_eq_getLsbD_last, Bool.beq_eq_decide_eq, bne]

/-- `stepFlags` is R180 and R181. -/
theorem step_flags_hold (top R : Byte)
    (hf : FlagsWritten s t (stepFlags top R)) :
    SignFlagsHold t R (decide (R = top)) := by
  refine ⟨?_, ?_, ?_, ?_⟩ <;> simp [hf, stepFlags, BitVec.msb_eq_getLsbD_last, Bool.beq_eq_decide_eq]

/-- `shiftFlags` is the flag line of R182 to R184; `out` is the bit shifted out. -/
theorem shift_flags_hold (out : Bool) (R : Byte)
    (hf : FlagsWritten s t (shiftFlags out R)) :
    SignFlagsHold t R (R.getLsbD 7 ^^ out) ∧ t.flag .c = out := by
  refine ⟨⟨?_, ?_, ?_, ?_⟩, ?_⟩ <;> simp [hf, shiftFlags, BitVec.msb_eq_getLsbD_last, Bool.beq_eq_decide_eq]

/-- `adiwFlags` is R186. -/
theorem adiw_flags_hold (W R : Word)
    (hf : FlagsWritten s t (adiwFlags W R)) :
    WordFlagsHold t R (!W.getLsbD 15 && R.getLsbD 15) (!R.getLsbD 15 && W.getLsbD 15) := by
  refine ⟨?_, ?_, ?_, ?_, ?_⟩ <;> simp [hf, adiwFlags, BitVec.msb_eq_getLsbD_last, Bool.beq_eq_decide_eq]

/-- `sbiwFlags` is R187. -/
theorem sbiw_flags_hold (W R : Word)
    (hf : FlagsWritten s t (sbiwFlags W R)) :
    WordFlagsHold t R (W.getLsbD 15 && !R.getLsbD 15) (R.getLsbD 15 && !W.getLsbD 15) := by
  refine ⟨?_, ?_, ?_, ?_, ?_⟩ <;> simp [hf, sbiwFlags, BitVec.msb_eq_getLsbD_last, Bool.beq_eq_decide_eq]

/-- `mulFlags` is the flag line of R188 to R193. -/
theorem mul_flags_hold (P R : Word)
    (hf : FlagsWritten s t (mulFlags P R)) :
    t.flag .c = P.getLsbD 15 ∧ t.flag .z = decide (R = 0) := by
  refine ⟨?_, ?_⟩ <;> simp [hf, mulFlags, BitVec.msb_eq_getLsbD_last, Bool.beq_eq_decide_eq]

end FlagLines

/-! ## What the flags of a comparison mean -/

/-- After a subtraction without borrow, Z is equality, C unsigned less and S signed less (R170). -/
theorem SubFlagsHold.compares {t : State} {a b : Byte} (h : SubFlagsHold t a b false (a - b) true) :
    (t.flag .z = true ↔ a = b) ∧ (t.flag .c = true ↔ a.toNat < b.toNat) ∧
      (t.flag .s = true ↔ a.toInt < b.toInt) := by
  refine ⟨?_, ?_, ?_⟩
  · rw [h.z]
    simp [BitVec.sub_eq_iff_eq_add]
  · simp [h.c]
  · rw [h.s, h.n, h.v]
    simp only [Bool.toNat_false, Nat.cast_zero, sub_zero, sub_sign, decide_eq_true_eq]

/-! ## Results written two ways

The result as the model shifts and as the rules say it in numbers, for each of the 256 bytes. -/

theorem sshiftRight_one_eq (a : Byte) :
    a.sshiftRight 1 = BitVec.ofNat 8 (a.toNat / 2 + if a.getLsbD 7 then 128 else 0) := by
  decide +revert

theorem ushiftRight_one_eq (a : Byte) : a >>> 1 = BitVec.ofNat 8 (a.toNat / 2) := by
  decide +revert

theorem withBit_ushiftRight_one_eq (a : Byte) (b : Bool) :
    withBit (a >>> 1) 7 b = BitVec.ofNat 8 (a.toNat / 2 + if b then 128 else 0) := by
  decide +revert

theorem swap_nibbles_eq (a : Byte) :
    (a <<< 4) ||| (a >>> 4) = BitVec.ofNat 8 (a.toNat % 16 * 16 + a.toNat / 16) := by
  decide +revert

/-! ## The operand forms, ended by their flags -/

section Forms

variable {s : State} (hs : s.Plain) {flags : List Flag} {P : State → Prop}
include hs

theorem aluRR_ends (d r : Reg) (f : Byte → Byte → Byte) (fl : Byte → Byte → Byte → FlagWrites)
    (hk : ∀ a b R : Byte, ∀ g, g ∉ flags → ∀ x, (g, x) ∉ fl a b R)
    (hP : ∀ t, FlagsWritten s t (fl (s.reg d) (s.reg r) (f (s.reg d) (s.reg r))) → P t) :
    ∃ t, runHandler (aluRR d r f fl) s = .next t ∧ AluResult s t d (f (s.reg d) (s.reg r)) flags ∧ P t :=
  alu_ends hs (hk _ _ _) (runHandler_mem (aluRR_plain hs d r f fl)) hP

theorem aluRI_ends (d : Reg) (k : Byte) (f : Byte → Byte → Byte) (fl : Byte → Byte → Byte → FlagWrites)
    (hk : ∀ a b R : Byte, ∀ g, g ∉ flags → ∀ x, (g, x) ∉ fl a b R)
    (hP : ∀ t, FlagsWritten s t (fl (s.reg d) k (f (s.reg d) k)) → P t) :
    ∃ t, runHandler (aluRI d k f fl) s = .next t ∧ AluResult s t d (f (s.reg d) k) flags ∧ P t :=
  alu_ends hs (hk _ _ _) (runHandler_mem (aluRI_plain hs d k f fl)) hP

theorem aluD_ends (d : Reg) (f : Byte → Byte) (fl : Byte → Byte → FlagWrites)
    (hk : ∀ a R : Byte, ∀ g, g ∉ flags → ∀ x, (g, x) ∉ fl a R)
    (hP : ∀ t, FlagsWritten s t (fl (s.reg d) (f (s.reg d))) → P t) :
    ∃ t, runHandler (aluD d f fl) s = .next t ∧ AluResult s t d (f (s.reg d)) flags ∧ P t :=
  alu_ends hs (hk _ _) (runHandler_mem (aluD_plain hs d f fl)) hP

/-- The logic operations on two registers (R173, R175, R177). -/
theorem logicRR_ends (d r : Reg) (f : Byte → Byte → Byte) :
    ∃ t, runHandler (aluRR d r f fun _ _ R => logicFlags R) s = .next t ∧
      AluResult s t d (f (s.reg d) (s.reg r)) logicFlagSet ∧ LogicFlagsHold t (f (s.reg d) (s.reg r)) :=
  aluRR_ends hs d r f _ (fun _ _ => only_logic) fun _ => logic_flags_hold _ _ _ (.inl rfl)

/-- The logic operations on a register and an immediate (R174, R176). -/
theorem logicRI_ends (d : Reg) (k : Byte) (f : Byte → Byte → Byte) :
    ∃ t, runHandler (aluRI d k f fun _ _ R => logicFlags R) s = .next t ∧
      AluResult s t d (f (s.reg d) k) logicFlagSet ∧ LogicFlagsHold t (f (s.reg d) k) :=
  aluRI_ends hs d k f _ (fun _ _ => only_logic) fun _ => logic_flags_hold _ _ _ (.inl rfl)

/-- INC and DEC (R180, R181). -/
theorem step_ends (d : Reg) (f : Byte → Byte) (top : Byte) :
    ∃ t, runHandler (aluD d f fun _ R => stepFlags top R) s = .next t ∧
      AluResult s t d (f (s.reg d)) logicFlagSet ∧
      SignFlagsHold t (f (s.reg d)) (decide (f (s.reg d) = top)) :=
  aluD_ends hs d f _ (fun _ => only_step top) fun _ => step_flags_hold _ _

/-- ASR and LSR (R182, R183). -/
theorem shift_ends (d : Reg) (f : Byte → Byte) :
    ∃ t, runHandler (aluD d f fun a R => shiftFlags (bitOf a 0) R) s = .next t ∧
      AluResult s t d (f (s.reg d)) shiftFlagSet ∧
      SignFlagsHold t (f (s.reg d)) ((f (s.reg d)).getLsbD 7 ^^ (s.reg d).getLsbD 0) ∧
      t.flag .c = (s.reg d).getLsbD 0 :=
  aluD_ends hs d f _ (fun _ => only_shift _) fun _ => shift_flags_hold _ _

/-- ADIW and SBIW, but for their flags (R186, R187). -/
theorem aluPair_ends (d : Reg) (hd : d.val + 1 < 32) (k : BitVec 6) (f : Word → Word → Word)
    (fl : Word → Word → FlagWrites) (hk : ∀ W R : Word, ∀ g, g ∉ flags → ∀ x, (g, x) ∉ fl W R)
    (hP : ∀ t, FlagsWritten s t (fl (s.word d.val) (f (s.word d.val) (k.zeroExtend 16))) → P t) :
    ∃ t, runHandler (aluPair d k f fl) s = .next t ∧
      PairResult s t d.val (f (s.word d.val) (k.zeroExtend 16)) flags ∧ P t :=
  pair_ends hs (hk _ _) hd (runHandler_mem (aluPair_plain hs d hd k f fl)) hP

/-- The multiplications: C from the product, Z from what is left of it after the shift (R188 to R193). -/
theorem multiply_ends (d r : Reg) (product : Byte → Byte → Word) {shift : Nat} {R : Word}
    (hR : product (s.reg d) (s.reg r) <<< shift = R) :
    ∃ t, runHandler (multiply d r product shift) s = .next t ∧ PairResult s t 0 R [.z, .c] ∧
      t.flag .c = (product (s.reg d) (s.reg r)).getLsbD 15 ∧ t.flag .z = decide (R = 0) := by
  subst hR
  exact pair_ends hs (only_mul _ _) (by decide) (runHandler_mem (multiply_plain hs d r product shift))
    fun _ => mul_flags_hold _ _

end Forms

end Sys2Proof.Machine
end

section
/-! The statements on the arithmetic and logic instructions (spec/41_ref_arith_logic.md). -/

namespace Sys2Proof.Machine

/-- Settles O44: the model's flags are the arithmetic form, and each line of it equals its bit form. -/
theorem flagFormsAgree : Obligations.FlagFormsAgree := by
  intro a b c zOld
  have add := add_carries_eq_bits a b c
  have sub := sub_borrows_eq_bits a b c
  refine ⟨⟨addFlags_eq a b c _, ?_⟩, ⟨subFlags_eq a b c _ zOld, ?_⟩, logicFlags_eq a⟩
  · rw [addFlags_eq, add_overflow_eq_bits, add.1, add.2]
  · rw [subFlags_eq, sub_overflow_eq_bits, sub.1, sub.2]

/-- Settles O36: ADD is the two-register form, ADC reads C before it writes; both write `addFlags`. -/
theorem addResults : Obligations.AddResults := by
  intro d r
  refine ⟨rowOf_RR 0x0C00 .add d r (by simp [table, tableMoves]) rfl,
    rowOf_RR 0x1C00 .adc d r (by simp [table, tableRR]) rfl, fun s hs => ⟨?_, ?_⟩⟩
  · exact aluRR_ends hs d r _ _ (fun _ _ => only_add _ _ _) fun _ => add_flags_hold _ _ _ _ _
  · exact alu_ends hs (only_add _ _ _ _) (execAdc_plain hs d r) fun _ => add_flags_hold _ _ _ _ _

/-- Settles O37: the forms with carry pass the old Z to `subFlags`, the plain ones none. -/
theorem subtractResults : Obligations.SubtractResults := by
  refine ⟨fun d r => ⟨rowOf_RR 0x1800 .sub d r (by simp [table, tableRR]) rfl,
    rowOf_RR 0x0800 .sbc d r (by simp [table, tableMoves]) rfl, fun s hs => ⟨?_, ?_⟩⟩,
    fun d k hd => ⟨rowOf_RI 0x5000 .subi d k hd (by simp [table, tableRI]) rfl,
      rowOf_RI 0x4000 .sbci d k hd (by simp [table, tableRI]) rfl, fun s hs => ⟨?_, ?_⟩⟩⟩
  · exact aluRR_ends hs d r _ _ (fun _ _ _ => only_sub _ _ _ _ _) fun _ => sub_flags_hold _ _ _ _ _ none
  · exact alu_ends hs (only_sub _ _ _ _ _) (execSbc_plain hs d r) fun _ =>
      sub_flags_hold _ _ _ _ _ (some _)
  · exact aluRI_ends hs d k _ _ (fun _ _ _ => only_sub _ _ _ _ _) fun _ => sub_flags_hold _ _ _ _ _ none
  · exact alu_ends hs (only_sub _ _ _ _ _) (execSbci_plain hs d k) fun _ =>
      sub_flags_hold _ _ _ _ _ (some _)

/-- Settles O38: only `SREG` is written, and the meanings of Z, C and S are those of `SubFlags` of `a - b`. -/
theorem compareResults : Obligations.CompareResults := by
  refine ⟨fun d r => ⟨rowOf_RR 0x1400 .cp d r (by simp [table, tableRR]) rfl,
    rowOf_RR 0x0400 .cpc d r (by simp [table, tableMoves]) rfl, fun s hs => ⟨?_, ?_⟩⟩,
    fun d k hd => ⟨rowOf_RI 0x3000 .cpi d k hd (by simp [table, tableRI]) rfl, fun s hs => ?_⟩⟩
  · refine flag_ends hs (only_sub _ _ _ _ _) (execCp_plain hs d r) fun t hf => ?_
    have flags := sub_flags_hold _ _ _ _ _ none hf
    exact ⟨flags, flags.compares⟩
  · exact flag_ends hs (only_sub _ _ _ _ _) (execCpc_plain hs d r) fun _ =>
      sub_flags_hold _ _ _ _ _ (some _)
  · exact flag_ends hs (only_sub _ _ _ _ _) (execCpi_plain hs d k) fun _ =>
      sub_flags_hold _ _ _ _ _ none

/-- Settles O39: the two logic forms, five times. -/
theorem logicResults : Obligations.LogicResults := by
  refine ⟨fun d r => ⟨rowOf_RR 0x2000 .and d r (by simp [table, tableRR]) rfl,
    rowOf_RR 0x2800 .or d r (by simp [table, tableRR]) rfl,
    rowOf_RR 0x2400 .eor d r (by simp [table, tableRR]) rfl, fun s hs => ?_⟩,
    fun d k hd => ⟨rowOf_RI 0x7000 .andi d k hd (by simp [table, tableRI]) rfl,
      rowOf_RI 0x6000 .ori d k hd (by simp [table, tableRI]) rfl, fun s hs => ?_⟩⟩
  · exact ⟨logicRR_ends hs d r _, logicRR_ends hs d r _, logicRR_ends hs d r _⟩
  · exact ⟨logicRI_ends hs d k _, logicRI_ends hs d k _⟩

/-- Settles O40: the one-register form four times, with three flag lines. -/
theorem oneRegisterResults : Obligations.OneRegisterResults := by
  intro d
  refine ⟨rowOf_RD 0x9400 .com d (by simp [table, tableOne]) rfl,
    rowOf_RD 0x9401 .neg d (by simp [table, tableOne]) rfl,
    rowOf_RD 0x9403 .inc d (by simp [table, tableOne]) rfl,
    rowOf_RD 0x940A .dec d (by simp [table, tableOne]) rfl, fun s hs => ⟨?_, ?_, ?_, ?_⟩⟩
  · refine aluD_ends hs d _ _ (fun _ => only_com) fun t hf => ⟨logic_flags_hold _ _ _ (.inr rfl) hf, ?_⟩
    simp [hf, comFlags]
  · exact aluD_ends hs d _ _ only_neg fun _ => neg_flags_hold _ _
  · exact step_ends hs d _ _
  · exact step_ends hs d _ _

/-- Settles O41: the model shifts where the rules halve and add the bit shifted in, which is the same byte. -/
theorem shiftResults : Obligations.ShiftResults := by
  intro d
  refine ⟨rowOf_RD 0x9405 .asr d (by simp [table, tableOne]) rfl,
    rowOf_RD 0x9406 .lsr d (by simp [table, tableOne]) rfl,
    rowOf_RD 0x9407 .ror d (by simp [table, tableOne]) rfl,
    rowOf_RD 0x9402 .swap d (by simp [table, tableOne]) rfl, fun s hs => ⟨?_, ?_, ?_, ?_⟩⟩
  · rw [← sshiftRight_one_eq]
    exact shift_ends hs d _
  · rw [← ushiftRight_one_eq]
    obtain ⟨t, ht, result, signs, carry⟩ := shift_ends hs d (fun a => a >>> 1)
    have positive : (s.reg d >>> 1).getLsbD 7 = false := by simp
    rw [positive, Bool.false_xor] at signs
    exact ⟨t, ht, result, signs, signs.n.trans positive, carry⟩
  · rw [← withBit_ushiftRight_one_eq]
    exact alu_ends hs (only_shift _ _) (execRor_plain hs d) fun _ => shift_flags_hold _ _
  · rw [← swap_nibbles_eq]
    exact ⟨_, execSwap_plain hs d, regResult_of hs d _ 1⟩

/-- Settles O42: the pair at r24 to r31 lies inside the registers, so the pair form applies. -/
theorem wordImmediateResults : Obligations.WordImmediateResults := by
  intro d k hd
  have pair : 24 ≤ d.val ∧ d.val % 2 = 0 := by
    simp only [List.mem_cons, List.not_mem_nil, or_false] at hd
    omega
  have hd1 : d.val + 1 < 32 := by omega
  refine ⟨rowOf_WI 0x9600 .adiw d k pair (by simp [table, tableWordIo]) rfl,
    rowOf_WI 0x9700 .sbiw d k pair (by simp [table, tableWordIo]) rfl, fun s hs => ⟨?_, ?_⟩⟩
  · exact aluPair_ends hs d hd1 k _ _ only_adiw fun _ => adiw_flags_hold _ _
  · exact aluPair_ends hs d hd1 k _ _ only_sbiw fun _ => sbiw_flags_hold _ _

/-- Settles O43: one form six times; a shift by 0 leaves the product. -/
theorem multiplyResults : Obligations.MultiplyResults := by
  intro d r
  refine ⟨rowOf_RR 0x9C00 .mul d r (by simp [table, tableWordIo]) rfl,
    fun hd hr => rowOf_M16 0x0200 .muls d r hd hr (by simp [table, tableMoves]) rfl,
    fun hd hd' hr hr' => ⟨
      rowOf_M8 0x0300 .mulsu d r ⟨hd, hd'⟩ ⟨hr, hr'⟩ (by simp [table, tableMoves]) rfl,
      rowOf_M8 0x0308 .fmul d r ⟨hd, hd'⟩ ⟨hr, hr'⟩ (by simp [table, tableMoves]) rfl,
      rowOf_M8 0x0380 .fmuls d r ⟨hd, hd'⟩ ⟨hr, hr'⟩ (by simp [table, tableMoves]) rfl,
      rowOf_M8 0x0388 .fmulsu d r ⟨hd, hd'⟩ ⟨hr, hr'⟩ (by simp [table, tableMoves]) rfl⟩, ?_⟩
  intro s hs uu ss su i P R hi
  simp only [List.mem_cons, List.not_mem_nil, or_false, Prod.mk.injEq] at hi
  obtain ⟨rfl, rfl, rfl⟩ | ⟨rfl, rfl, rfl⟩ | ⟨rfl, rfl, rfl⟩ | ⟨rfl, rfl, rfl⟩ | ⟨rfl, rfl, rfl⟩ |
    ⟨rfl, rfl, rfl⟩ := hi
  · exact multiply_ends hs d r productUU (BitVec.shiftLeft_zero _)
  · exact multiply_ends hs d r productSS (BitVec.shiftLeft_zero _)
  · exact multiply_ends hs d r productSU (BitVec.shiftLeft_zero _)
  · exact multiply_ends hs d r productUU rfl
  · exact multiply_ends hs d r productSS rfl
  · exact multiply_ends hs d r productSU rfl

end Sys2Proof.Machine
end

section
/-! SUPPORT. The one-word formats that the control-transfer instructions add (spec/30_encoding.md R106): for
each, the encoder's word is the sum of R106, and the row that reads its fields is that of the instruction. -/

namespace Sys2Proof.Machine

/-- Format `Z0`: the whole word is fixed. -/
theorem rowOf_Z0 (p : Nat) (i : Instr) (hrow : ⟨0xFFFF#16, BitVec.ofNat 16 p, 1, fun _ _ => i⟩ ∈ table)
    (he : encode i = [BitVec.ofNat 16 p]) :
    RowOf i 0xFFFF (BitVec.ofNat 16 p) (BitVec.ofNat 16 p) [] :=
  rowOf_of_mem_table hrow rfl he BitVec.and_allOnes rfl

/-- Format `J12`. -/
theorem rowOf_J12 (p : Nat) (i : BitVec 12 → Instr) (k : BitVec 12)
    (hrow : ⟨0xF000#16, BitVec.ofNat 16 p, 1, fun w _ => i (kJ12 w)⟩ ∈ table)
    (he : encode (i k) = [encJ12 (BitVec.ofNat 16 p) k])
    (hp : BitVec.ofNat 16 p &&& 0xF000 = BitVec.ofNat 16 p := by decide) (h0 : p % 4096 = 0 := by decide) :
    RowOf (i k) 0xF000 (BitVec.ofNat 16 p) (wordJ12 p k) [] := by
  have laid := (Layout.pattern hp).put 0 12 k.isLt
  have word : encJ12 (BitVec.ofNat 16 p) k = wordJ12 p k := by simpa [encJ12, wordJ12] using laid.value
  have hk : kJ12 (wordJ12 p k) = k := BitVec.eq_of_toNat_eq (by simp [kJ12, field, wordJ12]; omega)
  exact rowOf_of_mem_table hrow rfl (word ▸ he) (word ▸ laid.fixed) (by simp only [hk])

/-- Format `BR`. -/
theorem rowOf_BR (p : Nat) (i : BitIx → BitVec 7 → Instr) (f : BitIx) (k : BitVec 7)
    (hrow : ⟨0xFC00#16, BitVec.ofNat 16 p, 1, fun w _ => i (bitLow w) (kBR w)⟩ ∈ table)
    (he : encode (i f k) = [encBR (BitVec.ofNat 16 p) f k])
    (hp : BitVec.ofNat 16 p &&& 0xFC00 = BitVec.ofNat 16 p := by decide) (h0 : p % 1024 = 0 := by decide) :
    RowOf (i f k) 0xFC00 (BitVec.ofNat 16 p) (wordBR p f k) [] := by
  have laid := ((Layout.pattern hp).put 3 7 k.isLt).put 0 3 f.isLt
  have word : encBR (BitVec.ofNat 16 p) f k = wordBR p f k := by simpa [encBR, wordBR] using laid.value
  have hf : bitLow (wordBR p f k) = f := Fin.ext (by simp [bitLow, field, wordBR]; omega)
  have hk : kBR (wordBR p f k) = k := BitVec.eq_of_toNat_eq (by simp [kBR, field, wordBR]; omega)
  exact rowOf_of_mem_table hrow rfl (word ▸ he) (word ▸ laid.fixed) (by simp only [hf, hk])

/-- Format `RB`: bit 3 is fixed between the register and the bit number. -/
theorem rowOf_RB (p : Nat) (i : Reg → BitIx → Instr) (r : Reg) (b : BitIx)
    (hrow : ⟨0xFE08#16, BitVec.ofNat 16 p, 1, fun w _ => i (dReg w) (bitLow w)⟩ ∈ table)
    (he : encode (i r b) = [encRB (BitVec.ofNat 16 p) r b])
    (hp : BitVec.ofNat 16 p &&& 0xFE08 = BitVec.ofNat 16 p := by decide) (h0 : p % 512 = 0 := by decide) :
    RowOf (i r b) 0xFE08 (BitVec.ofNat 16 p) (wordRB p r b) [] := by
  have laid := ((Layout.pattern hp).put 4 5 r.isLt).put 0 3 b.isLt
  have word : encRB (BitVec.ofNat 16 p) r b = wordRB p r b := by simpa [encRB, wordRB] using laid.value
  have hr : dReg (wordRB p r b) = r := Fin.ext (by simp [dReg, field, wordRB]; omega)
  have hb : bitLow (wordRB p r b) = b := Fin.ext (by simp [bitLow, field, wordRB]; omega)
  exact rowOf_of_mem_table hrow rfl (word ▸ he) (word ▸ laid.fixed) (by simp only [hr, hb])

/-- Format `IOB`. -/
theorem rowOf_IOB (p : Nat) (i : Fin 32 → BitIx → Instr) (a : Fin 32) (b : BitIx)
    (hrow : ⟨0xFF00#16, BitVec.ofNat 16 p, 1, fun w _ => i (aIOB w) (bitLow w)⟩ ∈ table)
    (he : encode (i a b) = [encIOB (BitVec.ofNat 16 p) a b])
    (hp : BitVec.ofNat 16 p &&& 0xFF00 = BitVec.ofNat 16 p := by decide) (h0 : p % 256 = 0 := by decide) :
    RowOf (i a b) 0xFF00 (BitVec.ofNat 16 p) (wordIOB p a b) [] := by
  have laid := ((Layout.pattern hp).put 3 5 a.isLt).put 0 3 b.isLt
  have word : encIOB (BitVec.ofNat 16 p) a b = wordIOB p a b := by simpa [encIOB, wordIOB] using laid.value
  have ha : aIOB (wordIOB p a b) = a := Fin.ext (by simp [aIOB, field, wordIOB]; omega)
  have hb : bitLow (wordIOB p a b) = b := Fin.ext (by simp [bitLow, field, wordIOB]; omega)
  exact rowOf_of_mem_table hrow rfl (word ▸ he) (word ▸ laid.fixed) (by simp only [ha, hb])

end Sys2Proof.Machine
end

section
/-! SUPPORT. The jumps, branches and skips as handlers (spec/42_ref_control_transfer.md R210 to R225): each
reads what its condition or target needs, and then runs as the one form `branchIf` or `skipIf` from the
state after the reads. -/

namespace Sys2Proof.Machine

/-- A handler whose first part succeeds runs on from the state that part left. -/
theorem runHandler_bind_ok {α : Type} {m : Act α} {f : α → Act Nat} {s u : State} {a : α}
    (h : m s = .ok (a, u)) : runHandler (m >>= f) s = runHandler (f a) u := by
  rw [runHandler, act_bind_ok h, runHandler]

/-- A handler whose first part faults ends in that fault. -/
theorem runHandler_bind_error {α : Type} {m : Act α} {f : α → Act Nat} {s : State} {e : Fault}
    (h : m s = .error e) : runHandler (m >>= f) s = .fault e :=
  runHandler_error (act_bind_error h)

/-- A relative target: the signed offset is added to `pc`, modulo 2^16 (R210). -/
theorem add_signExtend_eq_ofInt {n : Nat} (p : Word) (k : BitVec n) :
    p + k.signExtend 16 = BitVec.ofInt 16 (p.toNat + k.toInt) := by
  rw [BitVec.ofInt_add, BitVec.ofInt_natCast, BitVec.ofNat_toNat, BitVec.setWidth_eq]
  rfl

theorem exec_rjmp (k : BitVec 12) (s : State) :
    exec (.rjmp k) s = .next { s with pc := s.pc + k.signExtend 16, wait := 2 } := rfl

section Plain

variable {s : State} (hs : s.Plain)
include hs

theorem exec_ijmp_plain : exec .ijmp s = .next { s with pc := s.ptr .z, wait := 2 } :=
  runHandler_bind_ok (readPointer_plain hs.inv.params hs.noHooks .z)

theorem exec_brbs_plain (f : BitIx) (k : BitVec 7) :
    exec (.brbs f k) s = runHandler (branchIf (s.sreg.getLsbD f.val) k) s :=
  runHandler_bind_ok (readFlag_plain hs.inv.params hs.noHooks f)

theorem exec_brbc_plain (f : BitIx) (k : BitVec 7) :
    exec (.brbc f k) s = runHandler (branchIf (!s.sreg.getLsbD f.val) k) s :=
  runHandler_bind_ok (readFlag_plain hs.inv.params hs.noHooks f)

theorem exec_cpse_plain (d r : Reg) :
    exec (.cpse d r) s = runHandler (skipIf (s.reg d == s.reg r)) s :=
  (runHandler_bind_ok (readReg_plain hs.inv.params hs.noHooks d)).trans
    (runHandler_bind_ok (readReg_plain hs.inv.params hs.noHooks r))

theorem exec_sbrc_plain (r : Reg) (b : BitIx) :
    exec (.sbrc r b) s = runHandler (skipIf (!(s.reg r).getLsbD b.val)) s :=
  runHandler_bind_ok (readReg_plain hs.inv.params hs.noHooks r)

theorem exec_sbrs_plain (r : Reg) (b : BitIx) :
    exec (.sbrs r b) s = runHandler (skipIf ((s.reg r).getLsbD b.val)) s :=
  runHandler_bind_ok (readReg_plain hs.inv.params hs.noHooks r)

end Plain

section IoSkips

variable {s : State} {a : Fin 32}

/-- SBIC decides on the byte the I/O location answers, and runs on from the state the read left. -/
theorem exec_sbic_readAt {v : Byte} {u : State} (h : ReadAt s (ioAddr s.params a.val) v u) (b : BitIx) :
    exec (.sbic a b) s = runHandler (skipIf (!v.getLsbD b.val)) u :=
  runHandler_bind_ok (m := readIo a.val) h.access

theorem exec_sbis_readAt {v : Byte} {u : State} (h : ReadAt s (ioAddr s.params a.val) v u) (b : BitIx) :
    exec (.sbis a b) s = runHandler (skipIf (v.getLsbD b.val)) u :=
  runHandler_bind_ok (m := readIo a.val) h.access

theorem readIo_outside (h : s.params.dataSize ≤ ioAddr s.params a.val) :
    readIo a.val s = .error (.addressRange .data (ioAddr s.params a.val)) :=
  memRead_outside h

end IoSkips

end Sys2Proof.Machine
end

section
/-! The statements on jumps, branches and skips (spec/42_ref_control_transfer.md). -/

namespace Sys2Proof.Machine

/-- Settles O57: each skip is `skipIf` of its condition, from the state after its reads. For SBIC and SBIS
that is the state a read hook at the I/O location may have left. -/
theorem skipResults : Obligations.SkipResults := by
  refine ⟨fun d r => ⟨rowOf_RR 0x1000 .cpse d r (by simp [table, tableRR]) rfl, fun s hs => ?_⟩,
    fun r b => ⟨rowOf_RB 0xFC00 .sbrc r b (by simp [table, tableHigh]) rfl,
      rowOf_RB 0xFE00 .sbrs r b (by simp [table, tableHigh]) rfl, fun s hs => ⟨?_, ?_⟩⟩,
    fun a b => ⟨rowOf_IOB 0x9900 .sbic a b (by simp [table, tableWordIo]) rfl,
      rowOf_IOB 0x9B00 .sbis a b (by simp [table, tableWordIo]) rfl,
      fun s _ => ⟨fun inside => ?_, fun outside => ?_⟩⟩⟩
  · rw [exec_cpse_plain hs d r]
    exact skipIf_runs s _ _ beq_iff_eq.symm
  · rw [exec_sbrc_plain hs r b]
    exact skipIf_runs s _ _ (by rw [Bool.not_eq_true'])
  · rw [exec_sbrs_plain hs r b]
    exact skipIf_runs s _ _ Iff.rfl
  · obtain ⟨v, u, hr⟩ := memRead_readAt inside
    refine ⟨v, u, hr, hr.keeps.pc, ?_, ?_⟩
    · rw [exec_sbic_readAt hr b]
      exact skipIf_runs u _ _ (by rw [Bool.not_eq_true'])
    · rw [exec_sbis_readAt hr b]
      exact skipIf_runs u _ _ Iff.rfl
  · exact ⟨runHandler_bind_error (readIo_outside outside), runHandler_bind_error (readIo_outside outside)⟩

/-- Settles O56: both branches are `branchIf` of the flag or of its complement. -/
theorem branchResults : Obligations.BranchResults := by
  intro f k
  refine ⟨rowOf_BR 0xF000 .brbs f k (by simp [table, tableHigh]) rfl,
    rowOf_BR 0xF400 .brbc f k (by simp [table, tableHigh]) rfl, fun s hs i taken hi => ?_⟩
  simp only [List.mem_cons, List.not_mem_nil, or_false, Prod.mk.injEq] at hi
  rw [← add_signExtend_eq_ofInt]
  obtain ⟨rfl, rfl⟩ | ⟨rfl, rfl⟩ := hi
  · rw [exec_brbs_plain hs f k]
    exact branchIf_runs s _ k
  · rw [exec_brbc_plain hs f k]
    exact branchIf_runs s _ k

/-- Settles O53: RJMP reads nothing but `pc`, so no hook can matter; IJMP reads the pointer Z. -/
theorem jumpResults : Obligations.JumpResults := by
  refine ⟨fun k => ⟨rowOf_J12 0xC000 .rjmp k (by simp [table, tableHigh]) rfl, fun s => ?_⟩,
    rowOf_Z0 0x9409 .ijmp (by simp [table, tableOne]) rfl, fun s hs => ?_⟩
  · rw [← add_signExtend_eq_ofInt]
    exact ⟨_, exec_rjmp k s, ran_pc s _ 2, fun _ _ => rfl⟩
  · exact ⟨_, exec_ijmp_plain hs, ran_pc s _ 2, fun _ _ => rfl⟩

end Sys2Proof.Machine
end

section
/-! SUPPORT. The formats that the data-transfer instructions add (spec/30_encoding.md R106): for each, the
encoder's words are those of R106, and the row that reads its fields is that of the instruction. -/

namespace Sys2Proof.Machine

/-- Format `MW`: the fields hold half the number of an even register. -/
theorem rowOf_MW (p : Nat) (i : Reg → Reg → Instr) (d r : Reg) (hd2 : d.val % 2 = 0) (hr2 : r.val % 2 = 0)
    (hrow : ⟨0xFF00#16, BitVec.ofNat 16 p, 1, fun w _ => i (dMW w) (rMW w)⟩ ∈ table)
    (he : encode (i d r) = [encMW (BitVec.ofNat 16 p) d r])
    (hp : BitVec.ofNat 16 p &&& 0xFF00 = BitVec.ofNat 16 p := by decide) (h0 : p % 256 = 0 := by decide) :
    RowOf (i d r) 0xFF00 (BitVec.ofNat 16 p) (wordMW p d r) [] := by
  have high : d.val / 2 < 2 ^ 4 := by omega
  have low : r.val / 2 < 2 ^ 4 := by omega
  have laid := ((Layout.pattern hp).put 4 4 high).put 0 4 low
  have word : encMW (BitVec.ofNat 16 p) d r = wordMW p d r := by simpa [encMW, wordMW] using laid.value
  have hd : dMW (wordMW p d r) = d := Fin.ext (by simp [dMW, field, wordMW]; omega)
  have hr : rMW (wordMW p d r) = r := Fin.ext (by simp [rMW, field, wordMW]; omega)
  exact rowOf_of_mem_table hrow rfl (word ▸ he) (word ▸ laid.fixed) (by simp only [hd, hr])

/-- The patterns of format `LDD`: bit 9 is set for a store, bit 3 for the pointer Y. -/
abbrev LddPattern (p : Nat) : Prop := p = 0x8000 ∨ p = 0x8008 ∨ p = 0x8200 ∨ p = 0x8208

/-- The sum that format `LDD` lays out does not reach 2^16. -/
theorem wordLDD_toNat {p : Nat} (h0 : LddPattern p) (d : Reg) (q : BitVec 6) :
    (wordLDD p d q).toNat =
      p + q.toNat / 32 * 2 ^ 13 + q.toNat / 8 % 4 * 2 ^ 10 + d.val * 2 ^ 4 + q.toNat % 8 := by
  simp [wordLDD]
  omega

/-- The three parts of a displacement, read back from the sum (R108). -/
theorem displacement_fields {p x y d z : Nat} (h0 : LddPattern p) (hx : x < 2 ^ 1) (hy : y < 2 ^ 2)
    (hd : d < 32) (hz : z < 2 ^ 3) :
    (p + x * 2 ^ 13 + y * 2 ^ 10 + d * 2 ^ 4 + z) / 2 ^ 13 % 2 ^ 1 = x ∧
    (p + x * 2 ^ 13 + y * 2 ^ 10 + d * 2 ^ 4 + z) / 2 ^ 10 % 2 ^ 2 = y ∧
    (p + x * 2 ^ 13 + y * 2 ^ 10 + d * 2 ^ 4 + z) / 2 ^ 0 % 2 ^ 3 = z := by
  refine ⟨?_, ?_, ?_⟩ <;> omega

/-- Format `LDD`: the displacement is spread over three fields, with fixed bits between them. -/
theorem rowOf_LDD (p : Nat) (i : Reg → BitVec 6 → Instr) (d : Reg) (q : BitVec 6)
    (hrow : ⟨0xD208#16, BitVec.ofNat 16 p, 1, fun w _ => i (dReg w) (qLDD w)⟩ ∈ table)
    (he : encode (i d q) = [encLDD (BitVec.ofNat 16 p) d q])
    (hp : BitVec.ofNat 16 p &&& 0xD208 = BitVec.ofNat 16 p := by decide)
    (h0 : LddPattern p := by decide) :
    RowOf (i d q) 0xD208 (BitVec.ofNat 16 p) (wordLDD p d q) [] := by
  have q64 := q.isLt
  have high : q.toNat / 32 < 2 ^ 1 := by omega
  have mid : q.toNat / 8 % 4 < 2 ^ 2 := by omega
  have low : q.toNat % 8 < 2 ^ 3 := by omega
  have laid := ((((Layout.pattern hp).put 13 1 high).put 10 2 mid).put 4 5 d.isLt).put 0 3 low
  have word : encLDD (BitVec.ofNat 16 p) d q = wordLDD p d q := by
    simpa [encLDD, wordLDD] using laid.value
  have hd : dReg (wordLDD p d q) = d := Fin.ext (by simp [dReg, field, wordLDD]; omega)
  have whole : q.toNat / 32 * 32 + q.toNat / 8 % 4 * 8 + q.toNat % 8 = q.toNat := by omega
  have ⟨hhigh, hmid, hlow⟩ := displacement_fields h0 high mid d.isLt low
  have hq : qLDD (wordLDD p d q) = q := by
    rw [qLDD, field, field, field, wordLDD_toNat h0, hhigh, hmid, hlow, whole, BitVec.ofNat_toNat,
      BitVec.setWidth_eq]
  exact rowOf_of_mem_table hrow rfl (word ▸ he) (word ▸ laid.fixed) (by simp only [hd, hq])

/-- Format `IO`. -/
theorem rowOf_IO (p : Nat) (i : Reg → Fin 64 → Instr) (d : Reg) (a : Fin 64)
    (hrow : ⟨0xF800#16, BitVec.ofNat 16 p, 1, fun w _ => i (dReg w) (aIO w)⟩ ∈ table)
    (he : encode (i d a) = [encIO (BitVec.ofNat 16 p) d a])
    (hp : BitVec.ofNat 16 p &&& 0xF800 = BitVec.ofNat 16 p := by decide) (h0 : p % 2048 = 0 := by decide) :
    RowOf (i d a) 0xF800 (BitVec.ofNat 16 p) (wordIO p d a) [] := by
  have high : a.val / 16 < 2 ^ 2 := by omega
  have low : a.val % 16 < 2 ^ 4 := by omega
  have laid := (((Layout.pattern hp).put 9 2 high).put 4 5 d.isLt).put 0 4 low
  have word : encIO (BitVec.ofNat 16 p) d a = wordIO p d a := by simpa [encIO, wordIO] using laid.value
  have hd : dReg (wordIO p d a) = d := Fin.ext (by simp [dReg, field, wordIO]; omega)
  have ha : aIO (wordIO p d a) = a := Fin.ext (by simp [aIO, field, wordIO]; omega)
  exact rowOf_of_mem_table hrow rfl (word ▸ he) (word ▸ laid.fixed) (by simp only [hd, ha])

/-- A two-word instruction, from its row of the table. -/
theorem rowOf_two_of_mem_table {i : Instr} {row : Row} {w w2 : Word} (hrow : row ∈ table) (two : row.words = 2)
    (he : encode i = [w, w2]) (hm : w &&& row.mask = row.pattern) (hb : row.build w w2 = i) :
    RowOf i row.mask row.pattern w [w2] := by
  refine ⟨he, hm, fun more => ?_⟩
  simp [decodeWords, lookup_of_match hrow hm, two, hb]

/-- Format `LS2`: the first word as in format `RD`, the address in the second. -/
theorem rowOf_LS2 (p : Nat) (i : Reg → Word → Instr) (d : Reg) (k : Word)
    (hrow : ⟨0xFE0F#16, BitVec.ofNat 16 p, 2, fun w w2 => i (dReg w) w2⟩ ∈ table)
    (he : encode (i d k) = [encD (BitVec.ofNat 16 p) d, k])
    (hp : BitVec.ofNat 16 p &&& 0xFE0F = BitVec.ofNat 16 p := by decide)
    (h0 : p / 16 % 32 = 0 := by decide) :
    RowOf (i d k) 0xFE0F (BitVec.ofNat 16 p) (wordD p d) [k] := by
  have laid := (Layout.pattern hp).put 4 5 d.isLt
  have word : encD (BitVec.ofNat 16 p) d = wordD p d := by simpa [encD, wordD] using laid.value
  have hd : dReg (wordD p d) = d := Fin.ext (by simp [dReg, field, wordD]; omega)
  exact rowOf_two_of_mem_table hrow rfl (word ▸ he) (word ▸ laid.fixed) (by simp only [hd])

end Sys2Proof.Machine
end

section
/-! SUPPORT. The moves, loads, stores and I/O accesses without pointer update as handlers under
`NoCoreHooks` (spec/43_ref_data_transfer.md R233 to R259; spec/44_ref_bit_and_mcu.md R285, R286): each
computes an address, and then runs as one of three forms, a load, a store or a read-modify-write there. -/

namespace Sys2Proof.Machine

/-- A load of register `d` once the effective address is known. -/
def loadFrom (ea : Word) (d : Reg) (k : Nat) : Act Nat := do
  let v ← memRead ea.toNat
  writeReg d v
  return k

/-- A store of register `r` once the effective address is known. -/
def storeTo (ea : Word) (r : Reg) (k : Nat) : Act Nat := do
  let v ← readReg r
  memWrite ea.toNat v
  return k

/-- A read-modify-write of the byte at I/O location `a`. -/
def modifyIo (a : Nat) (f : Byte → Byte) : Act Nat := do
  let v ← readIo a
  writeIo a (f v)
  return 2

/-- The data address of I/O location `a` as the 16-bit effective address it is (R84, R230). -/
abbrev ioWord (p : Params) (a : Nat) : Word := BitVec.ofNat 16 (p.ioBase + a)

/-! ## The forms -/

section Forms

variable {s : State} (hs : s.Plain)
include hs

/-- A handler that ends with one register write. -/
theorem writeReg_ends (d : Reg) (v : Byte) (k : Nat) :
    ∃ t, runHandler (do writeReg d v; return k) s = .next t ∧ RegResult s t d v k :=
  ⟨_, runHandler_bind_ok (writeReg_plain hs.inv.params hs.noHooks d v), regResult_of hs d v k⟩

/-- A handler that ends with one write of a register pair. -/
theorem writePair_ends (d : Reg) (hd : d.val + 1 < 32) (v : Word) (k : Nat) :
    ∃ t, runHandler (do writePair d v; return k) s = .next t ∧ Ran s t s.pc k ∧ t.word d.val = v ∧
      OnlyBytes s t [d.val, d.val + 1] := by
  have pair := writeWord_map hs d.val v
  refine ⟨_, runHandler_bind_ok (writePair_plain hs.inv.params hs.noHooks d v hd),
    ⟨rfl, rfl, rfl, rfl, rfl, rfl, rfl, rfl, rfl, rfl, rfl, rfl⟩, word_of_map (pair _) (pair _), fun x hx => ?_⟩
  simp only [List.mem_cons, List.not_mem_nil, or_false, not_or] at hx
  exact (pair x).trans (by simp only [withWord, hx, if_false])

/-- An instruction that runs as a load. -/
theorem load_ends {i : Instr} {ea : Word} {d : Reg} {k : Nat}
    (hi : exec i s = runHandler (loadFrom ea d k) s) :
    (ea.toNat < s.params.dataSize →
      ∃ v u t, ReadAt s ea.toNat v u ∧ exec i s = .next t ∧ RegResult u t d v k) ∧
    (s.params.dataSize ≤ ea.toNat → exec i s = .fault (.addressRange .data ea.toNat)) := by
  rw [hi]
  exact load_runs hs d ea (pure ea) rfl k

/-- An instruction that runs as a store. -/
theorem store_ends {i : Instr} {ea : Word} {r : Reg} {k : Nat}
    (hi : exec i s = runHandler (storeTo ea r k) s) :
    (ea.toNat < s.params.dataSize →
      ∃ u, WriteAt s ea.toNat (s.reg r) u ∧ exec i s = .next { u with wait := k }) ∧
    (s.params.dataSize ≤ ea.toNat → exec i s = .fault (.addressRange .data ea.toNat)) := by
  rw [hi, storeTo, runHandler_bind_ok (readReg_plain hs.inv.params hs.noHooks r)]
  refine ⟨fun inside => ?_, fun outside => runHandler_bind_error (memWrite_outside outside)⟩
  obtain ⟨u, hu⟩ := memWrite_writeAt hs.inv inside
  exact ⟨u, hu, runHandler_bind_ok hu.access⟩

/-- A read-modify-write of an I/O location that exists: the write is at the address of the read, from the
state the read left. -/
theorem modifyIo_ends {a : Nat} (f : Byte → Byte) (inside : ioAddr s.params a < s.params.dataSize) :
    ∃ v u t, ReadAt s (ioAddr s.params a) v u ∧ WriteAt u (ioAddr s.params a) (f v) t ∧
      runHandler (modifyIo a f) s = .next { t with wait := 2 } := by
  obtain ⟨v, u, hr⟩ := memRead_readAt inside
  have same := hr.keeps.unit.params
  have inside' : ioAddr s.params a < u.params.dataSize := same.symm ▸ inside
  obtain ⟨t, hw⟩ := memWrite_writeAt (v := f v) (hr.plain hs).inv inside'
  have write : writeIo a (f v) u = .ok ((), t) := by
    rw [writeIo, same]
    exact hw.access
  exact ⟨v, u, t, hr, hw,
    (runHandler_bind_ok (m := readIo a) hr.access).trans (runHandler_bind_ok write)⟩

end Forms

/-- A read-modify-write of an I/O location that does not exist faults at the read. -/
theorem modifyIo_outside {s : State} {a : Nat} (f : Byte → Byte)
    (outside : s.params.dataSize ≤ ioAddr s.params a) :
    runHandler (modifyIo a f) s = .fault (.addressRange .data (ioAddr s.params a)) :=
  runHandler_bind_error (m := readIo a) (memRead_outside outside)

/-! ## The instructions as forms -/

section Instructions

variable {s : State} (hs : s.Plain)
include hs

theorem exec_mov_plain (d r : Reg) :
    exec (.mov d r) s = runHandler (do writeReg d (s.reg r); return 1) s :=
  runHandler_bind_ok (readReg_plain hs.inv.params hs.noHooks r)

theorem exec_movw_plain (d r : Reg) (hr : r.val + 1 < 32) :
    exec (.movw d r) s = runHandler (do writePair d (s.word r.val); return 1) s :=
  runHandler_bind_ok (readPair_plain hs.inv.params hs.noHooks r hr)

theorem exec_ldX_plain (d : Reg) : exec (.ldX d) s = runHandler (loadFrom (s.ptr .x) d 2) s :=
  runHandler_bind_ok (ptr_read hs .x)

/-- LDD through either pointer. -/
theorem loadDisp_plain (d : Reg) (p : Pointer) (q : BitVec 6) :
    runHandler (loadDisp d p q) s = runHandler (loadFrom (s.ptr p + q.zeroExtend 16) d 2) s :=
  runHandler_bind_ok (ptr_read hs p)

theorem exec_stX_plain (r : Reg) : exec (.stX r) s = runHandler (storeTo (s.ptr .x) r 2) s :=
  runHandler_bind_ok (ptr_read hs .x)

/-- STD through either pointer. -/
theorem storeDisp_plain (p : Pointer) (q : BitVec 6) (r : Reg) :
    runHandler (storeDisp p q r) s = runHandler (storeTo (s.ptr p + q.zeroExtend 16) r 2) s :=
  runHandler_bind_ok (ptr_read hs p)

theorem exec_out_plain (a : Fin 64) (r : Reg) :
    exec (.out a r) s = runHandler (storeTo (ioWord s.params a.val) r 1) s := by
  have read := readReg_plain hs.inv.params hs.noHooks r
  rw [storeTo, runHandler_bind_ok read]
  exact runHandler_bind_ok read

end Instructions

theorem exec_lds (d : Reg) (k : Word) (s : State) : exec (.lds d k) s = runHandler (loadFrom k d 2) s := rfl

theorem exec_sts (k : Word) (r : Reg) (s : State) : exec (.sts k r) s = runHandler (storeTo k r 2) s := rfl

theorem exec_in (d : Reg) (a : Fin 64) (s : State) :
    exec (.inp d a) s = runHandler (loadFrom (ioWord s.params a.val) d 1) s := rfl

theorem exec_sbi (a : Fin 32) (b : BitIx) (s : State) :
    exec (.sbi a b) s = runHandler (modifyIo a.val fun v => v ||| (1#8 <<< b.val)) s := rfl

theorem exec_cbi (a : Fin 32) (b : BitIx) (s : State) :
    exec (.cbi a b) s = runHandler (modifyIo a.val fun v => v &&& ~~~(1#8 <<< b.val)) s := rfl

/-! ## The bytes SBI and CBI write back -/

/-- The mask of one bit. -/
theorem getLsbD_one_shiftLeft (b j : BitIx) : (1#8 <<< b.val).getLsbD j.val = decide (j = b) := by
  have hj := j.isLt
  rw [← BitVec.twoPow_eq, BitVec.getLsbD_twoPow, Bool.eq_iff_iff]
  simp [Fin.ext_iff]
  omega

/-- The byte SBI writes: bit `b` set, every other bit as read. -/
theorem getLsbD_or_one_shiftLeft (v : Byte) (b j : BitIx) :
    (v ||| (1#8 <<< b.val)).getLsbD j.val = (decide (j = b) || v.getLsbD j.val) := by
  rw [BitVec.getLsbD_or, getLsbD_one_shiftLeft, Bool.or_comm]

/-- The byte CBI writes: bit `b` clear, every other bit as read. -/
theorem getLsbD_and_not_one_shiftLeft (v : Byte) (b j : BitIx) :
    (v &&& ~~~(1#8 <<< b.val)).getLsbD j.val = (decide (j ≠ b) && v.getLsbD j.val) := by
  rw [BitVec.getLsbD_and, BitVec.getLsbD_not, getLsbD_one_shiftLeft, Bool.and_comm]
  simp

end Sys2Proof.Machine
end

section
/-! The statements on moves, loads, stores and I/O accesses (spec/43_ref_data_transfer.md,
spec/44_ref_bit_and_mcu.md R285, R286). -/

namespace Sys2Proof.Machine

/-- Settles O45: each move is one write of a register or a pair; MOVW has read its whole source before that,
so overlapping pairs need no case of their own. -/
theorem moveResults : Obligations.MoveResults := by
  refine ⟨fun d r => ⟨rowOf_RR 0x2C00 .mov d r (by simp [table, tableRR]) rfl, fun s hs => ?_⟩,
    fun d r hd hr => ⟨rowOf_MW 0x0100 .movw d r hd hr (by simp [table, tableMoves]) rfl, fun s hs => ?_⟩,
    fun d k hd => ⟨rowOf_RI 0xE000 .ldi d k hd (by simp [table, tableHigh]) rfl, fun s hs => ?_⟩⟩
  · rw [exec_mov_plain hs d r]
    exact writeReg_ends hs d _ 1
  · rw [exec_movw_plain hs d r (by omega)]
    exact writePair_ends hs d (by omega) _ 1
  · exact writeReg_ends hs d k 1

/-- Settles O46: four ways to compute the address of one load. -/
theorem loadResults : Obligations.LoadResults := by
  intro d q k
  refine ⟨rowOf_RD 0x900C .ldX d (by simp [table, tableLoad]) rfl,
    rowOf_LDD 0x8008 .lddY d q (by simp [table, tableDisp]) rfl,
    rowOf_LDD 0x8000 .lddZ d q (by simp [table, tableDisp]) rfl,
    rowOf_LS2 0x9000 .lds d k (by simp [table, tableLoad]) rfl, fun s hs i ea hi => ?_⟩
  simp only [List.mem_cons, List.not_mem_nil, or_false, Prod.mk.injEq] at hi
  obtain ⟨rfl, rfl⟩ | ⟨rfl, rfl⟩ | ⟨rfl, rfl⟩ | ⟨rfl, rfl⟩ := hi
  · exact load_ends hs (exec_ldX_plain hs d)
  · exact load_ends hs (loadDisp_plain hs d .y q)
  · exact load_ends hs (loadDisp_plain hs d .z q)
  · exact load_ends hs (exec_lds d _ s)

/-- Settles O48: four ways to compute the address of one store. -/
theorem storeResults : Obligations.StoreResults := by
  intro r q k
  refine ⟨rowOf_RD 0x920C .stX r (by simp [table, tableStore]) rfl,
    rowOf_LDD 0x8208 (fun r q => .stdY q r) r q (by simp [table, tableDisp]) rfl,
    rowOf_LDD 0x8200 (fun r q => .stdZ q r) r q (by simp [table, tableDisp]) rfl,
    rowOf_LS2 0x9200 (fun r k => .sts k r) r k (by simp [table, tableStore]) rfl, fun s hs i ea hi => ?_⟩
  simp only [List.mem_cons, List.not_mem_nil, or_false, Prod.mk.injEq] at hi
  obtain ⟨rfl, rfl⟩ | ⟨rfl, rfl⟩ | ⟨rfl, rfl⟩ | ⟨rfl, rfl⟩ := hi
  · exact store_ends hs (exec_stX_plain hs r)
  · exact store_ends hs (storeDisp_plain hs .y q r)
  · exact store_ends hs (storeDisp_plain hs .z q r)
  · exact store_ends hs (exec_sts _ r s)

/-- Settles O51: IN is a load and OUT a store at the I/O location; SBI and CBI are one read-modify-write with
two functions of the byte. -/
theorem ioResults : Obligations.IoResults := by
  refine ⟨fun d a => ⟨rowOf_IO 0xB000 .inp d a (by simp [table, tableHigh]) rfl,
    rowOf_IO 0xB800 (fun d a => .out a d) d a (by simp [table, tableHigh]) rfl, fun s hs => ?_⟩,
    fun a b => ⟨rowOf_IOB 0x9A00 .sbi a b (by simp [table, tableWordIo]) rfl,
      rowOf_IOB 0x9800 .cbi a b (by simp [table, tableWordIo]) rfl,
      fun s hs => ⟨fun inside => ⟨?_, ?_⟩, fun outside => ⟨?_, ?_⟩⟩⟩⟩
  · obtain ⟨loads, loadFaults⟩ := load_ends hs (exec_in d a s)
    obtain ⟨stores, storeFaults⟩ := store_ends hs (exec_out_plain hs a d)
    exact ⟨fun inside => ⟨loads inside, stores inside⟩,
      fun outside => ⟨loadFaults outside, storeFaults outside⟩⟩
  · obtain ⟨v, u, t, hr, hw, ht⟩ := modifyIo_ends hs _ inside
    exact ⟨v, _, u, t, hr, hw, ht, getLsbD_or_one_shiftLeft v b⟩
  · obtain ⟨v, u, t, hr, hw, ht⟩ := modifyIo_ends hs _ inside
    exact ⟨v, _, u, t, hr, hw, ht, getLsbD_and_not_one_shiftLeft v b⟩
  · exact modifyIo_outside _ outside
  · exact modifyIo_outside _ outside

end Sys2Proof.Machine
end

section
/-! SUPPORT. Format `SF` (spec/30_encoding.md R106), and BSET, BCLR, BST and BLD as handlers under
`NoCoreHooks` (spec/44_ref_bit_and_mcu.md R281 to R284): after their reads, the first three end with one
write of a bit of `SREG`, and BLD with one register write. -/

namespace Sys2Proof.Machine

/-- Format `SF`. -/
theorem rowOf_SF (p : Nat) (i : BitIx → Instr) (f : BitIx)
    (hrow : ⟨0xFF8F#16, BitVec.ofNat 16 p, 1, fun w _ => i (sSF w)⟩ ∈ table)
    (he : encode (i f) = [encSF (BitVec.ofNat 16 p) f])
    (hp : BitVec.ofNat 16 p &&& 0xFF8F = BitVec.ofNat 16 p := by decide) (h0 : p % 128 < 16 := by decide) :
    RowOf (i f) 0xFF8F (BitVec.ofNat 16 p) (wordSF p f) [] := by
  have laid := (Layout.pattern hp).put 4 3 f.isLt
  have word : encSF (BitVec.ofNat 16 p) f = wordSF p f := by simpa [encSF, wordSF] using laid.value
  have hf : sSF (wordSF p f) = f := Fin.ext (by simp [sSF, field, wordSF]; omega)
  exact rowOf_of_mem_table hrow rfl (word ▸ he) (word ▸ laid.fixed) (by simp only [hf])

section Plain

variable {s : State} (hs : s.Plain)
include hs

/-- A handler that ends with one write of a bit of `SREG`. -/
theorem writeFlag_ends (f : BitIx) (b : Bool) :
    ∃ t, runHandler (do writeFlag f b; return 1) s = .next t ∧ Ran s t s.pc 1 ∧
      OnlyBytes s t [s.params.sregAddr] ∧
      ∀ j : BitIx, t.sreg.getLsbD j.val = if j = f then b else s.sreg.getLsbD j.val := by
  refine ⟨_, runHandler_bind_ok (writeFlag_plain hs.inv.params hs.noHooks f b),
    ⟨rfl, rfl, rfl, rfl, rfl, rfl, rfl, rfl, rfl, rfl, rfl, rfl⟩,
    fun a ha => memory_get_set_other hs.inv.memWf _ (by simpa using ha), fun j => ?_⟩
  simp only [State.sreg, memory_get_set_same hs.inv.memWf]
  exact bitOf_withBit s.sreg f j b

/-- BST reads the register, then writes its bit `b` to T (R283). -/
theorem exec_bst_plain (r : Reg) (b : BitIx) :
    exec (.bst r b) s = runHandler (do writeFlag (flagIx .t) ((s.reg r).getLsbD b.val); return 1) s :=
  runHandler_bind_ok (readReg_plain hs.inv.params hs.noHooks r)

/-- BLD writes back the byte it read, with one bit replaced (R284). -/
theorem exec_bld_plain (r : Reg) (b : BitIx) :
    exec (.bld r b) s = runHandler (do writeReg r (withBit (s.reg r) b (s.flag .t)); return 1) s :=
  (runHandler_bind_ok (readReg_plain hs.inv.params hs.noHooks r)).trans
    (runHandler_bind_ok (readFlag_plain hs.inv.params hs.noHooks (flagIx .t)))

end Plain

end Sys2Proof.Machine
end

section
/-! The statements on the bit instructions (spec/44_ref_bit_and_mcu.md). -/

namespace Sys2Proof.Machine

/-- Settles O58: BSET, BCLR and BST are one write of a bit of `SREG`, and a flag is such a bit; BLD is one
register write of the byte it read with one bit replaced. -/
theorem bitResults : Obligations.BitResults := by
  refine ⟨fun f => ⟨rowOf_SF 0x9408 .bset f (by simp [table, tableOne]) rfl,
      rowOf_SF 0x9488 .bclr f (by simp [table, tableOne]) rfl, fun s hs i b hi => ?_⟩,
    fun r b => ⟨rowOf_RB 0xFA00 .bst r b (by simp [table, tableHigh]) rfl,
      rowOf_RB 0xF800 .bld r b (by simp [table, tableHigh]) rfl, fun s hs => ⟨?_, ?_⟩⟩⟩
  · simp only [List.mem_cons, List.not_mem_nil, or_false, Prod.mk.injEq] at hi
    obtain ⟨rfl, rfl⟩ | ⟨rfl, rfl⟩ := hi
    · exact writeFlag_ends hs f true
    · exact writeFlag_ends hs f false
  · rw [exec_bst_plain hs r b]
    obtain ⟨t, ht, ran, frame, bits⟩ := writeFlag_ends hs (flagIx .t) ((s.reg r).getLsbD b.val)
    have kept : OnlyFlags s t [.t] := fun g hg => (bits (flagIx g)).trans (if_neg (by simpa using hg))
    exact ⟨t, ht, ⟨ran, frame, kept⟩, (bits (flagIx .t)).trans (if_pos rfl)⟩
  · rw [exec_bld_plain hs r b]
    obtain ⟨t, ht, ran, value, frame⟩ := writeReg_ends hs r (withBit (s.reg r) b (s.flag .t)) 1
    refine ⟨t, ht, ran, frame, fun j => ?_⟩
    rw [value]
    exact bitOf_withBit (s.reg r) b j (s.flag .t)

end Sys2Proof.Machine
end

section
/-! SUPPORT. Taking an interrupt and returning from one (spec/60_exceptions.md R313, R316, R318, R321): the
vector the arbiter picks, the core step that takes it, the bytes left on the stack, and RETI. -/

namespace Sys2Proof.Machine

/-! ## The arbiter -/

/-- A pending vector below which nothing is pending is the one the arbiter gives (R313, R316). -/
theorem firstPending_of_lowest : ∀ {pend : List Bool} {v : Nat}, pend[v]? = some true →
    (∀ u < v, pend[u]? = some false) → firstPending pend = some v
  | [], v, pending, _ => by simp at pending
  | b :: rest, 0, pending, _ => by
    obtain rfl : b = true := by simpa using pending
    rfl
  | b :: rest, v + 1, pending, lower => by
    obtain rfl : b = false := by simpa using lower 0 (by omega)
    have tail : firstPending rest = some v :=
      firstPending_of_lowest (by simpa using pending) fun u hu => by simpa using lower (u + 1) (by omega)
    simp only [firstPending, tail, Option.map_some]

/-- The pending flags after the acknowledgement of a vector that was pending (R312, R314). -/
theorem pendClear_getElem? {pend : List Bool} {v : Nat} (pending : pend[v]? = some true) (u : Nat) :
    (pendClear pend v)[u]? = if u = v then some false else pend[u]? := by
  obtain ⟨inside, -⟩ := List.getElem?_eq_some_iff.mp pending
  by_cases h : u = v
  · subst h
    rw [pendClear, List.getElem?_set_self inside, if_pos rfl]
  · rw [pendClear, List.getElem?_set_ne (Ne.symm h), if_neg h]

/-! ## The step that takes an interrupt -/

/-- With I set and a vector pending the check takes the lowest, and reads only (R132). -/
theorem interruptCheck_taken {s : State} {v : Nat} (hp : s.Plain) (enabled : s.flag .i = true)
    (lowest : firstPending s.pend = some v) : interruptCheck s = .ok (some v, s) := by
  have read : readFlag flagI s = .ok (s.flag .i, s) := readFlag_plain hp.inv.params hp.noHooks flagI
  unfold interruptCheck
  rw [act_bind_ok read, enabled]
  simp only [if_true, lowest]

/-- The core step of a state that takes an interrupt is the interrupt step and its bookkeeping (R132,
R133). -/
theorem coreStep_of_interrupt {s : State} {v : Nat} (hp : s.Plain) (running : s.halted = none)
    (ready : s.wait = 0) (enabled : s.flag .i = true) (lowest : firstPending s.pend = some v) :
    coreStep s = finishStep (interruptStep v s) := by
  have active : activeStep s = interruptStep v s := by
    simp only [activeStep, interruptCheck_taken hp enabled lowest]
  simp only [coreStep, running, ready, ne_eq, not_true, if_false, active]

/-! ## Writing I -/

/-- What one write of bit 7 of `SREG` does to the flags (R27). -/
theorem flags_of_sreg_withBit {s t : State} {b : Bool} (h : t.sreg = withBit s.sreg (flagIx .i) b) :
    t.flag .i = b ∧ OnlyFlags s t [.i] := by
  have written : ∀ f, t.flag f = if f = .i then b else s.flag f := fun f => by
    rw [State.flag, h, flag_withBit, State.flag]
  exact ⟨(written .i).trans (if_pos rfl), fun f hf => (written f).trans (if_neg (by simpa using hf))⟩

/-- Neither half of `SP` is `SREG`, so a new value of `SP` leaves it (R6). -/
theorem withWord_spAddr_sregAddr {p : Params} (hp : p.Ok) (w : Word) (f : Nat → Byte) :
    withWord p.spAddr w f p.sregAddr = f p.sregAddr := by
  obtain ⟨-, -, -, -, -, -, low, high, -⟩ := hp
  rw [withWord, if_neg low, if_neg high]

/-! ## The bytes after an interrupt step -/

section Pushed

variable {s : State} (ho : StackOpen s) (p : Word)

theorem withReturnAddress_high : withReturnAddress s p (s.sp - 1).toNat = highByte p := if_pos rfl

theorem withReturnAddress_low : withReturnAddress s p (s.sp - 2).toNat = lowByte p := by
  have distinct : (s.sp - 2).toNat ≠ (s.sp - 1).toNat := by bv_omega
  rw [withReturnAddress, if_neg distinct, if_pos rfl]

/-- Outside the two stack bytes the pushes only move `SP`. -/
theorem withReturnAddress_off_stack {a : Nat} (h1 : a ≠ (s.sp - 1).toNat) (h2 : a ≠ (s.sp - 2).toNat) :
    withReturnAddress s p a = withWord s.params.spAddr (s.sp - 2) s.byte a := by
  rw [withReturnAddress, if_neg h1, if_neg h2]

include ho

/-- An open stack does not overlap `SREG` or `SP`. -/
theorem StackOpen.off_stack {a : Nat} (h : a = s.params.sregAddr ∨ a = s.params.spAddr ∨ a = s.params.spAddr + 1) :
    a ≠ (s.sp - 1).toNat ∧ a ≠ (s.sp - 2).toNat := by
  obtain ⟨sreg1, low1, high1⟩ := ho.clear _ (.inl rfl)
  obtain ⟨sreg2, low2, high2⟩ := ho.clear _ (.inr rfl)
  obtain rfl | rfl | rfl := h
  · exact ⟨sreg1.symm, sreg2.symm⟩
  · exact ⟨low1.symm, low2.symm⟩
  · exact ⟨high1.symm, high2.symm⟩

/-- In the core's own slots the pushes only move `SP`. -/
theorem withReturnAddress_core_slot {a : Nat}
    (h : a = s.params.sregAddr ∨ a = s.params.spAddr ∨ a = s.params.spAddr + 1) :
    withReturnAddress s p a = withWord s.params.spAddr (s.sp - 2) s.byte a :=
  withReturnAddress_off_stack p (ho.off_stack h).1 (ho.off_stack h).2

end Pushed

/-- The bytes of `t`, after an interrupt step from `s` (the rows of R318's table that are bytes of `B`). -/
structure InterruptBytes (s t : State) : Prop where
  high : t.byte (s.sp - 1).toNat = highByte s.pc
  low : t.byte (s.sp - 2).toNat = lowByte s.pc
  sp : t.sp = s.sp - 2
  sreg : t.sreg = withBit s.sreg (flagIx .i) false
  frame : OnlyBytes s t [(s.sp - 1).toNat, (s.sp - 2).toNat, s.params.spAddr, s.params.spAddr + 1,
    s.params.sregAddr]

/-- `s` after an interrupt step for `v` that left the memory `m` (R133). -/
def afterInterrupt (v : Nat) (s : State) (m : Memory) : State :=
  { s with mem := m, pc := BitVec.ofNat 16 (2 * v), pend := pendClear s.pend v, wait := 4 }

/-- The return address pushed, then I cleared, as bytes. -/
theorem interruptBytes_of_pushed {s : State} (hs : s.Plain) (ho : StackOpen s) (v : Nat) {m : Memory}
    (pushed : ∀ a, a ≠ s.params.sregAddr → m.get a = withReturnAddress s s.pc a)
    (cleared : m.get s.params.sregAddr = withBit s.sreg (flagIx .i) false) :
    InterruptBytes s (afterInterrupt v s m) := by
  obtain ⟨-, -, -, -, -, -, low, high, -⟩ := hs.inv.params
  have slotLow := (pushed _ low.symm).trans (withReturnAddress_core_slot ho s.pc (.inr (.inl rfl)))
  have slotHigh := (pushed _ high.symm).trans (withReturnAddress_core_slot ho s.pc (.inr (.inr rfl)))
  refine ⟨?_, ?_, word_of_map slotLow slotHigh, cleared, fun a ha => ?_⟩
  · exact (pushed _ (ho.clear _ (.inl rfl)).1).trans (withReturnAddress_high s.pc)
  · exact (pushed _ (ho.clear _ (.inr rfl)).1).trans (withReturnAddress_low s.pc)
  · simp only [List.mem_cons, List.not_mem_nil, or_false, not_or] at ha
    obtain ⟨off1, off2, offLow, offHigh, offSreg⟩ := ha
    refine (pushed a offSreg).trans ((withReturnAddress_off_stack s.pc off1 off2).trans ?_)
    rw [withWord, if_neg offLow, if_neg offHigh]

/-- The interrupt step on an open stack (R133, R318). -/
theorem interruptStep_open {s : State} (hs : s.Plain) (ho : StackOpen s) (v : Nat) :
    ∃ m, interruptStep v s = .next (afterInterrupt v s m) ∧ InterruptBytes s (afterInterrupt v s m) := by
  obtain ⟨m, push, wf, -, bytes⟩ := pushPc_open hs s.pc ho
  have sreg : m.get s.params.sregAddr = s.sreg := by
    rw [bytes, withReturnAddress_core_slot ho s.pc (.inl rfl), withWord_spAddr_sregAddr hs.inv.params]
  have clearI := writeFlag_plain
    (s := { s with mem := m, pc := BitVec.ofNat 16 (2 * v), pend := pendClear s.pend v })
    hs.inv.params hs.noHooks flagI false
  refine ⟨m.set s.params.sregAddr (withBit s.sreg (flagIx .i) false), ?_,
    interruptBytes_of_pushed hs ho v (fun a ha => ?_) (memory_get_set_same wf _ _)⟩
  · have taken : takeInterrupt v s =
        .ok ((), afterInterrupt v s (m.set s.params.sregAddr (withBit s.sreg (flagIx .i) false))) := by
      unfold takeInterrupt
      rw [act_bind_ok (getPc_apply s), act_bind_ok push, act_bind_ok (setPc_apply _ _)]
      refine (act_bind_ok (m := acknowledge v) rfl).trans ((act_bind_ok clearI).trans ?_)
      rw [← sreg]
      rfl
    simp only [interruptStep, taken]
  · exact (memory_get_set_other wf _ ha).trans (bytes a)

/-! ## RETI -/

/-- RETI on a stack that exists (R218, R321): the popped address, and I. -/
theorem exec_reti_plain {s : State} (hs : s.Plain) (hlo : s.sp.toNat < s.params.dataSize)
    (hhi : (s.sp + 1).toNat < s.params.dataSize) (h0 : hookAt s.rdHooks s.sp.toNat = none)
    (h1 : hookAt s.rdHooks (s.sp + 1).toNat = none) :
    ∃ t, exec .reti s = .next t ∧
      Ran s t (joinBytes (withWord s.params.spAddr (s.sp + 1) s.byte (s.sp + 1).toNat) (s.byte s.sp.toNat)) 4 ∧
      t.flag .i = true ∧ OnlyFlags s t [.i] ∧
      ∀ a, a ≠ s.params.sregAddr → t.byte a = withWord s.params.spAddr (s.sp + 2) s.byte a := by
  obtain ⟨m, pop, bytes⟩ := popPc_plain hs hlo hhi h0 h1
  have wf : m.wf = true := ((keeps_popPc evolves_pcLike.toMemoryLike _ _ _ pop).inv hs.inv).memWf
  have sreg : m.get s.params.sregAddr = s.sreg := by
    rw [bytes, withWord_spAddr_sregAddr hs.inv.params]
  generalize joinBytes _ _ = ret at pop ⊢
  have back : returnFromInterrupt s = .ok ((), { s with
      mem := m.set s.params.sregAddr (withBit s.sreg (flagIx .i) true), pc := ret }) := by
    unfold returnFromInterrupt
    rw [act_bind_ok pop, act_bind_ok (setPc_apply _ _), ← sreg]
    exact writeFlag_plain (s := { s with mem := m, pc := ret }) hs.inv.params hs.noHooks flagI true
  obtain ⟨setI, kept⟩ := flags_of_sreg_withBit (s := s) (b := true)
    (t := { s with mem := m.set s.params.sregAddr (withBit s.sreg (flagIx .i) true), pc := ret, wait := 4 })
    (memory_get_set_same wf _ _)
  exact ⟨_, runHandler_bind_ok back, ⟨rfl, rfl, rfl, rfl, rfl, rfl, ⟨rfl, rfl, rfl, rfl, rfl, rfl⟩⟩, setI, kept,
    fun a ha => (memory_get_set_other wf _ ha).trans (bytes a)⟩

end Sys2Proof.Machine
end

section
/-! The statements on interrupt entry and return (spec/60_exceptions.md R318, R321). -/

namespace Sys2Proof.Machine

/-- Settles O15: the step is the interrupt step for the lowest pending vector, and the bookkeeping after it
writes `wait` and `total` only. -/
theorem interruptEntryNetEffect : Obligations.InterruptEntryNetEffect := by
  intro v s hs running ready enabled pending lower ho
  obtain ⟨m, taken, after⟩ := interruptStep_open hs ho v
  obtain ⟨clearI, kept⟩ := flags_of_sreg_withBit after.sreg
  have step : coreStep s = .next (bookkeep (afterInterrupt v s m)) := by
    rw [coreStep_of_interrupt hs running ready enabled (firstPending_of_lowest pending lower), taken]
    rfl
  exact ⟨_, step, after.high, after.low, after.sp, rfl, pendClear_getElem? pending, clearI, kept, rfl, rfl,
    after.frame, rfl, running, ⟨rfl, rfl, rfl, rfl, rfl, rfl⟩⟩

/-- Settles O29: the two bytes RETI pops are the ones the interrupt step pushed, and they lie off `SP`. -/
theorem returnUndoesInterruptEntry : Obligations.ReturnUndoesInterruptEntry := by
  intro v s t u hs ho entry hook1 hook2 hu same sp byte1 byte2
  obtain ⟨m, taken, after⟩ := interruptStep_open hs ho v
  obtain rfl : afterInterrupt v s m = t := Host.Outcome.next.inj (taken.symm.trans entry)
  have unit : SameUnit s u := (interruptStep_evolves entry).unit.trans same
  have spU : u.sp = s.sp - 2 := sp.trans after.sp
  have spU1 : u.sp + 1 = s.sp - 1 := by rw [spU]; bv_omega
  have spU2 : u.sp + 2 = s.sp := by rw [spU]; exact BitVec.sub_add_cancel _ _
  obtain ⟨-, offLow, offHigh⟩ := ho.clear _ (.inl rfl)
  obtain ⟨w, back, ran, setI, kept, bytes⟩ := exec_reti_plain hu
    (by rw [spU, unit.params]; exact ho.room.2) (by rw [spU1, unit.params]; exact ho.room.1)
    (by rw [spU, unit.rdHooks]; exact hook2) (by rw [spU1, unit.rdHooks]; exact hook1)
  rw [spU2, unit.params] at bytes
  obtain ⟨-, -, -, -, -, -, low, high, -⟩ := hs.inv.params
  refine ⟨w, back, ?_, ?_, setI, kept, fun a ha => ?_⟩
  · calc w.pc = joinBytes (u.byte (s.sp - 1).toNat) (u.byte (s.sp - 2).toNat) := by
          rw [ran.pc, spU1, spU, unit.params, withWord, if_neg offLow, if_neg offHigh]
      _ = joinBytes (highByte s.pc) (lowByte s.pc) := by rw [byte1, byte2, after.high, after.low]
      _ = s.pc := joinBytes_split s.pc
  · rw [State.sp, ran.unit.params, unit.params]
    exact word_of_map (bytes _ low.symm) (bytes _ high.symm)
  · simp only [List.mem_cons, List.not_mem_nil, or_false, not_or] at ha
    obtain ⟨offSpLow, offSpHigh, offSreg⟩ := ha
    rw [bytes a offSreg, withWord, if_neg offSpLow, if_neg offSpHigh]

end Sys2Proof.Machine
end

section
/-! The statements on what every tick keeps (spec/10_state.md R20, spec/20_memory.md R81). -/

namespace Sys2Proof.Machine

/-- Settles O26: every part of a tick keeps the invariant (`Evolves`), hence so does the tick. -/
theorem stepKeepsTheInvariant : Obligations.StepKeepsTheInvariant :=
  fun _ _ inv ticked => (step_tickKeeps ticked).inv inv

/-- Settles O27: a tick keeps the configuration, the number of vectors and the latch. -/
theorem stepKeepsTheConfiguration : Obligations.StepKeepsTheConfiguration := fun _ _ ticked =>
  have kept := step_tickKeeps ticked
  ⟨kept.unit, kept.vectors, kept.halted⟩

end Sys2Proof.Machine
end

section
/-! SUPPORT. Format `J22` (spec/30_encoding.md R106), and with it the row of every well-formed instruction. -/

namespace Sys2Proof.Machine

/-- The second word of format `J22` is the target modulo 2^16. -/
theorem ofNat_toNat_mod (k : BitVec 22) : BitVec.ofNat 16 (k.toNat % 65536) = BitVec.ofNat 16 k.toNat :=
  BitVec.eq_of_toNat_eq (by simp)

/-- Format `J22`: the six high bits of the target in the first word, around the fixed bits. -/
theorem rowOf_J22 (p : Nat) (i : BitVec 22 → Instr) (k : BitVec 22)
    (hrow : ⟨0xFE0E#16, BitVec.ofNat 16 p, 2, fun w w2 => i (kJ22 w w2)⟩ ∈ table)
    (he : encode (i k) = [encJ22 (BitVec.ofNat 16 p) k, BitVec.ofNat 16 k.toNat])
    (hp : BitVec.ofNat 16 p &&& 0xFE0E = BitVec.ofNat 16 p := by decide)
    (h0 : p % 2 = 0 ∧ p / 16 % 32 = 0 := by decide) :
    RowOf (i k) 0xFE0E (BitVec.ofNat 16 p) (wordJ22 p k) [BitVec.ofNat 16 (k.toNat % 65536)] := by
  have hk := k.isLt
  have high : k.toNat / 131072 < 2 ^ 5 := by omega
  have low : k.toNat / 65536 % 2 < 2 ^ 1 := by omega
  have laid := ((Layout.pattern hp).put 4 5 high).put 0 1 low
  have word : encJ22 (BitVec.ofNat 16 p) k = wordJ22 p k := by simpa [encJ22, wordJ22] using laid.value
  have target : kJ22 (wordJ22 p k) (BitVec.ofNat 16 k.toNat) = k :=
    BitVec.eq_of_toNat_eq (by simp [kJ22, field, wordJ22]; omega)
  rw [ofNat_toNat_mod]
  exact rowOf_two_of_mem_table hrow rfl (word ▸ he) (word ▸ laid.fixed) (by simp only [target])

/-- The instruction is encoded as some row of the table says. -/
def HasRow (i : Instr) : Prop := ∃ mask pattern first second, RowOf i mask pattern first second

theorem RowOf.hasRow {i : Instr} {mask pattern first : Word} {second : List Word}
    (h : RowOf i mask pattern first second) : HasRow i := ⟨mask, pattern, first, second, h⟩

/-- A well-formedness check of two registers. -/
theorem of_decide_and_decide {p q : Prop} [Decidable p] [Decidable q]
    (h : (decide p && decide q) = true) : p ∧ q := by
  simpa using h

/-- Every well-formed instruction has a row: the format of the row it stands in, instruction by instruction
(R104, R106). -/
theorem hasRow_of_wellFormed : ∀ {i : Instr}, wellFormed i = true → HasRow i
  | .add d r, _ => (rowOf_RR 0x0C00 .add d r (by simp [table, tableMoves]) rfl).hasRow
  | .adc d r, _ => (rowOf_RR 0x1C00 .adc d r (by simp [table, tableRR]) rfl).hasRow
  | .sub d r, _ => (rowOf_RR 0x1800 .sub d r (by simp [table, tableRR]) rfl).hasRow
  | .subi d k, wf => (rowOf_RI 0x5000 .subi d k (of_decide_eq_true wf) (by simp [table, tableRI]) rfl).hasRow
  | .sbc d r, _ => (rowOf_RR 0x0800 .sbc d r (by simp [table, tableMoves]) rfl).hasRow
  | .sbci d k, wf => (rowOf_RI 0x4000 .sbci d k (of_decide_eq_true wf) (by simp [table, tableRI]) rfl).hasRow
  | .cp d r, _ => (rowOf_RR 0x1400 .cp d r (by simp [table, tableRR]) rfl).hasRow
  | .cpc d r, _ => (rowOf_RR 0x0400 .cpc d r (by simp [table, tableMoves]) rfl).hasRow
  | .cpi d k, wf => (rowOf_RI 0x3000 .cpi d k (of_decide_eq_true wf) (by simp [table, tableRI]) rfl).hasRow
  | .and d r, _ => (rowOf_RR 0x2000 .and d r (by simp [table, tableRR]) rfl).hasRow
  | .andi d k, wf => (rowOf_RI 0x7000 .andi d k (of_decide_eq_true wf) (by simp [table, tableRI]) rfl).hasRow
  | .or d r, _ => (rowOf_RR 0x2800 .or d r (by simp [table, tableRR]) rfl).hasRow
  | .ori d k, wf => (rowOf_RI 0x6000 .ori d k (of_decide_eq_true wf) (by simp [table, tableRI]) rfl).hasRow
  | .eor d r, _ => (rowOf_RR 0x2400 .eor d r (by simp [table, tableRR]) rfl).hasRow
  | .com d, _ => (rowOf_RD 0x9400 .com d (by simp [table, tableOne]) rfl).hasRow
  | .neg d, _ => (rowOf_RD 0x9401 .neg d (by simp [table, tableOne]) rfl).hasRow
  | .inc d, _ => (rowOf_RD 0x9403 .inc d (by simp [table, tableOne]) rfl).hasRow
  | .dec d, _ => (rowOf_RD 0x940A .dec d (by simp [table, tableOne]) rfl).hasRow
  | .asr d, _ => (rowOf_RD 0x9405 .asr d (by simp [table, tableOne]) rfl).hasRow
  | .lsr d, _ => (rowOf_RD 0x9406 .lsr d (by simp [table, tableOne]) rfl).hasRow
  | .ror d, _ => (rowOf_RD 0x9407 .ror d (by simp [table, tableOne]) rfl).hasRow
  | .swap d, _ => (rowOf_RD 0x9402 .swap d (by simp [table, tableOne]) rfl).hasRow
  | .adiw d k, wf =>
    (rowOf_WI 0x9600 .adiw d k (of_decide_eq_true wf) (by simp [table, tableWordIo]) rfl).hasRow
  | .sbiw d k, wf =>
    (rowOf_WI 0x9700 .sbiw d k (of_decide_eq_true wf) (by simp [table, tableWordIo]) rfl).hasRow
  | .mul d r, _ => (rowOf_RR 0x9C00 .mul d r (by simp [table, tableWordIo]) rfl).hasRow
  | .muls d r, wf =>
    have ⟨hd, hr⟩ := of_decide_and_decide wf
    (rowOf_M16 0x0200 .muls d r hd hr (by simp [table, tableMoves]) rfl).hasRow
  | .mulsu d r, wf =>
    have ⟨hd, hr⟩ := of_decide_and_decide wf
    (rowOf_M8 0x0300 .mulsu d r hd hr (by simp [table, tableMoves]) rfl).hasRow
  | .fmul d r, wf =>
    have ⟨hd, hr⟩ := of_decide_and_decide wf
    (rowOf_M8 0x0308 .fmul d r hd hr (by simp [table, tableMoves]) rfl).hasRow
  | .fmuls d r, wf =>
    have ⟨hd, hr⟩ := of_decide_and_decide wf
    (rowOf_M8 0x0380 .fmuls d r hd hr (by simp [table, tableMoves]) rfl).hasRow
  | .fmulsu d r, wf =>
    have ⟨hd, hr⟩ := of_decide_and_decide wf
    (rowOf_M8 0x0388 .fmulsu d r hd hr (by simp [table, tableMoves]) rfl).hasRow
  | .rjmp k, _ => (rowOf_J12 0xC000 .rjmp k (by simp [table, tableHigh]) rfl).hasRow
  | .jmp k, _ => (rowOf_J22 0x940C .jmp k (by simp [table, tableOne]) rfl).hasRow
  | .ijmp, _ => (rowOf_Z0 0x9409 .ijmp (by simp [table, tableOne]) rfl).hasRow
  | .rcall k, _ => (rowOf_J12 0xD000 .rcall k (by simp [table, tableHigh]) rfl).hasRow
  | .call k, _ => (rowOf_J22 0x940E .call k (by simp [table, tableOne]) rfl).hasRow
  | .icall, _ => (rowOf_Z0 0x9509 .icall (by simp [table, tableOne]) rfl).hasRow
  | .ret, _ => (rowOf_Z0 0x9508 .ret (by simp [table, tableOne]) rfl).hasRow
  | .reti, _ => (rowOf_Z0 0x9518 .reti (by simp [table, tableOne]) rfl).hasRow
  | .brbs f k, _ => (rowOf_BR 0xF000 .brbs f k (by simp [table, tableHigh]) rfl).hasRow
  | .brbc f k, _ => (rowOf_BR 0xF400 .brbc f k (by simp [table, tableHigh]) rfl).hasRow
  | .cpse d r, _ => (rowOf_RR 0x1000 .cpse d r (by simp [table, tableRR]) rfl).hasRow
  | .sbrc r b, _ => (rowOf_RB 0xFC00 .sbrc r b (by simp [table, tableHigh]) rfl).hasRow
  | .sbrs r b, _ => (rowOf_RB 0xFE00 .sbrs r b (by simp [table, tableHigh]) rfl).hasRow
  | .sbic a b, _ => (rowOf_IOB 0x9900 .sbic a b (by simp [table, tableWordIo]) rfl).hasRow
  | .sbis a b, _ => (rowOf_IOB 0x9B00 .sbis a b (by simp [table, tableWordIo]) rfl).hasRow
  | .mov d r, _ => (rowOf_RR 0x2C00 .mov d r (by simp [table, tableRR]) rfl).hasRow
  | .movw d r, wf =>
    have ⟨hd, hr⟩ := of_decide_and_decide wf
    (rowOf_MW 0x0100 .movw d r hd hr (by simp [table, tableMoves]) rfl).hasRow
  | .ldi d k, wf => (rowOf_RI 0xE000 .ldi d k (of_decide_eq_true wf) (by simp [table, tableHigh]) rfl).hasRow
  | .ldX d, _ => (rowOf_RD 0x900C .ldX d (by simp [table, tableLoad]) rfl).hasRow
  | .ldXInc d, _ => (rowOf_RD 0x900D .ldXInc d (by simp [table, tableLoad]) rfl).hasRow
  | .ldXDec d, _ => (rowOf_RD 0x900E .ldXDec d (by simp [table, tableLoad]) rfl).hasRow
  | .ldYInc d, _ => (rowOf_RD 0x9009 .ldYInc d (by simp [table, tableLoad]) rfl).hasRow
  | .ldYDec d, _ => (rowOf_RD 0x900A .ldYDec d (by simp [table, tableLoad]) rfl).hasRow
  | .lddY d q, _ => (rowOf_LDD 0x8008 .lddY d q (by simp [table, tableDisp]) rfl).hasRow
  | .ldZInc d, _ => (rowOf_RD 0x9001 .ldZInc d (by simp [table, tableLoad]) rfl).hasRow
  | .ldZDec d, _ => (rowOf_RD 0x9002 .ldZDec d (by simp [table, tableLoad]) rfl).hasRow
  | .lddZ d q, _ => (rowOf_LDD 0x8000 .lddZ d q (by simp [table, tableDisp]) rfl).hasRow
  | .stX d, _ => (rowOf_RD 0x920C .stX d (by simp [table, tableStore]) rfl).hasRow
  | .stXInc d, _ => (rowOf_RD 0x920D .stXInc d (by simp [table, tableStore]) rfl).hasRow
  | .stXDec d, _ => (rowOf_RD 0x920E .stXDec d (by simp [table, tableStore]) rfl).hasRow
  | .stYInc d, _ => (rowOf_RD 0x9209 .stYInc d (by simp [table, tableStore]) rfl).hasRow
  | .stYDec d, _ => (rowOf_RD 0x920A .stYDec d (by simp [table, tableStore]) rfl).hasRow
  | .stdY q r, _ => (rowOf_LDD 0x8208 (fun r q => .stdY q r) r q (by simp [table, tableDisp]) rfl).hasRow
  | .stZInc d, _ => (rowOf_RD 0x9201 .stZInc d (by simp [table, tableStore]) rfl).hasRow
  | .stZDec d, _ => (rowOf_RD 0x9202 .stZDec d (by simp [table, tableStore]) rfl).hasRow
  | .stdZ q r, _ => (rowOf_LDD 0x8200 (fun r q => .stdZ q r) r q (by simp [table, tableDisp]) rfl).hasRow
  | .lds d k, _ => (rowOf_LS2 0x9000 .lds d k (by simp [table, tableLoad]) rfl).hasRow
  | .sts k r, _ => (rowOf_LS2 0x9200 (fun r k => .sts k r) r k (by simp [table, tableStore]) rfl).hasRow
  | .push d, _ => (rowOf_RD 0x920F .push d (by simp [table, tableStore]) rfl).hasRow
  | .pop d, _ => (rowOf_RD 0x900F .pop d (by simp [table, tableLoad]) rfl).hasRow
  | .inp d a, _ => (rowOf_IO 0xB000 .inp d a (by simp [table, tableHigh]) rfl).hasRow
  | .out a r, _ => (rowOf_IO 0xB800 (fun r a => .out a r) r a (by simp [table, tableHigh]) rfl).hasRow
  | .lpm, _ => (rowOf_Z0 0x95C8 .lpm (by simp [table, tableOne]) rfl).hasRow
  | .lpmZ d, _ => (rowOf_RD 0x9004 .lpmZ d (by simp [table, tableLoad]) rfl).hasRow
  | .lpmZInc d, _ => (rowOf_RD 0x9005 .lpmZInc d (by simp [table, tableLoad]) rfl).hasRow
  | .bset f, _ => (rowOf_SF 0x9408 .bset f (by simp [table, tableOne]) rfl).hasRow
  | .bclr f, _ => (rowOf_SF 0x9488 .bclr f (by simp [table, tableOne]) rfl).hasRow
  | .bst r b, _ => (rowOf_RB 0xFA00 .bst r b (by simp [table, tableHigh]) rfl).hasRow
  | .bld r b, _ => (rowOf_RB 0xF800 .bld r b (by simp [table, tableHigh]) rfl).hasRow
  | .sbi a b, _ => (rowOf_IOB 0x9A00 .sbi a b (by simp [table, tableWordIo]) rfl).hasRow
  | .cbi a b, _ => (rowOf_IOB 0x9800 .cbi a b (by simp [table, tableWordIo]) rfl).hasRow
  | .nop, _ => (rowOf_Z0 0x0000 .nop (by simp [table, tableMoves]) rfl).hasRow
  | .wdr, _ => (rowOf_Z0 0x95A8 .wdr (by simp [table, tableOne]) rfl).hasRow
  | .sleep, _ => (rowOf_Z0 0x9588 .sleep (by simp [table, tableOne]) rfl).hasRow
  | .brk, _ => (rowOf_Z0 0x9598 .brk (by simp [table, tableOne]) rfl).hasRow
  | .spm, _ => (rowOf_Z0 0x95E8 .spm (by simp [table, tableOne]) rfl).hasRow

end Sys2Proof.Machine
end

section
/-! The statement on encoding and decoding (spec/30_encoding.md R106, R108). -/

namespace Sys2Proof.Machine

/-- Settles O30: the row an instruction is encoded by is the one its words are decoded by. -/
theorem decodeOfEncode : Obligations.DecodeOfEncode := by
  intro i more wf
  obtain ⟨_, _, first, second, row⟩ := hasRow_of_wellFormed wf
  rw [row.words]
  exact row.decodes more

end Sys2Proof.Machine
end

section
/-! SUPPORT. Reading an instruction back (spec/30_encoding.md R103, R107): what the decoder can answer, and
that the encoder gives each row's words back from the fields the row read. -/

namespace Sys2Proof.Machine

/-! ## What the decoder can answer -/

/-- The row found for a word is one of the table, and the word is of it. -/
theorem lookup_eq_some {op : Word} {row : Row} (h : lookup op = some row) :
    row ∈ table ∧ op &&& row.mask = row.pattern :=
  ⟨List.mem_of_find?_eq_some h, by simpa using List.find?_some h⟩

/-- A decoded instruction is what the row of the first word builds, from one word or from two. -/
theorem decodeWords_eq_ok {ws rest : List Word} {i : Instr} (h : decodeWords ws = .ok (i, rest)) :
    ∃ op row, lookup op = some row ∧
      (row.words = 1 ∧ ws = op :: rest ∧ i = row.build op 0 ∨
        row.words ≠ 1 ∧ ∃ w2, ws = op :: w2 :: rest ∧ i = row.build op w2) := by
  match ws with
  | [] => cases h
  | op :: more =>
    cases hl : lookup op with
    | none => simp [decodeWords, hl] at h
    | some row =>
      refine ⟨op, row, hl, ?_⟩
      by_cases one : row.words = 1
      · simp only [decodeWords, hl, one, if_true, Except.ok.injEq, Prod.mk.injEq] at h
        obtain ⟨rfl, rfl⟩ := h
        exact .inl ⟨one, rfl, rfl⟩
      · match more with
        | [] => simp [decodeWords, hl, one] at h
        | w2 :: more' =>
          simp only [decodeWords, hl, one, if_false, Except.ok.injEq, Prod.mk.injEq] at h
          obtain ⟨rfl, rfl⟩ := h
          exact .inr ⟨one, w2, rfl, rfl⟩

/-! ## Fields put back where they were read -/

/-- The bits of a field, in their place, are the bits the field's mask keeps. -/
theorem ofNat_field {lo n : Nat} (op : Word) :
    BitVec.ofNat 16 (field op lo n * 2 ^ lo) = op &&& fieldBits lo n := by
  refine BitVec.eq_of_getLsbD_eq fun k hk => ?_
  simp only [field, fieldBits, BitVec.getLsbD_and, BitVec.getLsbD_ofNat, Nat.testBit_mul_two_pow,
    Nat.testBit_mod_two_pow, Nat.testBit_two_pow_sub_one, Nat.testBit_div_two_pow, hk, decide_true,
    Bool.true_and]
  by_cases h : lo ≤ k
  · simp [h, Nat.sub_add_cancel h, BitVec.getLsbD, Bool.and_comm]
  · simp [h]

/-- Putting back a field that was read: the word keeps the field's bits too. -/
theorem put_field (op m : Word) (lo n : Nat) :
    put (op &&& m) lo (field op lo n) = op &&& (m ||| fieldBits lo n) := by
  rw [put, ofNat_field, BitVec.and_or_distrib_left]

end Sys2Proof.Machine
end

section
/-! SUPPORT. The formats of R106 read back: for each, the encoder's word of the fields of `op` and of the
row's fixed bits of `op` is `op` itself, so no bit is ignored. -/

namespace Sys2Proof.Machine

theorem field_lt (op : Word) (lo n : Nat) : field op lo n < 2 ^ n := Nat.mod_lt _ (Nat.two_pow_pos n)

/-- Fixed bits and fields that together are all bits. -/
theorem and_of_all_bits (op : Word) {m : Word} (all : m = BitVec.allOnes 16 := by decide) : op &&& m = op :=
  all ▸ BitVec.and_allOnes

/-- The numbers of the registers in the format's fields. -/
theorem dReg_val (op : Word) : (dReg op).val = field op 4 5 := Nat.mod_eq_of_lt (field_lt op 4 5)

theorem dRI_val (op : Word) : (dRI op).val = 16 + field op 4 4 := by
  have := field_lt op 4 4
  exact Nat.mod_eq_of_lt (by omega)

theorem rM16_val (op : Word) : (rM16 op).val = 16 + field op 0 4 := by
  have := field_lt op 0 4
  exact Nat.mod_eq_of_lt (by omega)

theorem dM8_val (op : Word) : (dM8 op).val = 16 + field op 4 3 := by
  have := field_lt op 4 3
  exact Nat.mod_eq_of_lt (by omega)

theorem rM8_val (op : Word) : (rM8 op).val = 16 + field op 0 3 := by
  have := field_lt op 0 3
  exact Nat.mod_eq_of_lt (by omega)

theorem dMW_val (op : Word) : (dMW op).val = 2 * field op 4 4 := by
  have := field_lt op 4 4
  exact Nat.mod_eq_of_lt (by omega)

theorem rMW_val (op : Word) : (rMW op).val = 2 * field op 0 4 := by
  have := field_lt op 0 4
  exact Nat.mod_eq_of_lt (by omega)

theorem dWI_val (op : Word) : (dWI op).val = 24 + 2 * field op 4 2 := by
  have := field_lt op 4 2
  exact Nat.mod_eq_of_lt (by omega)

theorem bitLow_val (op : Word) : (bitLow op).val = field op 0 3 := Nat.mod_eq_of_lt (field_lt op 0 3)

theorem encD_fields (op : Word) : encD (op &&& 0xFE0F#16) (dReg op) = op := by
  rw [encD, dReg_val, put_field]
  exact and_of_all_bits op

theorem encRR_fields (op : Word) : encRR (op &&& 0xFC00#16) (dReg op) (rRR op) = op := by
  have high := field_lt op 9 1
  have low := field_lt op 0 4
  have r : (rRR op).val = field op 9 1 * 16 + field op 0 4 := Nat.mod_eq_of_lt (by omega)
  have r1 : (rRR op).val / 16 = field op 9 1 := by omega
  have r0 : (rRR op).val % 16 = field op 0 4 := by omega
  rw [encRR, dReg_val, r1, r0, put_field, put_field, put_field]
  exact and_of_all_bits op

theorem encRI_fields (op : Word) : encRI (op &&& 0xF000#16) (dRI op) (kRI op) = op := by
  have high := field_lt op 8 4
  have mid := field_lt op 4 4
  have low := field_lt op 0 4
  have k : (kRI op).toNat = field op 8 4 * 16 + field op 0 4 := Nat.mod_eq_of_lt (by omega)
  have k1 : (kRI op).toNat / 16 = field op 8 4 := by omega
  have k0 : (kRI op).toNat % 16 = field op 0 4 := by omega
  have d : (dRI op).val % 16 = field op 4 4 := by rw [dRI_val]; omega
  rw [encRI, k1, k0, d, put_field, put_field, put_field]
  exact and_of_all_bits op

theorem encM16_fields (op : Word) : encM16 (op &&& 0xFF00#16) (dRI op) (rM16 op) = op := by
  have high := field_lt op 4 4
  have low := field_lt op 0 4
  have d : (dRI op).val % 16 = field op 4 4 := by rw [dRI_val]; omega
  have r : (rM16 op).val % 16 = field op 0 4 := by rw [rM16_val]; omega
  rw [encM16, d, r, put_field, put_field]
  exact and_of_all_bits op

theorem encM8_fields (op : Word) : encM8 (op &&& 0xFF88#16) (dM8 op) (rM8 op) = op := by
  have high := field_lt op 4 3
  have low := field_lt op 0 3
  have d : (dM8 op).val % 8 = field op 4 3 := by rw [dM8_val]; omega
  have r : (rM8 op).val % 8 = field op 0 3 := by rw [rM8_val]; omega
  rw [encM8, d, r, put_field, put_field]
  exact and_of_all_bits op

theorem encMW_fields (op : Word) : encMW (op &&& 0xFF00#16) (dMW op) (rMW op) = op := by
  have d : (dMW op).val / 2 = field op 4 4 := by rw [dMW_val]; omega
  have r : (rMW op).val / 2 = field op 0 4 := by rw [rMW_val]; omega
  rw [encMW, d, r, put_field, put_field]
  exact and_of_all_bits op

theorem encWI_fields (op : Word) : encWI (op &&& 0xFF00#16) (dWI op) (kWI op) = op := by
  have high := field_lt op 6 2
  have mid := field_lt op 4 2
  have low := field_lt op 0 4
  have k : (kWI op).toNat = field op 6 2 * 16 + field op 0 4 := Nat.mod_eq_of_lt (by omega)
  have k1 : (kWI op).toNat / 16 = field op 6 2 := by omega
  have k0 : (kWI op).toNat % 16 = field op 0 4 := by omega
  have d : (dWI op).val % 8 / 2 = field op 4 2 := by rw [dWI_val]; omega
  rw [encWI, k1, k0, d, put_field, put_field, put_field]
  exact and_of_all_bits op

theorem encLDD_fields (op : Word) : encLDD (op &&& 0xD208#16) (dReg op) (qLDD op) = op := by
  have high := field_lt op 13 1
  have mid := field_lt op 10 2
  have low := field_lt op 0 3
  have q : (qLDD op).toNat = field op 13 1 * 32 + field op 10 2 * 8 + field op 0 3 :=
    Nat.mod_eq_of_lt (by omega)
  have q2 : (qLDD op).toNat / 32 = field op 13 1 := by omega
  have q1 : (qLDD op).toNat / 8 % 4 = field op 10 2 := by omega
  have q0 : (qLDD op).toNat % 8 = field op 0 3 := by omega
  rw [encLDD, dReg_val, q2, q1, q0, put_field, put_field, put_field, put_field]
  exact and_of_all_bits op

theorem encIOB_fields (op : Word) : encIOB (op &&& 0xFF00#16) (aIOB op) (bitLow op) = op := by
  have a : (aIOB op).val = field op 3 5 := Nat.mod_eq_of_lt (field_lt op 3 5)
  rw [encIOB, a, bitLow_val, put_field, put_field]
  exact and_of_all_bits op

theorem encIO_fields (op : Word) : encIO (op &&& 0xF800#16) (dReg op) (aIO op) = op := by
  have high := field_lt op 9 2
  have low := field_lt op 0 4
  have a : (aIO op).val = field op 9 2 * 16 + field op 0 4 := Nat.mod_eq_of_lt (by omega)
  have a1 : (aIO op).val / 16 = field op 9 2 := by omega
  have a0 : (aIO op).val % 16 = field op 0 4 := by omega
  rw [encIO, dReg_val, a1, a0, put_field, put_field, put_field]
  exact and_of_all_bits op

theorem encJ12_fields (op : Word) : encJ12 (op &&& 0xF000#16) (kJ12 op) = op := by
  have k : (kJ12 op).toNat = field op 0 12 := Nat.mod_eq_of_lt (field_lt op 0 12)
  rw [encJ12, k, put_field]
  exact and_of_all_bits op

theorem encBR_fields (op : Word) : encBR (op &&& 0xFC00#16) (bitLow op) (kBR op) = op := by
  have k : (kBR op).toNat = field op 3 7 := Nat.mod_eq_of_lt (field_lt op 3 7)
  rw [encBR, k, bitLow_val, put_field, put_field]
  exact and_of_all_bits op

theorem encRB_fields (op : Word) : encRB (op &&& 0xFE08#16) (dReg op) (bitLow op) = op := by
  rw [encRB, dReg_val, bitLow_val, put_field, put_field]
  exact and_of_all_bits op

theorem encSF_fields (op : Word) : encSF (op &&& 0xFF8F#16) (sSF op) = op := by
  have s : (sSF op).val = field op 4 3 := Nat.mod_eq_of_lt (field_lt op 4 3)
  rw [encSF, s, put_field]
  exact and_of_all_bits op

theorem kJ22_toNat (op w2 : Word) :
    (kJ22 op w2).toNat = (field op 4 5 * 2 + field op 0 1) * 65536 + w2.toNat := by
  have high := field_lt op 4 5
  have low := field_lt op 0 1
  have := w2.isLt
  exact Nat.mod_eq_of_lt (by omega)

theorem encJ22_fields (op w2 : Word) : encJ22 (op &&& 0xFE0E#16) (kJ22 op w2) = op := by
  have high := field_lt op 4 5
  have low := field_lt op 0 1
  have := w2.isLt
  have k1 : (kJ22 op w2).toNat / 131072 = field op 4 5 := by rw [kJ22_toNat]; omega
  have k0 : (kJ22 op w2).toNat / 65536 % 2 = field op 0 1 := by rw [kJ22_toNat]; omega
  rw [encJ22, k1, k0, put_field, put_field]
  exact and_of_all_bits op

/-- The second word of format `J22`. -/
theorem ofNat_kJ22 (op w2 : Word) : BitVec.ofNat 16 (kJ22 op w2).toNat = w2 := by
  have := w2.isLt
  apply BitVec.eq_of_toNat_eq
  rw [BitVec.toNat_ofNat, kJ22_toNat]
  omega

/-! ## Rows -/

/-- The row builds well-formed instructions only, and the encoder gives back the words it read. -/
structure ReadsBack (r : Row) : Prop where
  wf : ∀ op w2, wellFormed (r.build op w2) = true
  one : r.words = 1 → ∀ op, op &&& r.mask = r.pattern → encode (r.build op 0) = [op]
  two : r.words ≠ 1 → ∀ op w2, op &&& r.mask = r.pattern → encode (r.build op w2) = [op, w2]

/-- A one-word row, from the encoder's word on the fixed bits of the word read. -/
theorem readsBack_one {m p : Word} {build : Word → Instr} (enc : Word → Word → Word)
    (he : ∀ op, encode (build op) = [enc p op]) (fields : ∀ op, enc (op &&& m) op = op)
    (wf : ∀ op, wellFormed (build op) = true) : ReadsBack ⟨m, p, 1, fun op _ => build op⟩ where
  wf op _ := wf op
  one _ op hop := by
    obtain rfl : op &&& m = p := hop
    exact (he op).trans (by rw [fields])
  two h := absurd rfl h

/-- A two-word row, likewise. -/
theorem readsBack_two {m p : Word} {build : Word → Word → Instr} (enc : Word → Word → Word → Word)
    (he : ∀ op w2, encode (build op w2) = [enc p op w2, w2]) (fields : ∀ op w2, enc (op &&& m) op w2 = op)
    (wf : ∀ op w2, wellFormed (build op w2) = true) : ReadsBack ⟨m, p, 2, build⟩ where
  wf := wf
  one h := absurd h (by simp)
  two _ op w2 hop := by
    obtain rfl : op &&& m = p := hop
    exact (he op w2).trans (by rw [fields])

section Formats

variable {p : Word}

theorem readsBack_Z0 (i : Instr) (he : encode i = [p] := by rfl) (wf : wellFormed i = true := by rfl) :
    ReadsBack ⟨0xFFFF#16, p, 1, fun _ _ => i⟩ :=
  readsBack_one (fun p _ => p) (fun _ => he) (fun op => and_of_all_bits op) fun _ => wf

theorem readsBack_RD (i : Reg → Instr) (he : ∀ d, encode (i d) = [encD p d] := by intros; rfl)
    (wf : ∀ d, wellFormed (i d) = true := by intros; rfl) :
    ReadsBack ⟨0xFE0F#16, p, 1, fun w _ => i (dReg w)⟩ :=
  readsBack_one (fun p op => encD p (dReg op)) (fun _ => he _) encD_fields fun _ => wf _

theorem readsBack_RR (i : Reg → Reg → Instr) (he : ∀ d r, encode (i d r) = [encRR p d r] := by intros; rfl)
    (wf : ∀ d r, wellFormed (i d r) = true := by intros; rfl) :
    ReadsBack ⟨0xFC00#16, p, 1, fun w _ => i (dReg w) (rRR w)⟩ :=
  readsBack_one (fun p op => encRR p (dReg op) (rRR op)) (fun _ => he _ _) encRR_fields fun _ => wf _ _

theorem upperReg_dRI (op : Word) : upperReg (dRI op) = true :=
  decide_eq_true (by rw [dRI_val]; exact Nat.le_add_right _ _)

theorem upperReg_rM16 (op : Word) : upperReg (rM16 op) = true :=
  decide_eq_true (by rw [rM16_val]; exact Nat.le_add_right _ _)

theorem readsBack_RI (i : Reg → Byte → Instr) (he : ∀ d k, encode (i d k) = [encRI p d k] := by intros; rfl)
    (wf : ∀ d k, wellFormed (i d k) = upperReg d := by intros; rfl) :
    ReadsBack ⟨0xF000#16, p, 1, fun w _ => i (dRI w) (kRI w)⟩ :=
  readsBack_one (fun p op => encRI p (dRI op) (kRI op)) (fun _ => he _ _) encRI_fields
    fun op => (wf _ _).trans (upperReg_dRI op)

theorem readsBack_M16 (i : Reg → Reg → Instr) (he : ∀ d r, encode (i d r) = [encM16 p d r] := by intros; rfl)
    (wf : ∀ d r, wellFormed (i d r) = (upperReg d && upperReg r) := by intros; rfl) :
    ReadsBack ⟨0xFF00#16, p, 1, fun w _ => i (dRI w) (rM16 w)⟩ :=
  readsBack_one (fun p op => encM16 p (dRI op) (rM16 op)) (fun _ => he _ _) encM16_fields
    fun op => by rw [wf, upperReg_dRI, upperReg_rM16, Bool.and_true]

theorem fractReg_M8 (op : Word) : (fractReg (dM8 op) && fractReg (rM8 op)) = true := by
  have high := field_lt op 4 3
  have low := field_lt op 0 3
  have d : fractReg (dM8 op) = true := decide_eq_true (by rw [dM8_val]; omega)
  have r : fractReg (rM8 op) = true := decide_eq_true (by rw [rM8_val]; omega)
  rw [d, r, Bool.and_true]

theorem readsBack_M8 (i : Reg → Reg → Instr) (he : ∀ d r, encode (i d r) = [encM8 p d r] := by intros; rfl)
    (wf : ∀ d r, wellFormed (i d r) = (fractReg d && fractReg r) := by intros; rfl) :
    ReadsBack ⟨0xFF88#16, p, 1, fun w _ => i (dM8 w) (rM8 w)⟩ :=
  readsBack_one (fun p op => encM8 p (dM8 op) (rM8 op)) (fun _ => he _ _) encM8_fields
    fun op => (wf _ _).trans (fractReg_M8 op)

theorem evenReg_MW (op : Word) : (evenReg (dMW op) && evenReg (rMW op)) = true := by
  have d : evenReg (dMW op) = true := decide_eq_true (by rw [dMW_val]; omega)
  have r : evenReg (rMW op) = true := decide_eq_true (by rw [rMW_val]; omega)
  rw [d, r, Bool.and_true]

theorem readsBack_MW (i : Reg → Reg → Instr) (he : ∀ d r, encode (i d r) = [encMW p d r] := by intros; rfl)
    (wf : ∀ d r, wellFormed (i d r) = (evenReg d && evenReg r) := by intros; rfl) :
    ReadsBack ⟨0xFF00#16, p, 1, fun w _ => i (dMW w) (rMW w)⟩ :=
  readsBack_one (fun p op => encMW p (dMW op) (rMW op)) (fun _ => he _ _) encMW_fields
    fun op => (wf _ _).trans (evenReg_MW op)

theorem wordReg_dWI (op : Word) : wordReg (dWI op) = true := decide_eq_true (by rw [dWI_val]; omega)

theorem readsBack_WI (i : Reg → BitVec 6 → Instr)
    (he : ∀ d k, encode (i d k) = [encWI p d k] := by intros; rfl)
    (wf : ∀ d k, wellFormed (i d k) = wordReg d := by intros; rfl) :
    ReadsBack ⟨0xFF00#16, p, 1, fun w _ => i (dWI w) (kWI w)⟩ :=
  readsBack_one (fun p op => encWI p (dWI op) (kWI op)) (fun _ => he _ _) encWI_fields
    fun op => (wf _ _).trans (wordReg_dWI op)

theorem readsBack_LDD (i : Reg → BitVec 6 → Instr)
    (he : ∀ d q, encode (i d q) = [encLDD p d q] := by intros; rfl)
    (wf : ∀ d q, wellFormed (i d q) = true := by intros; rfl) :
    ReadsBack ⟨0xD208#16, p, 1, fun w _ => i (dReg w) (qLDD w)⟩ :=
  readsBack_one (fun p op => encLDD p (dReg op) (qLDD op)) (fun _ => he _ _) encLDD_fields fun _ => wf _ _

theorem readsBack_IOB (i : Fin 32 → BitIx → Instr)
    (he : ∀ a b, encode (i a b) = [encIOB p a b] := by intros; rfl)
    (wf : ∀ a b, wellFormed (i a b) = true := by intros; rfl) :
    ReadsBack ⟨0xFF00#16, p, 1, fun w _ => i (aIOB w) (bitLow w)⟩ :=
  readsBack_one (fun p op => encIOB p (aIOB op) (bitLow op)) (fun _ => he _ _) encIOB_fields fun _ => wf _ _

theorem readsBack_IO (i : Reg → Fin 64 → Instr) (he : ∀ d a, encode (i d a) = [encIO p d a] := by intros; rfl)
    (wf : ∀ d a, wellFormed (i d a) = true := by intros; rfl) :
    ReadsBack ⟨0xF800#16, p, 1, fun w _ => i (dReg w) (aIO w)⟩ :=
  readsBack_one (fun p op => encIO p (dReg op) (aIO op)) (fun _ => he _ _) encIO_fields fun _ => wf _ _

theorem readsBack_J12 (i : BitVec 12 → Instr) (he : ∀ k, encode (i k) = [encJ12 p k] := by intros; rfl)
    (wf : ∀ k, wellFormed (i k) = true := by intros; rfl) :
    ReadsBack ⟨0xF000#16, p, 1, fun w _ => i (kJ12 w)⟩ :=
  readsBack_one (fun p op => encJ12 p (kJ12 op)) (fun _ => he _) encJ12_fields fun _ => wf _

theorem readsBack_BR (i : BitIx → BitVec 7 → Instr)
    (he : ∀ f k, encode (i f k) = [encBR p f k] := by intros; rfl)
    (wf : ∀ f k, wellFormed (i f k) = true := by intros; rfl) :
    ReadsBack ⟨0xFC00#16, p, 1, fun w _ => i (bitLow w) (kBR w)⟩ :=
  readsBack_one (fun p op => encBR p (bitLow op) (kBR op)) (fun _ => he _ _) encBR_fields fun _ => wf _ _

theorem readsBack_RB (i : Reg → BitIx → Instr) (he : ∀ r b, encode (i r b) = [encRB p r b] := by intros; rfl)
    (wf : ∀ r b, wellFormed (i r b) = true := by intros; rfl) :
    ReadsBack ⟨0xFE08#16, p, 1, fun w _ => i (dReg w) (bitLow w)⟩ :=
  readsBack_one (fun p op => encRB p (dReg op) (bitLow op)) (fun _ => he _ _) encRB_fields fun _ => wf _ _

theorem readsBack_SF (i : BitIx → Instr) (he : ∀ f, encode (i f) = [encSF p f] := by intros; rfl)
    (wf : ∀ f, wellFormed (i f) = true := by intros; rfl) :
    ReadsBack ⟨0xFF8F#16, p, 1, fun w _ => i (sSF w)⟩ :=
  readsBack_one (fun p op => encSF p (sSF op)) (fun _ => he _) encSF_fields fun _ => wf _

theorem readsBack_LS2 (i : Reg → Word → Instr) (he : ∀ d k, encode (i d k) = [encD p d, k] := by intros; rfl)
    (wf : ∀ d k, wellFormed (i d k) = true := by intros; rfl) :
    ReadsBack ⟨0xFE0F#16, p, 2, fun w w2 => i (dReg w) w2⟩ :=
  readsBack_two (fun p op _ => encD p (dReg op)) (fun _ _ => he _ _) (fun op _ => encD_fields op)
    fun _ _ => wf _ _

theorem readsBack_J22 (i : BitVec 22 → Instr)
    (he : ∀ k, encode (i k) = [encJ22 p k, BitVec.ofNat 16 k.toNat] := by intros; rfl)
    (wf : ∀ k, wellFormed (i k) = true := by intros; rfl) :
    ReadsBack ⟨0xFE0E#16, p, 2, fun w w2 => i (kJ22 w w2)⟩ :=
  readsBack_two (fun p op w2 => encJ22 p (kJ22 op w2)) (fun _ _ => by rw [he, ofNat_kJ22]) encJ22_fields
    fun _ _ => wf _

end Formats

/-! ## The table, part by part -/

theorem tableMoves_readsBack : ∀ r ∈ tableMoves, ReadsBack r := by
  simp only [tableMoves, List.forall_mem_cons]
  exact ⟨readsBack_Z0 .nop, readsBack_MW .movw, readsBack_M16 .muls, readsBack_M8 .mulsu,
    readsBack_M8 .fmul, readsBack_M8 .fmuls, readsBack_M8 .fmulsu, readsBack_RR .cpc, readsBack_RR .sbc,
    readsBack_RR .add, List.forall_mem_nil _⟩

theorem tableRR_readsBack : ∀ r ∈ tableRR, ReadsBack r := by
  simp only [tableRR, List.forall_mem_cons]
  exact ⟨readsBack_RR .cpse, readsBack_RR .cp, readsBack_RR .sub, readsBack_RR .adc, readsBack_RR .and,
    readsBack_RR .eor, readsBack_RR .or, readsBack_RR .mov, List.forall_mem_nil _⟩

theorem tableRI_readsBack : ∀ r ∈ tableRI, ReadsBack r := by
  simp only [tableRI, List.forall_mem_cons]
  exact ⟨readsBack_RI .cpi, readsBack_RI .sbci, readsBack_RI .subi, readsBack_RI .ori, readsBack_RI .andi,
    List.forall_mem_nil _⟩

theorem tableDisp_readsBack : ∀ r ∈ tableDisp, ReadsBack r := by
  simp only [tableDisp, List.forall_mem_cons]
  exact ⟨readsBack_LDD .lddZ, readsBack_LDD .lddY, readsBack_LDD fun r q => .stdZ q r,
    readsBack_LDD fun r q => .stdY q r, List.forall_mem_nil _⟩

theorem tableLoad_readsBack : ∀ r ∈ tableLoad, ReadsBack r := by
  simp only [tableLoad, List.forall_mem_cons]
  exact ⟨readsBack_LS2 .lds, readsBack_RD .ldZInc, readsBack_RD .ldZDec, readsBack_RD .lpmZ,
    readsBack_RD .lpmZInc, readsBack_RD .ldYInc, readsBack_RD .ldYDec, readsBack_RD .ldX,
    readsBack_RD .ldXInc, readsBack_RD .ldXDec, readsBack_RD .pop, List.forall_mem_nil _⟩

theorem tableStore_readsBack : ∀ r ∈ tableStore, ReadsBack r := by
  simp only [tableStore, List.forall_mem_cons]
  exact ⟨readsBack_LS2 fun r q => .sts q r, readsBack_RD .stZInc, readsBack_RD .stZDec,
    readsBack_RD .stYInc, readsBack_RD .stYDec, readsBack_RD .stX, readsBack_RD .stXInc,
    readsBack_RD .stXDec, readsBack_RD .push, List.forall_mem_nil _⟩

theorem tableOne_readsBack : ∀ r ∈ tableOne, ReadsBack r := by
  simp only [tableOne, List.forall_mem_cons]
  exact ⟨readsBack_RD .com, readsBack_RD .neg, readsBack_RD .swap, readsBack_RD .inc, readsBack_RD .asr,
    readsBack_RD .lsr, readsBack_RD .ror, readsBack_RD .dec, readsBack_SF .bset, readsBack_SF .bclr,
    readsBack_Z0 .ijmp, readsBack_Z0 .icall, readsBack_Z0 .ret, readsBack_Z0 .reti, readsBack_Z0 .sleep,
    readsBack_Z0 .brk, readsBack_Z0 .wdr, readsBack_Z0 .lpm, readsBack_Z0 .spm, readsBack_J22 .jmp,
    readsBack_J22 .call, List.forall_mem_nil _⟩

theorem tableWordIo_readsBack : ∀ r ∈ tableWordIo, ReadsBack r := by
  simp only [tableWordIo, List.forall_mem_cons]
  exact ⟨readsBack_WI .adiw, readsBack_WI .sbiw, readsBack_IOB .cbi, readsBack_IOB .sbic,
    readsBack_IOB .sbi, readsBack_IOB .sbis, readsBack_RR .mul, List.forall_mem_nil _⟩

theorem tableHigh_readsBack : ∀ r ∈ tableHigh, ReadsBack r := by
  simp only [tableHigh, List.forall_mem_cons]
  exact ⟨readsBack_IO .inp, readsBack_IO fun r q => .out q r, readsBack_J12 .rjmp, readsBack_J12 .rcall,
    readsBack_RI .ldi, readsBack_BR .brbs, readsBack_BR .brbc, readsBack_RB .bld, readsBack_RB .bst,
    readsBack_RB .sbrc, readsBack_RB .sbrs, List.forall_mem_nil _⟩

/-- Every row of the table is read back. -/
theorem table_readsBack : ∀ r ∈ table, ReadsBack r := by
  simp only [table, List.forall_mem_append]
  exact ⟨⟨⟨⟨⟨⟨⟨⟨tableMoves_readsBack, tableRR_readsBack⟩, tableRI_readsBack⟩, tableDisp_readsBack⟩,
    tableLoad_readsBack⟩, tableStore_readsBack⟩, tableOne_readsBack⟩, tableWordIo_readsBack⟩, tableHigh_readsBack⟩

end Sys2Proof.Machine
end

section
/-! SUPPORT. The rows of two words (spec/30_encoding.md R105). -/

namespace Sys2Proof.Machine

theorem isTwoWord_iff (w : Word) : isTwoWord w = true ↔
    w &&& 0xFE0F = 0x9000 ∨ w &&& 0xFE0F = 0x9200 ∨ w &&& 0xFE0E = 0x940C ∨ w &&& 0xFE0E = 0x940E := by
  simp [isTwoWord, or_assoc]

/-- The first words of two-word instructions are those of LDS, STS, JMP and CALL. -/
theorem lookup_of_isTwoWord {w : Word} (h : isTwoWord w = true) :
    ∃ row, lookup w = some row ∧ row.words = 2 := by
  obtain lds | sts | jmp | call := (isTwoWord_iff w).mp h
  · exact ⟨_, lookup_of_match (row := ⟨0xFE0F#16, 0x9000#16, 2, fun w w2 => .lds (dReg w) w2⟩)
      (by simp [table, tableLoad]) lds, rfl⟩
  · exact ⟨_, lookup_of_match (row := ⟨0xFE0F#16, 0x9200#16, 2, fun w w2 => .sts w2 (dReg w)⟩)
      (by simp [table, tableStore]) sts, rfl⟩
  · exact ⟨_, lookup_of_match (row := ⟨0xFE0E#16, 0x940C#16, 2, fun w w2 => .jmp (kJ22 w w2)⟩)
      (by simp [table, tableOne]) jmp, rfl⟩
  · exact ⟨_, lookup_of_match (row := ⟨0xFE0E#16, 0x940E#16, 2, fun w w2 => .call (kJ22 w w2)⟩)
      (by simp [table, tableOne]) call, rfl⟩

/-- The masks and patterns of the rows that are not of one word: a finite check of the table. -/
theorem twoWord_rows : ∀ r ∈ table, r.words ≠ 1 →
    (r.mask, r.pattern) ∈ [(0xFE0F, 0x9000), (0xFE0F, 0x9200), (0xFE0E, 0x940C), (0xFE0E, 0x940E)] := by
  decide +kernel

theorem isTwoWord_of_lookup {w : Word} {row : Row} (h : lookup w = some row) (two : row.words ≠ 1) :
    isTwoWord w = true := by
  obtain ⟨inTable, hit⟩ := lookup_eq_some h
  have shape := twoWord_rows row inTable two
  simp only [List.mem_cons, List.not_mem_nil, or_false, Prod.mk.injEq] at shape
  rw [isTwoWord_iff]
  obtain ⟨mask, pattern⟩ | ⟨mask, pattern⟩ | ⟨mask, pattern⟩ | ⟨mask, pattern⟩ := shape
  · exact .inl (mask ▸ pattern ▸ hit)
  · exact .inr (.inl (mask ▸ pattern ▸ hit))
  · exact .inr (.inr (.inl (mask ▸ pattern ▸ hit)))
  · exact .inr (.inr (.inr (mask ▸ pattern ▸ hit)))

/-- The number of words of the row found says whether the first word is that of a two-word instruction. -/
theorem isTwoWord_iff_of_lookup {w : Word} {row : Row} (h : lookup w = some row) :
    isTwoWord w = true ↔ row.words ≠ 1 := by
  refine ⟨fun two => ?_, isTwoWord_of_lookup h⟩
  obtain ⟨row', found, words⟩ := lookup_of_isTwoWord two
  obtain rfl : row = row' := Option.some.inj (h.symm.trans found)
  omega

/-- A two-word instruction without its second word is none (R105, R142). -/
theorem decodeWords_isTwoWord_alone {w : Word} (h : isTwoWord w = true) :
    decodeWords [w] = .error (.secondWordMissing w) := by
  obtain ⟨row, found, words⟩ := lookup_of_isTwoWord h
  simp [decodeWords, found, words]

/-- The words of a well-formed instruction are one, or two where the first says so. -/
theorem encode_shape {i : Instr} (wf : wellFormed i = true) :
    ∃ w more, encode i = w :: more ∧ (isTwoWord w = true ↔ instrWords i = 2) := by
  have decoded : decodeWords (encode i) = .ok (i, []) := by simpa using decodeOfEncode i [] wf
  obtain ⟨op, row, found, ⟨one, words, -⟩ | ⟨two, w2, words, -⟩⟩ := decodeWords_eq_ok decoded
  · exact ⟨op, [], words, by simp [isTwoWord_iff_of_lookup found, one, instrWords, words]⟩
  · exact ⟨op, [w2], words, by simp [isTwoWord_iff_of_lookup found, two, instrWords, words]⟩

end Sys2Proof.Machine
end

section
/-! The statements on decoding (spec/30_encoding.md R103, R105, R107). -/

namespace Sys2Proof.Machine

/-- Settles O31: a decoded instruction is what a row of the table built, and every row is read back. -/
theorem encodeOfDecode : Obligations.EncodeOfDecode := by
  intro ws rest i h
  obtain ⟨op, row, found, cases⟩ := decodeWords_eq_ok h
  obtain ⟨inTable, hit⟩ := lookup_eq_some found
  have back := table_readsBack row inTable
  obtain ⟨one, rfl, rfl⟩ | ⟨two, w2, rfl, rfl⟩ := cases
  · exact ⟨back.wf op 0, by rw [back.one one op hit]; rfl⟩
  · exact ⟨back.wf op w2, by rw [back.two two op w2 hit]; rfl⟩

/-- Settles O34: the number of words is that of the row, which the four tests single out. -/
theorem twoWordOpcodes : Obligations.TwoWordOpcodes :=
  ⟨fun i => by cases i <;> rfl, fun _ => encode_shape, isTwoWord_iff, fun _ => decodeWords_isTwoWord_alone⟩

/-- Settles O35: each word is decoded by evaluation. -/
theorem sampleWordsDecode : Obligations.SampleWordsDecode :=
  ⟨rfl, rfl, rfl, rfl, rfl, rfl, rfl, rfl, rfl, rfl, rfl⟩

end Sys2Proof.Machine
end

section
/-! SUPPORT. The words the rows of each part of the table match, as numbers (spec/30_encoding.md R109, R110). -/

namespace Sys2Proof.Machine

/-! ## Matching a row, field by field -/

theorem and_fieldBits_eq_iff (op p : Word) (lo n : Nat) :
    op &&& fieldBits lo n = p &&& fieldBits lo n ↔ field op lo n = field p lo n := by
  have small : ∀ w : Word, field w lo n * 2 ^ lo < 2 ^ 16 := fun w =>
    calc field w lo n * 2 ^ lo ≤ w.toNat / 2 ^ lo * 2 ^ lo := Nat.mul_le_mul_right _ (Nat.mod_le _ _)
      _ ≤ w.toNat := Nat.div_mul_le_self _ _
      _ < 2 ^ 16 := w.isLt
  rw [← ofNat_field, ← ofNat_field, ← BitVec.toNat_inj, BitVec.toNat_ofNat, BitVec.toNat_ofNat,
    Nat.mod_eq_of_lt (small op), Nat.mod_eq_of_lt (small p), Nat.mul_left_inj (Nat.two_pow_pos lo).ne']

/-- Agreement in two sets of bits is agreement in each. -/
theorem and_or_eq_iff (op p m m' : Word) :
    op &&& (m ||| m') = p &&& (m ||| m') ↔ op &&& m = p &&& m ∧ op &&& m' = p &&& m' := by
  have keep : ∀ {a b : Word}, a &&& (a ||| b) = a := fun {a b} => by
    ext k
    cases hk : a[k] <;> simp [hk]
  constructor
  · intro h
    constructor
    · rw [← keep (a := m) (b := m'), BitVec.and_comm m, ← BitVec.and_assoc, ← BitVec.and_assoc, h]
    · rw [← keep (a := m') (b := m), BitVec.and_comm m', BitVec.or_comm m', ← BitVec.and_assoc,
        ← BitVec.and_assoc, h]
  · rintro ⟨h, h'⟩
    rw [BitVec.and_or_distrib_left, BitVec.and_or_distrib_left, h, h']

/-- The bits of a list of fields, each given by its lowest bit and its number of bits. -/
def bitsOf : List (Nat × Nat) → Word
  | [] => 0
  | (lo, n) :: fields => fieldBits lo n ||| bitsOf fields

/-- A word has a row's fixed bits exactly when it has each of the row's fixed fields. -/
theorem and_bitsOf_eq_iff {op p : Word} : ∀ {fields : List (Nat × Nat)},
    op &&& bitsOf fields = p &&& bitsOf fields ↔ ∀ f ∈ fields, field op f.1 f.2 = field p f.1 f.2
  | [] => by simp [bitsOf]
  | (lo, n) :: fields => by
    rw [bitsOf, and_or_eq_iff, and_fieldBits_eq_iff, and_bitsOf_eq_iff, List.forall_mem_cons]

section Masks

variable {op p : Word}

theorem match_iff {m : Word} (fields : List (Nat × Nat)) (hm : m = bitsOf fields) (hp : p &&& m = p) :
    op &&& m = p ↔ ∀ f ∈ fields, field op f.1 f.2 = field p f.1 f.2 := by
  rw [← and_bitsOf_eq_iff, ← hm, hp]

theorem match_FFFF : op &&& 0xFFFF#16 = p ↔ op.toNat = p.toNat := by
  rw [BitVec.toNat_inj, show op &&& 0xFFFF#16 = op from and_of_all_bits op]

theorem match_FF00 (hp : p &&& 0xFF00#16 = p) : op &&& 0xFF00#16 = p ↔ op.toNat / 256 = p.toNat / 256 := by
  rw [match_iff [(8, 8)] (by decide) hp]
  simp [field]
  omega

theorem match_FC00 (hp : p &&& 0xFC00#16 = p) : op &&& 0xFC00#16 = p ↔ op.toNat / 1024 = p.toNat / 1024 := by
  rw [match_iff [(10, 6)] (by decide) hp]
  simp [field]
  omega

theorem match_F800 (hp : p &&& 0xF800#16 = p) : op &&& 0xF800#16 = p ↔ op.toNat / 2048 = p.toNat / 2048 := by
  rw [match_iff [(11, 5)] (by decide) hp]
  simp [field]
  omega

theorem match_F000 (hp : p &&& 0xF000#16 = p) : op &&& 0xF000#16 = p ↔ op.toNat / 4096 = p.toNat / 4096 := by
  rw [match_iff [(12, 4)] (by decide) hp]
  simp [field]
  omega

theorem match_FE0F (hp : p &&& 0xFE0F#16 = p) : op &&& 0xFE0F#16 = p ↔
    op.toNat / 512 = p.toNat / 512 ∧ op.toNat % 16 = p.toNat % 16 := by
  rw [match_iff [(9, 7), (0, 4)] (by decide) hp]
  simp [field]
  omega

theorem match_FE0E (hp : p &&& 0xFE0E#16 = p) : op &&& 0xFE0E#16 = p ↔
    op.toNat / 512 = p.toNat / 512 ∧ op.toNat % 16 / 2 = p.toNat % 16 / 2 := by
  rw [match_iff [(9, 7), (1, 3)] (by decide) hp]
  simp [field]
  omega

theorem match_FE08 (hp : p &&& 0xFE08#16 = p) : op &&& 0xFE08#16 = p ↔
    op.toNat / 512 = p.toNat / 512 ∧ op.toNat / 8 % 2 = p.toNat / 8 % 2 := by
  rw [match_iff [(9, 7), (3, 1)] (by decide) hp]
  simp [field]
  omega

theorem match_FF8F (hp : p &&& 0xFF8F#16 = p) : op &&& 0xFF8F#16 = p ↔
    op.toNat / 128 = p.toNat / 128 ∧ op.toNat % 16 = p.toNat % 16 := by
  rw [match_iff [(7, 9), (0, 4)] (by decide) hp]
  simp [field]
  omega

theorem match_FF88 (hp : p &&& 0xFF88#16 = p) : op &&& 0xFF88#16 = p ↔
    op.toNat / 128 = p.toNat / 128 ∧ op.toNat / 8 % 2 = p.toNat / 8 % 2 := by
  rw [match_iff [(7, 9), (3, 1)] (by decide) hp]
  simp [field]
  omega

theorem match_D208 (hp : p &&& 0xD208#16 = p) : op &&& 0xD208#16 = p ↔
    op.toNat / 16384 = p.toNat / 16384 ∧ op.toNat / 4096 % 2 = p.toNat / 4096 % 2 ∧
      op.toNat / 512 % 2 = p.toNat / 512 % 2 ∧ op.toNat / 8 % 2 = p.toNat / 8 % 2 := by
  have top : ∀ w : Word, field w 14 2 = w.toNat / 16384 := fun w =>
    Nat.mod_eq_of_lt (by have := w.isLt; omega)
  rw [match_iff [(14, 2), (12, 1), (9, 1), (3, 1)] (by decide) hp]
  simp only [List.forall_mem_cons, top, List.not_mem_nil, false_imp_iff, implies_true, and_true]
  exact Iff.rfl

end Masks

/-! ## The parts of the table -/

/-- Some row of the list matches the word. -/
def Matched (rows : List Row) (op : Word) : Prop := ∃ r ∈ rows, op &&& r.mask = r.pattern

theorem matched_append (rows rows' : List Row) (op : Word) :
    Matched (rows ++ rows') op ↔ Matched rows op ∨ Matched rows' op := by
  simp only [Matched, List.mem_append, or_and_right, exists_or]

theorem matched_nil (op : Word) : Matched [] op ↔ False := by simp [Matched]

theorem matched_cons (r : Row) (rows : List Row) (op : Word) :
    Matched (r :: rows) op ↔ op &&& r.mask = r.pattern ∨ Matched rows op := by
  simp [Matched]

theorem tableMoves_matched (op : Word) : Matched tableMoves op ↔
    op.toNat = 0 ∨ 0x100 ≤ op.toNat ∧ op.toNat < 0x1000 := by
  simp only [tableMoves, matched_cons, matched_nil, match_FFFF, match_FF00, match_FF88, match_FC00,
    BitVec.reduceAnd, BitVec.reduceToNat, Nat.reduceDiv, Nat.reduceMod, or_false]
  omega

theorem tableRR_matched (op : Word) : Matched tableRR op ↔ 0x1000 ≤ op.toNat ∧ op.toNat < 0x3000 := by
  simp only [tableRR, matched_cons, matched_nil, match_FC00, BitVec.reduceAnd, BitVec.reduceToNat,
    Nat.reduceDiv, or_false]
  omega

theorem tableRI_matched (op : Word) : Matched tableRI op ↔ 0x3000 ≤ op.toNat ∧ op.toNat < 0x8000 := by
  simp only [tableRI, matched_cons, matched_nil, match_F000, BitVec.reduceAnd, BitVec.reduceToNat,
    Nat.reduceDiv, or_false]
  omega

theorem tableDisp_matched (op : Word) : Matched tableDisp op ↔
    op.toNat / 4096 = 8 ∨ op.toNat / 4096 = 10 := by
  simp only [tableDisp, matched_cons, matched_nil, match_D208, BitVec.reduceAnd, BitVec.reduceToNat,
    Nat.reduceDiv, Nat.reduceMod, or_false]
  omega

/-- The reserved low digits of the words from 0x9000 (R110). -/
def ReservedLoad (n : Nat) : Prop := n % 16 ∈ [0x3, 0x6, 0x7, 0x8, 0xB]

/-- The reserved low digits of the words from 0x9200 (R110). -/
def ReservedStore (n : Nat) : Prop := n % 16 ∈ [0x3, 0x4, 0x5, 0x6, 0x7, 0x8, 0xB]

/-- The reserved words from 0x9400, by their low digit (R110). -/
def ReservedOne (n : Nat) : Prop :=
  n % 16 = 0x4 ∨ n % 16 = 0xB ∨ (n % 16 = 0x9 ∧ n ∉ [0x9409, 0x9509]) ∨
    (n % 16 = 0x8 ∧ n / 256 = 0x95 ∧ n ∉ [0x9508, 0x9518, 0x9588, 0x9598, 0x95A8, 0x95C8, 0x95E8])

theorem tableLoad_matched (op : Word) : Matched tableLoad op ↔
    op.toNat / 512 = 0x48 ∧ ¬ ReservedLoad op.toNat := by
  simp only [tableLoad, matched_cons, matched_nil, match_FE0F, BitVec.reduceAnd, BitVec.reduceToNat,
    Nat.reduceDiv, Nat.reduceMod, ReservedLoad]
  have digit : op.toNat % 16 < 16 := Nat.mod_lt _ (by decide)
  generalize op.toNat % 16 = x at digit ⊢
  interval_cases x <;> simp

theorem tableStore_matched (op : Word) : Matched tableStore op ↔
    op.toNat / 512 = 0x49 ∧ ¬ ReservedStore op.toNat := by
  simp only [tableStore, matched_cons, matched_nil, match_FE0F, BitVec.reduceAnd, BitVec.reduceToNat,
    Nat.reduceDiv, Nat.reduceMod, ReservedStore]
  have digit : op.toNat % 16 < 16 := Nat.mod_lt _ (by decide)
  generalize op.toNat % 16 = x at digit ⊢
  interval_cases x <;> simp

theorem tableOne_matched (op : Word) : Matched tableOne op ↔
    op.toNat / 512 = 0x4A ∧ ¬ ReservedOne op.toNat := by
  simp only [tableOne, matched_cons, matched_nil, match_FFFF, match_FE0F, match_FF8F, match_FE0E,
    BitVec.reduceAnd, BitVec.reduceToNat, Nat.reduceDiv, Nat.reduceMod, ReservedOne]
  have digit : op.toNat % 16 < 16 := Nat.mod_lt _ (by decide)
  generalize hx : op.toNat % 16 = x at digit ⊢
  interval_cases x <;> simp <;> omega

theorem tableWordIo_matched (op : Word) : Matched tableWordIo op ↔ 0x9600 ≤ op.toNat ∧ op.toNat < 0xA000 := by
  simp only [tableWordIo, matched_cons, matched_nil, match_FF00, match_FC00, BitVec.reduceAnd,
    BitVec.reduceToNat, Nat.reduceDiv, or_false]
  omega

theorem tableHigh_matched (op : Word) : Matched tableHigh op ↔
    0xB000 ≤ op.toNat ∧ op.toNat < 0xF800 ∨ op.toNat / 2048 = 0x1F ∧ op.toNat / 8 % 2 = 0 := by
  simp only [tableHigh, matched_cons, matched_nil, match_F800, match_F000, match_FC00, match_FE08,
    BitVec.reduceAnd, BitVec.reduceToNat, Nat.reduceDiv, Nat.reduceMod, or_false]
  omega

/-- The reserved words: those that no part of the table matches (R110). -/
theorem lookup_eq_none_iff (op : Word) : lookup op = none ↔
    (1 ≤ op.toNat ∧ op.toNat ≤ 0xFF) ∨ (op.toNat / 512 = 0x48 ∧ ReservedLoad op.toNat) ∨
    (op.toNat / 512 = 0x49 ∧ ReservedStore op.toNat) ∨ (op.toNat / 512 = 0x4A ∧ ReservedOne op.toNat) ∨
    (op.toNat / 2048 = 0x1F ∧ op.toNat / 8 % 2 = 1) := by
  have small := op.isLt
  have unmatched : lookup op = none ↔ ¬ Matched table op := by simp [lookup, Matched]
  simp only [unmatched, table, matched_append, tableMoves_matched, tableRR_matched, tableRI_matched,
    tableDisp_matched, tableLoad_matched, tableStore_matched, tableOne_matched, tableWordIo_matched,
    tableHigh_matched]
  generalize op.toNat = n at small
  by_cases load : ReservedLoad n <;> by_cases store : ReservedStore n <;> by_cases one : ReservedOne n <;>
    simp only [load, store, one, not_true, not_false_iff, and_true, and_false, or_false, false_or] <;> omega

end Sys2Proof.Machine
end

section
/-! The statement on reserved words (spec/30_encoding.md R110). -/

namespace Sys2Proof.Machine

/-- Settles O33: part by part of the table, the words its rows match. -/
theorem reservedOpcodes : Obligations.ReservedOpcodes := lookup_eq_none_iff

end Sys2Proof.Machine
end

section
/-! SUPPORT. `SREG` where no hook sits on it, whatever hooks sit elsewhere (spec/10_state.md R25, R27), and
16-bit stores as bytes (spec/20_memory.md R65). -/

namespace Sys2Proof.Machine

section Sreg

variable {s : State} (inside : s.params.sregAddr < s.params.dataSize)
include inside

theorem readFlag_unhooked (hook : hookAt s.rdHooks s.params.sregAddr = none) (k : BitIx) :
    readFlag k s = .ok (bitOf s.sreg k, s) :=
  act_bind_ok (m := readSreg) (memRead_unhooked inside hook)

theorem writeFlag_unhooked (rdHook : hookAt s.rdHooks s.params.sregAddr = none)
    (wrHook : hookAt s.wrHooks s.params.sregAddr = none) (k : BitIx) (b : Bool) :
    writeFlag k b s = .ok ((), { s with mem := s.mem.set s.params.sregAddr (withBit s.sreg k b) }) :=
  (act_bind_ok (m := readSreg) (memRead_unhooked inside rdHook)).trans (memWrite_unhooked inside wrHook)

end Sreg

/-- With I clear the core's step executes, whatever is pending (R132, R317). -/
theorem coreStep_of_I_clear {s : State} (running : s.halted = none) (ready : s.wait = 0)
    (clear : readFlag flagI s = .ok (false, s)) : coreStep s = finishStep (executeStep s) := by
  have check : interruptCheck s = .ok (none, s) := act_bind_ok clear
  simp only [coreStep, running, ready, ne_eq, not_true, if_false, activeStep, check]

/-- The bytes after a 16-bit store, in any memory in canonical form. -/
theorem memory_get_setWord {m : Memory} (wf : m.wf = true) (b : Nat) (w : Word) (a : Nat) :
    ((m.set b (lowByte w)).set (b + 1) (highByte w)).get a = withWord b w m.get a := by
  rw [memory_get_set (memory_wf_set _ _ wf), memory_get_set wf, withWord]
  by_cases low : a = b
  · have notHigh : a ≠ b + 1 := by omega
    simp only [low, if_true, if_neg (low ▸ notHigh)]
  · simp only [low, if_false]

/-- `OnlyMem` of a state with another memory, from that memory's bytes. -/
theorem onlyMem_setMem {s : State} {m : Memory} {f : Nat → Byte} (bytes : ∀ a, m.get a = f a) :
    OnlyMem s { s with mem := m } f :=
  ⟨bytes, rfl, rfl, rfl, rfl, rfl, rfl, ⟨rfl, rfl, rfl, rfl, rfl, rfl⟩⟩

end Sys2Proof.Machine
end

section
/-! SUPPORT. `Connect` and the hook tables (spec/20_memory.md R69), and the memory a reset leaves
(spec/70_reset_and_hazards.md R350). -/

namespace Sys2Proof.Machine

/-! ## Hook tables -/

theorem hookAt_setHook (h : Behaviour) (a x : Nat) : ∀ hooks : List (Nat × Behaviour),
    hookAt (setHook hooks a h) x = if x = a then some h else hookAt hooks x
  | [] => by simp [setHook, hookAt]
  | (k, g) :: rest => by
    by_cases hk : a = k
    · subst hk
      by_cases hx : x = a <;> simp [setHook, hookAt, hx]
    · by_cases hx : x = k
      · subst hx
        simp [setHook, hookAt, hk, Ne.symm hk]
      · simp [setHook, hookAt, hk, hx, hookAt_setHook h a x rest]

/-- The table after a registration: the hook given for the address, else what was there. -/
theorem hookAt_registerHook (hooks : List (Nat × Behaviour)) (a : Nat) (h : Option Behaviour) (x : Nat) :
    hookAt (registerHook hooks a h) x = (if a = x then h else none).or (hookAt hooks x) := by
  cases h with
  | none => simp [registerHook]
  | some g => by_cases hx : a = x <;> simp [registerHook, hookAt_setHook, hx, eq_comm]

/-- The last hook that a list of connections gives for an address. -/
def lastHook (side : Connection → Option Behaviour) (l : List Connection) (a : Nat) : Option Behaviour :=
  ((l.filter fun c => c.addr = a).filterMap side).getLast?

theorem lastHook_cons (side : Connection → Option Behaviour) (c : Connection) (l : List Connection) (a : Nat) :
    lastHook side (c :: l) a = (lastHook side l a).or (if c.addr = a then side c else none) := by
  by_cases hc : c.addr = a
  · cases hs : side c <;> simp [lastHook, hc, hs, List.getLast?_cons]
  · simp [lastHook, hc]

/-! ## `Connect` -/

theorem connect_inside {c : Connection} {s : State} (h : c.addr < s.params.dataSize) :
    connect c s = .ok { s with
      rdHooks := registerHook s.rdHooks c.addr c.rd
      wrHooks := registerHook s.wrHooks c.addr c.wr } := if_pos h

theorem connect_outside {c : Connection} {s : State} (h : s.params.dataSize ≤ c.addr) :
    connect c s = .error (.addressRange .data c.addr) := if_neg (Nat.not_lt.mpr h)

/-- Connections in range are all made; for each address the last hook given stands (R69). -/
theorem connectAll_inside : ∀ {l : List Connection} {s : State},
    (∀ c ∈ l, c.addr < s.params.dataSize) →
    ∃ rd wr, connectAll l s = .ok { s with rdHooks := rd, wrHooks := wr } ∧
      (∀ a, hookAt rd a = (lastHook Connection.rd l a).or (hookAt s.rdHooks a)) ∧
      ∀ a, hookAt wr a = (lastHook Connection.wr l a).or (hookAt s.wrHooks a)
  | [], s, _ => ⟨s.rdHooks, s.wrHooks, rfl, fun _ => rfl, fun _ => rfl⟩
  | c :: rest, s, h => by
    have first := connect_inside (h c (by simp))
    obtain ⟨rd, wr, made, reads, writes⟩ := connectAll_inside (l := rest)
      (s := { s with
        rdHooks := registerHook s.rdHooks c.addr c.rd
        wrHooks := registerHook s.wrHooks c.addr c.wr })
      fun d hd => h d (List.mem_cons_of_mem _ hd)
    refine ⟨rd, wr, ?_, fun a => ?_, fun a => ?_⟩
    · simp only [connectAll, first, made]
    · rw [reads, lastHook_cons, hookAt_registerHook, Option.or_assoc]
    · rw [writes, lastHook_cons, hookAt_registerHook, Option.or_assoc]

/-- The first connection out of range ends the registration with its fault (R69, R83). -/
theorem connectAll_outside {c : Connection} (after : List Connection) : ∀ {before : List Connection} {s : State},
    (∀ d ∈ before, d.addr < s.params.dataSize) → s.params.dataSize ≤ c.addr →
    connectAll (before ++ c :: after) s = .error (.addressRange .data c.addr)
  | [], s, _, hc => by simp only [List.nil_append, connectAll, connect_outside hc]
  | d :: before, s, h, hc => by
    simp only [List.cons_append, connectAll, connect_inside (h d (by simp))]
    exact connectAll_outside after (fun e he => h e (List.mem_cons_of_mem _ he)) hc

/-! ## The image -/

theorem imageProblem_eq_none {image : List Byte} (even : image.length % 2 = 0) (some : 0 < image.length)
    (short : image.length ≤ 131072) : imageProblem image = none := by
  rw [imageProblem, if_neg (by omega), if_neg (by omega), if_neg (by omega)]

/-! ## The memory after a reset -/

/-- `MEM_INIT` as a reset writes it, in canonical form and inside the data space. -/
theorem memInit_wf (size : Nat) (cells : List Host.Cell) :
    (Memory.pokes size [] cells).wf = true ∧ (Memory.pokes size [] cells).below size = true :=
  ⟨memory_wf_pokes size cells rfl, memory_below_pokes size cells rfl⟩

/-- The memory after a reset: `SREG` and `SP` over `MEM_INIT` (R350). -/
theorem resetMem_get {p : Params} {m : Memory} (wf : m.wf = true) (a : Nat) :
    (State.resetMem p m).get a =
      withWord p.spAddr (State.spReset p) (fun x => if x = p.sregAddr then 0 else m.get x) a := by
  rw [State.resetMem, memory_get_setWord (memory_wf_set _ _ wf), withWord, withWord, memory_get_set wf]

theorem resetMem_inv {p : Params} (ok : p.Ok) {m : Memory} (wf : m.wf = true) (below : m.below p.dataSize = true) :
    (State.resetMem p m).wf = true ∧ (State.resetMem p m).below p.dataSize = true := by
  obtain ⟨-, -, sreg, sp, -⟩ := ok
  exact ⟨memory_wf_set _ _ (memory_wf_set _ _ (memory_wf_set _ _ wf)),
    memory_below_set _ sp (memory_below_set _ (Nat.lt_of_succ_lt sp) (memory_below_set _ sreg below))⟩

end Sys2Proof.Machine
end

section
/-! The statements on reset (spec/70_reset_and_hazards.md R350, R351). -/

namespace Sys2Proof.Machine

/-- Settles O1: the connections are all made, and the memory is `MEM_INIT` but for `SREG` and `SP`. -/
theorem resetGivesTheResetState : Obligations.ResetGivesTheResetState := by
  intro pf image ok even nonempty short inside
  have wf := (memInit_wf pf.params.dataSize pf.memInit).1
  have bytes := resetMem_get (p := pf.params) wf
  obtain ⟨-, -, -, -, -, -, low, high, -⟩ := ok
  obtain ⟨rd, wr, made, reads, writes⟩ := connectAll_inside (l := pf.connections)
    (s := { State.reset with
      mem := State.resetMem pf.params (Memory.pokes pf.params.dataSize [] pf.memInit)
      pend := List.replicate pf.nVectors false, plat := pf.plat, params := pf.params
      prog := wordsOfBytes image, clock := pf.clock, itable := pf.itable }) inside
  refine ⟨_, by rw [resetUnit, imageProblem_eq_none even nonempty short]; exact made, rfl, rfl, rfl, rfl, ?_,
    word_of_map (bytes _) (bytes _), List.length_replicate, fun b => List.eq_of_mem_replicate, rfl, rfl, rfl, rfl,
    fun a ha => ?_, fun a => ?_, fun a => ?_⟩
  · exact (bytes _).trans (by rw [withWord, if_neg low, if_neg high, if_pos rfl])
  · simp only [List.mem_cons, List.not_mem_nil, or_false, not_or] at ha
    obtain ⟨offSreg, offLow, offHigh⟩ := ha
    exact (bytes a).trans (by rw [withWord, if_neg offLow, if_neg offHigh, if_neg offSreg])
  · exact (reads a).trans (Option.or_none ..)
  · exact (writes a).trans (Option.or_none ..)

/-- Settles O2: the image is checked before any connection is made, and the connections in order. -/
theorem resetRefusesMalformedUnits : Obligations.ResetRefusesMalformedUnits := by
  intro pf image
  refine ⟨fun odd => ?_, fun empty => ?_, fun even long => ?_, ?_⟩
  · simp only [resetUnit, imageProblem, if_pos odd]
  · simp [resetUnit, imageProblem, empty]
  · have problem : imageProblem image = some .tooLong := by
      rw [imageProblem, if_neg (by omega), if_neg (by omega), if_pos long]
    simp only [resetUnit, problem]
  · intro before c after even nonempty short split inside outside
    simp only [resetUnit, imageProblem_eq_none even nonempty short, split]
    exact connectAll_outside after inside outside

/-- Settles O4: the raw writes of a reset are in range and keep the canonical form. -/
theorem resetStatesMeetTheInvariant : Obligations.ResetStatesMeetTheInvariant := by
  have default : Config.params.Ok := by decide
  refine ⟨⟨default, (resetMem_inv default rfl rfl).1, (resetMem_inv default rfl rfl).2⟩, fun pf image s ok h => ?_⟩
  obtain ⟨-, rd, wr, rfl⟩ := resetUnit_eq_ok h
  obtain ⟨wf, below⟩ := memInit_wf pf.params.dataSize pf.memInit
  exact ⟨ok, (resetMem_inv ok wf below).1, (resetMem_inv ok wf below).2⟩

/-- Settles O5: `SREG` is zero after a reset, so the check takes no interrupt, and `pc` is zero. -/
theorem firstStepAfterResetExecutesWordZero : Obligations.FirstStepAfterResetExecutesWordZero := by
  intro pf lo hi rest s ok h hook
  obtain ⟨-, rd, wr, hs⟩ := resetUnit_eq_ok h
  obtain ⟨-, -, inside, -, -, -, low, high, -⟩ := ok
  have params : s.params = pf.params := by rw [hs]
  have sreg : s.sreg = 0 := by
    rw [hs]
    exact (resetMem_get (memInit_wf _ _).1 _).trans (by rw [withWord, if_neg low, if_neg high, if_pos rfl])
  have clear : readFlag flagI s = .ok (false, s) := by
    rw [readFlag_unhooked (params ▸ inside) (params ▸ hook), sreg]
    rfl
  have first : progWord s s.pc = some (joinBytes hi lo) := by rw [hs]; rfl
  obtain ⟨more, code⟩ := codeAt_eq_cons first
  refine ⟨coreStep_of_I_clear (by rw [hs]) (by rw [hs]) clear, ?_⟩
  rw [code, List.head?_cons, joinBytes_eq_ofNat]

end Sys2Proof.Machine
end

section
/-! SUPPORT. One push and one pop, hooked at the stack byte or not (spec/40_engine_step.md R139, R140). -/

namespace Sys2Proof.Machine

/-- The state with another value in `SP`. -/
def State.withSp (s : State) (w : Word) : State :=
  { s with mem := (s.mem.set s.params.spAddr (lowByte w)).set (s.params.spAddr + 1) (highByte w) }

/-- The two bytes of `SP` are the halves of its value. -/
theorem withWord_own_sp (s : State) (a : Nat) : withWord s.params.spAddr s.sp s.byte a = s.byte a := by
  rw [withWord, State.sp, word_def, lowByte_join, highByte_join]
  by_cases low : a = s.params.spAddr
  · rw [if_pos low, low]
  · by_cases high : a = s.params.spAddr + 1
    · rw [if_neg low, if_pos high, high]
    · rw [if_neg low, if_neg high]

section Plain

variable {s : State} (hs : s.Plain)
include hs

theorem withSp_plain (w : Word) : (s.withSp w).Plain := plain_word hs _ w (sp_in hs)

theorem withSp_onlyMem (w : Word) : OnlyMem s (s.withSp w) (withWord s.params.spAddr w s.byte) :=
  onlyMem_word hs _ w

theorem withSp_sp (w : Word) : (s.withSp w).sp = w :=
  word_of_map ((withSp_onlyMem hs w).bytes _) ((withSp_onlyMem hs w).bytes _)

/-- A push is a write of the lowered `SP` and then one access at it. -/
theorem push8_eq (v : Byte) : push8 v s = memWrite (s.sp - 1).toNat v (s.withSp (s.sp - 1)) :=
  (act_bind_ok (readSp_plain hs.inv.params hs.noHooks)).trans
    (act_bind_ok (writeSp_plain hs.inv.params hs.noHooks _))

theorem push8_inside (v : Byte) (inside : (s.sp - 1).toNat < s.params.dataSize) :
    ∃ u, WriteAt (s.withSp (s.sp - 1)) (s.sp - 1).toNat v u ∧ push8 v s = .ok ((), u) := by
  obtain ⟨u, hu⟩ := memWrite_writeAt (v := v) (withSp_plain hs (s.sp - 1)).inv inside
  exact ⟨u, hu, (push8_eq hs v).trans hu.access⟩

theorem push8_outside (v : Byte) (outside : s.params.dataSize ≤ (s.sp - 1).toNat) :
    push8 v s = .error (.addressRange .data (s.sp - 1).toNat) :=
  (push8_eq hs v).trans (memWrite_outside outside)

/-- A pop is one access at `SP` and then a write of the raised `SP`. -/
theorem pop8_of_readAt {v : Byte} {u : State} (h : ReadAt s s.sp.toNat v u) :
    pop8 s = .ok (v, u.withSp (s.sp + 1)) := by
  have hu := h.plain hs
  unfold pop8
  rw [act_bind_ok (readSp_plain hs.inv.params hs.noHooks), act_bind_ok h.access,
    act_bind_ok (writeSp_plain hu.inv.params hu.noHooks _)]
  rfl

theorem pop8_inside (inside : s.sp.toNat < s.params.dataSize) :
    ∃ v u, ReadAt s s.sp.toNat v u ∧ pop8 s = .ok (v, u.withSp (s.sp + 1)) := by
  obtain ⟨v, u, h⟩ := memRead_readAt inside
  exact ⟨v, u, h, pop8_of_readAt hs h⟩

theorem pop8_outside (outside : s.params.dataSize ≤ s.sp.toNat) :
    pop8 s = .error (.addressRange .data s.sp.toNat) :=
  (act_bind_ok (readSp_plain hs.inv.params hs.noHooks)).trans (act_bind_error (memRead_outside outside))

/-- A pop after a push whose byte carries no hook and is not one of `SP`'s own (R139, R140). -/
theorem pop8_after_push8 (v : Byte) (inside : (s.sp - 1).toNat < s.params.dataSize)
    (wrHook : hookAt s.wrHooks (s.sp - 1).toNat = none) (rdHook : hookAt s.rdHooks (s.sp - 1).toNat = none)
    (offLow : (s.sp - 1).toNat ≠ s.params.spAddr) (offHigh : (s.sp - 1).toNat ≠ s.params.spAddr + 1) :
    ∃ u t, push8 v s = .ok ((), u) ∧ pop8 u = .ok (v, t) ∧ t.sp = s.sp ∧
      OnlyBytes s t [(s.sp - 1).toNat] ∧ t.byte (s.sp - 1).toNat = v := by
  obtain ⟨u, write, pushed⟩ := push8_inside hs v inside
  have hu := write.plain (withSp_plain hs _)
  have stored := (write.unhooked wrHook).bytes
  have after : ∀ x, x ≠ (s.sp - 1).toNat → u.byte x = withWord s.params.spAddr (s.sp - 1) s.byte x :=
    fun x hx => (stored x).trans ((if_neg hx).trans ((withSp_onlyMem hs _).bytes x))
  have unit : SameUnit s u := (withSp_onlyMem hs _).rest.unit.trans write.keeps.unit
  have spU : u.sp = s.sp - 1 := by
    rw [State.sp, unit.params]
    exact word_of_map (after _ (Ne.symm offLow)) (after _ (Ne.symm offHigh))
  have raised : s.sp - 1 + 1 = s.sp := BitVec.sub_add_cancel _ _
  obtain ⟨v', u', read, popped⟩ := pop8_inside hu (by rw [spU, unit.params]; exact inside)
  obtain ⟨value', same⟩ := read.unhooked (by rw [spU, unit.rdHooks]; exact rdHook)
  have bytes := (withSp_onlyMem hu s.sp).bytes
  rw [unit.params] at bytes
  have value : u.byte (s.sp - 1).toNat = v := (stored _).trans (if_pos rfl)
  rw [value', same, spU, raised, value] at popped
  refine ⟨u, _, pushed, popped, withSp_sp hu s.sp, fun a ha => ?_, ?_⟩
  · have off : a ≠ (s.sp - 1).toNat := by simpa using ha
    rw [bytes, ← withWord_own_sp s a, withWord, withWord, after a off, withWord]
    by_cases low : a = s.params.spAddr
    · simp only [if_pos low]
    · by_cases high : a = s.params.spAddr + 1
      · simp only [if_neg low, if_pos high]
      · simp only [if_neg low, if_neg high]
  · rw [bytes, withWord, if_neg offLow, if_neg offHigh, value]

end Plain

end Sys2Proof.Machine
end

section
/-! The statements on word accesses, status bits and the stack (spec/20_memory.md R65, spec/10_state.md R27,
spec/40_engine_step.md R139, R140). -/

namespace Sys2Proof.Machine

/-- Settles O8: a word access is two byte accesses, and the second is the one that can be out of range. -/
theorem wordAccessRoundTrip : Obligations.WordAccessRoundTrip := by
  intro a v s inv
  refine ⟨fun inside wrLow wrHigh => ?_, fun edge wrLow => ?_, fun edge rdLow => ?_⟩
  · have bytes := memory_get_setWord inv.memWf a v
    refine ⟨_, memWrite16_unhooked inside wrLow wrHigh, onlyMem_setMem bytes, fun rdLow rdHigh => ?_⟩
    have read := memRead16_unhooked (s := { s with mem := (s.mem.set a (lowByte v)).set (a + 1) (highByte v) })
      inside rdLow rdHigh
    rwa [word_of_map (bytes _) (bytes _)] at read
  · exact (act_bind_ok (memWrite_unhooked (by omega) wrLow)).trans (memWrite_outside (Nat.le_of_eq edge.symm))
  · exact (act_bind_ok (memRead_unhooked (by omega) rdLow)).trans
      (act_bind_error (memRead_outside (Nat.le_of_eq edge.symm)))

/-- Settles O9: `SREG` is one byte, of which a flag write replaces one bit. -/
theorem statusBitAccessorsRoundTrip : Obligations.StatusBitAccessorsRoundTrip := by
  intro k b s inv rdHook wrHook
  obtain ⟨-, -, inside, -⟩ := inv.params
  have written (j : BitIx) := readFlag_unhooked
    (s := { s with mem := s.mem.set s.params.sregAddr (withBit s.sreg k b) }) inside rdHook j
  simp only [State.sreg, memory_get_set_same inv.memWf, bitOf_withBit] at written
  refine ⟨readFlag_unhooked inside rdHook k, _, writeFlag_unhooked inside rdHook wrHook k b,
    (written k).trans (by rw [if_pos rfl]), fun j hj => (written j).trans (by rw [if_neg hj]; rfl), fun a ha => ?_,
    rfl, rfl, rfl, rfl, rfl, rfl, ⟨rfl, rfl, rfl, rfl, rfl, rfl⟩⟩
  exact memory_get_set_other inv.memWf _ (by simpa using ha)

/-- Settles O10: the clauses of the push and of the pop, and the pop of a pushed byte. -/
theorem pushAndPopAreInverse : Obligations.PushAndPopAreInverse := by
  intro v s hs
  refine ⟨fun inside => ?_, push8_outside hs v, fun inside => ?_, pop8_outside hs, pop8_after_push8 hs v⟩
  · obtain ⟨u, write, pushed⟩ := push8_inside hs v inside
    exact ⟨_, u, withSp_onlyMem hs _, write, pushed⟩
  · obtain ⟨w, u, read, popped⟩ := pop8_inside hs inside
    have raised := withSp_onlyMem (read.plain hs) (s.sp + 1)
    rw [read.keeps.unit.params] at raised
    exact ⟨w, u, _, read, popped, raised⟩

end Sys2Proof.Machine
end

section
/-! The statement on PUSH and POP (spec/43_ref_data_transfer.md R256, R257). -/

namespace Sys2Proof.Machine

section Plain

variable {s : State} (hs : s.Plain)
include hs

/-- PUSH reads its register before it touches `SP`. -/
theorem exec_push_plain (r : Reg) : exec (.push r) s = runHandler (do push8 (s.reg r); return 2) s :=
  runHandler_bind_ok (readReg_plain hs.inv.params hs.noHooks r)

/-- POP writes its register last. -/
theorem exec_pop_of_readAt {v : Byte} {u : State} (h : ReadAt s s.sp.toNat v u) (d : Reg) :
    exec (.pop d) s = runHandler (do writeReg d v; return 2) (u.withSp (s.sp + 1)) :=
  runHandler_bind_ok (pop8_of_readAt hs h)

end Plain

/-- Settles O50: one push of the register, and one pop followed by a register write. -/
theorem pushAndPopResults : Obligations.PushAndPopResults := by
  intro d
  refine ⟨rowOf_RD 0x920F .push d (by simp [table, tableStore]) rfl,
    rowOf_RD 0x900F .pop d (by simp [table, tableLoad]) rfl, fun s hs => ⟨fun inside => ?_, fun outside => ?_,
      fun inside => ?_, fun outside => runHandler_bind_error (pop8_outside hs outside)⟩⟩
  · obtain ⟨u, write, pushed⟩ := push8_inside hs (s.reg d) inside
    exact ⟨_, u, withSp_onlyMem hs _, write, (exec_push_plain hs d).trans (runHandler_bind_ok pushed)⟩
  · exact (exec_push_plain hs d).trans (runHandler_bind_error (push8_outside hs _ outside))
  · obtain ⟨v, u, read, -⟩ := pop8_inside hs inside
    have hu := read.plain hs
    obtain ⟨t, ht, ran, value, frame⟩ := writeReg_ends (withSp_plain hu (s.sp + 1)) d v 2
    refine ⟨v, u, t, read, (exec_pop_of_readAt hs read d).trans ht, ⟨?_, ran.wait, ran.total, ran.pend, ran.plat,
      ran.halted, (withSp_onlyMem hu _).rest.unit.trans ran.unit⟩, fun a => ?_⟩
    · exact ran.pc.trans read.keeps.pc
    · by_cases h : a = d.val
      · rw [if_pos h, h]
        exact value
      · rw [if_neg h, ← read.keeps.unit.params]
        exact (frame a (by simpa using h)).trans ((withSp_onlyMem hu _).bytes a)

end Sys2Proof.Machine
end

section
/-! SUPPORT. The arbiter, and requests in order (spec/60_exceptions.md R311 to R313, R323). -/

namespace Sys2Proof.Machine

/-- The vector the arbiter gives is pending, and none below it is (R313, R316). -/
theorem lowest_of_firstPending : ∀ {pend : List Bool} {v : Nat}, firstPending pend = some v →
    pend[v]? = some true ∧ ∀ u < v, pend[u]? = some false
  | [], _, h => by cases h
  | true :: _, _, h => by
    cases h
    exact ⟨rfl, fun _ hu => absurd hu (Nat.not_lt_zero _)⟩
  | false :: rest, v, h => by
    obtain ⟨w, hw, rfl⟩ := Option.map_eq_some_iff.mp h
    obtain ⟨pending, lower⟩ := lowest_of_firstPending hw
    refine ⟨pending, fun u hu => ?_⟩
    cases u with
    | zero => rfl
    | succ u => exact lower u (Nat.lt_of_succ_lt_succ hu)

theorem firstPending_eq_none_iff : ∀ {pend : List Bool},
    firstPending pend = none ↔ ∀ v : Nat, pend[v]? ≠ some true
  | [] => by simp [firstPending]
  | true :: rest => by
    simp only [firstPending, reduceCtorEq, false_iff, not_forall, not_not]
    exact ⟨0, rfl⟩
  | false :: rest => by
    rw [firstPending, Option.map_eq_none_iff, firstPending_eq_none_iff]
    refine ⟨fun h v => ?_, fun h v => h (v + 1)⟩
    cases v with
    | zero => simp
    | succ v => exact h v

/-- What one request does to the pending flags. -/
def pendAct (pend : List Bool) : IrqAct → List Bool
  | .raise v => pendRaise pend v
  | .clear v => pendClear pend v

/-- Requests in order: the last is made on what the others left. -/
theorem pendActs_concat (a : IrqAct) : ∀ (acts : List IrqAct) (pend : List Bool),
    pendActs pend (acts ++ [a]) = pendAct (pendActs pend acts) a
  | [], pend => by cases a <;> rfl
  | .raise v :: acts, pend => pendActs_concat a acts (pendRaise pend v)
  | .clear v :: acts, pend => pendActs_concat a acts (pendClear pend v)

/-- The value a request gives its vector. -/
def requested : IrqAct → Bool
  | .raise _ => true
  | .clear _ => false

/-- The request names the vector. -/
abbrev Names (v : Nat) (a : IrqAct) : Prop := a = .raise v ∨ a = .clear v

theorem pendAct_getElem? {pend : List Bool} {v : Nat} (inside : v < pend.length) (a : IrqAct) :
    (pendAct pend a)[v]? = if Names v a then some (requested a) else pend[v]? := by
  cases a with
  | raise w => by_cases h : w = v <;> simp [pendAct, pendRaise, requested, Names, h, inside]
  | clear w => by_cases h : w = v <;> simp [pendAct, pendClear, requested, Names, h, inside]

/-- A vector in range has the value of the last request that names it, or else its old value. -/
theorem pendActs_getElem? {pend : List Bool} {v : Nat} (inside : v < pend.length) (acts : List IrqAct) :
    (pendActs pend acts)[v]? = ((acts.filter (Names v ·)).getLast?.map requested).or pend[v]? := by
  induction acts using List.reverseRecOn with
  | nil => rfl
  | append_singleton acts a ih =>
    rw [pendActs_concat, pendAct_getElem? (by rwa [pendActs_length]), ih, List.filter_append]
    by_cases named : Names v a <;> simp [named]

end Sys2Proof.Machine
end

section
/-! The statements on the interrupt controller (spec/60_exceptions.md R311 to R313, R323). -/

namespace Sys2Proof.Machine

/-- Settles O11: both directions by induction along the pending flags. -/
theorem firstPendingIsTheLowestPendingVector : Obligations.FirstPendingIsTheLowestPendingVector :=
  fun _ => ⟨fun _ => ⟨lowest_of_firstPending, fun h => firstPending_of_lowest h.1 h.2⟩, firstPending_eq_none_iff⟩

/-- Settles O12: by induction from the last request, which decides. -/
theorem requestsTakeEffectInOrder : Obligations.RequestsTakeEffectInOrder := by
  refine ⟨fun pend acts v => ⟨pendActs_length acts pend, ?_⟩, fun v s => ⟨rfl, rfl⟩⟩
  split
  · rename_i inside
    rw [pendActs_getElem? inside]
    rcases (acts.filter (Names v ·)).getLast? with _ | ⟨w⟩ | ⟨w⟩ <;> rfl
  · rename_i outside
    exact List.getElem?_eq_none (by rw [pendActs_length]; omega)

end Sys2Proof.Machine
end

section
/-! SUPPORT. The execute step of what stands at `pc` (spec/40_engine_step.md R134, R142): an instruction of
one or two words, or nothing. -/

namespace Sys2Proof.Machine

/-- A word of a row that is not of one word is fetched with the word after it (R105, R142). -/
theorem fetchInstr_twoWord {s : State} {op w2 : Word} {row : Row} (ho : progWord s s.pc = some op)
    (h2 : progWord s (s.pc + 1) = some w2) (hl : lookup op = some row) (hw : row.words ≠ 1) :
    fetchInstr s = .ok (row.build op w2, s.pc + 2) := by
  have code : codeAt s = [op, w2] := by simp only [codeAt, ho, h2]
  simp only [fetchInstr, code, decodeWords, hl, hw, if_false]
  rfl

/-- The fetch of an instruction whose words stand at `pc`. -/
theorem fetchInstr_of_words {s : State} {ws : List Word} {i : Instr} (decoded : decodeWords ws = .ok (i, []))
    (words : ∀ k < ws.length, progWord s (s.pc + BitVec.ofNat 16 k) = ws[k]?) :
    fetchInstr s = .ok (i, s.pc + BitVec.ofNat 16 ws.length) := by
  obtain ⟨op, row, found, ⟨one, rfl, rfl⟩ | ⟨two, w2, rfl, rfl⟩⟩ := decodeWords_eq_ok decoded
  · have first : progWord s s.pc = some op := by simpa using words 0 (by simp)
    exact fetchInstr_oneWord first found one
  · have first : progWord s s.pc = some op := by simpa using words 0 (by simp)
    have second : progWord s (s.pc + 1) = some w2 := words 1 (by simp)
    exact fetchInstr_twoWord first second found two

/-- An opcode of two words at the end of the image. -/
theorem fetchInstr_secondWordMissing {s : State} {op : Word} (ho : progWord s s.pc = some op)
    (two : isTwoWord op = true) (h2 : progWord s (s.pc + 1) = none) :
    fetchInstr s = .error (.addressRange .program (s.pc + 1).toNat) := by
  have code : codeAt s = [op] := by simp only [codeAt, ho, h2]
  simp only [fetchInstr, code, decodeWords_isTwoWord_alone two]

theorem progWord_outside {s : State} {i : Word} (h : s.prog.length ≤ i.toNat) : progWord s i = none :=
  List.getElem?_eq_none h

/-- The execute step of an instruction whose words stand at `pc` and whose opcode the table leaves to
`REF_ITABLE`. -/
theorem executeStep_of_words {s : State} {ws : List Word} {i : Instr} (decoded : decodeWords ws = .ok (i, []))
    (words : ∀ k < ws.length, progWord s (s.pc + BitVec.ofNat 16 k) = ws[k]?)
    (entry : ∀ op, ws.head? = some op → s.itable.entry op = .reference) :
    executeStep s = exec i { s with pc := s.pc + BitVec.ofNat 16 ws.length } := by
  match ws with
  | [] => cases decoded
  | op :: more =>
    have first : progWord s s.pc = some op := by simpa using words 0 (by simp)
    rw [executeStep_reference first (entry op rfl), executeReference, fetchInstr_of_words decoded words]

/-- An outcome with its next state, if it has one, changed. -/
def mapNext (g : State → State) : Host.Outcome State Fault Refusal → Host.Outcome State Fault Refusal
  | .next t => .next (g t)
  | .fault f => .fault f
  | .refused r => .refused r

/-- A tick is the core's step between those of the peripherals (R330). -/
theorem step_eq (s : State) : step s =
    mapNext (stepPeripherals s.clock.after) (coreStep (stepPeripherals s.clock.before s)) := by
  unfold step advance
  cases coreStep (stepPeripherals s.clock.before s) <;> rfl

/-- For the bare engine a tick is the core's step (R330). -/
theorem step_of_bare_clock {s : State} (bare : s.clock = { before := [], after := [] }) :
    step s = coreStep s := by
  rw [step_eq, bare]
  show mapNext id (coreStep s) = coreStep s
  cases coreStep s <;> rfl

theorem stepPeripherals_eq_foldl : ∀ (l : List Behaviour) (s : State),
    stepPeripherals l s = l.foldl (fun u b => stepPeripheral b u) s
  | [], _ => rfl
  | b :: rest, s => stepPeripherals_eq_foldl rest (stepPeripheral b s)

/-- A halted unit has no step, whatever its peripherals would do (R34, R130). -/
theorem advance_of_halted {s : State} {f : Fault} (h : s.halted = some f) : advance s = .refused (.halted f) := by
  have still : (stepPeripherals s.clock.before s).halted = some f :=
    (stepPeripherals_evolves s.clock.before s).halted.trans h
  exact (step_eq s).trans (by simp only [coreStep, still, mapNext])

end Sys2Proof.Machine
end

section
/-! The statements on the step and the tick (spec/40_engine_step.md, spec/60_exceptions.md R304, R330). -/

namespace Sys2Proof.Machine

/-- Settles O14: by induction on the number of steps, each of which is a wait step. -/
theorem waitRunsDown : Obligations.WaitRunsDown := by
  intro k
  induction k with
  | zero => intro s _ _ _; rfl
  | succ k ih =>
    intro s bare running enough
    have first : step s = .next (bookkeep s) :=
      (step_of_bare_clock bare).trans (coreStep_of_wait_ne_zero running (by omega))
    have rest := ih (bookkeep s) bare running (by rw [bookkeep_wait]; omega)
    rw [bookkeep_wait, bookkeep_total, Nat.sub_sub, Nat.add_comm 1 k, Nat.add_assoc, Nat.add_comm 1 k] at rest
    calc Sys2Proof.core.run (k + 1) s = Sys2Proof.core.run k (bookkeep s) := by
          simp only [Host.Core.run]
          rw [show Sys2Proof.core.step s = .next (bookkeep s) from first]
      _ = _ := rest

/-- Settles O16: the check is one read of `SREG`, and then the arbiter. -/
theorem interruptsNeedTheEnableAndAPendingVector : Obligations.InterruptsNeedTheEnableAndAPendingVector :=
  fun _ hs running ready => ⟨fun clear => (Executes.mk running ready hs (.inl clear)).coreStep_eq,
    fun quiet => (Executes.mk running ready hs (.inr quiet)).coreStep_eq,
    fun _ enabled lowest => coreStep_of_interrupt hs running ready enabled lowest⟩

/-- Settles O17: the words at `pc` are the ones fetched, and `exec` of what they decode to is the step. -/
theorem stepRunsTheDecodedInstruction : Obligations.StepRunsTheDecodedInstruction := by
  intro s i ws c executes decoded words entry
  have core : coreStep c = finishStep (exec i { c with pc := c.pc + BitVec.ofNat 16 ws.length }) := by
    rw [executes.coreStep_eq, executeStep_of_words decoded words entry]
  rw [(step_eq s).trans (congrArg (mapNext _) core)]
  cases exec i { c with pc := c.pc + BitVec.ofNat 16 ws.length } <;> rfl

/-- Settles O20: the opcode is missing, or its second word is. -/
theorem fetchOutsideTheImageFaults : Obligations.FetchOutsideTheImageFaults := by
  intro s executes
  rw [executes.coreStep_eq]
  refine ⟨fun outside => ?_, fun op first two entry outside => ?_⟩
  · rw [executeStep_outside (progWord_outside outside)]
    rfl
  · rw [executeStep_reference first entry, executeReference,
      fetchInstr_secondWordMissing first two (progWord_outside outside)]
    rfl

/-- Settles O21: the latch is set over the state before the tick, and a latched unit has no step. -/
theorem faultsAreLatched : Obligations.FaultsAreLatched := by
  intro s f faulted t
  have latched : t = latchFault f s := by
    simp only [t, hostAdvance, show advance s = .fault f from faulted]
  have halted : t.halted = some f := by rw [latched]; rfl
  have unit : SameUnit s t := latched ▸ ⟨rfl, rfl, rfl, rfl, rfl, rfl⟩
  refine ⟨halted, by rw [latched]; rfl, by rw [latched]; rfl, unit, ?_, ?_⟩
  · simp only [coreStep, halted]
  · simp only [hostAdvance, advance_of_halted halted]

/-- Settles O28: the order is that of the two lists of the clock, with the core between them. -/
theorem tickStepsEveryComponentOnce : Obligations.TickStepsEveryComponentOnce := by
  refine ⟨stepPeripherals_eq_foldl, fun s => ?_, fun b s => ⟨_, _, _, rfl⟩⟩
  rw [step_eq]
  cases coreStep (stepPeripherals s.clock.before s) <;> rfl

end Sys2Proof.Machine
end

section
/-! SUPPORT. Properties of a handler's course (spec/40_engine_step.md R137): what every access has and
sequencing keeps, every handler has, be it one of `REF_ITABLE` or of a table of its own. -/

namespace Sys2Proof.Machine

/-- The rows whose entry is "no instruction" (R111). -/
def refusedRow : Instr → Bool
  | .sleep | .brk | .spm => true
  | _ => false

theorem eq_of_refusedRow {i : Instr} (h : refusedRow i = true) : i = .sleep ∨ i = .brk ∨ i = .spm := by
  cases i <;> simp [refusedRow] at h ⊢

/-- A property of parts of a step that the accesses R137 allows a handler have and that sequencing keeps;
`ofParams` is for the locations that the unit's parameters place. -/
structure AccessProperty where
  Holds : ∀ {α : Type}, Act α → Prop
  pure : ∀ {α : Type} (a : α), Holds (pure a : Act α)
  bind : ∀ {α β : Type} {m : Act α} {f : α → Act β}, Holds m → (∀ a, Holds (f a)) → Holds (m >>= f)
  memRead : ∀ a, Holds (memRead a)
  memWrite : ∀ a v, Holds (memWrite a v)
  fetch : ∀ i, Holds (fetch i)
  getPc : Holds getPc
  setPc : ∀ t, Holds (setPc t)
  ofParams : ∀ {α : Type} (f : Params → Act α), (∀ p, Holds (f p)) → Holds fun s => f s.params s

namespace AccessProperty

variable (P : AccessProperty)

/-! ## The named operations -/

theorem holds_memRead16 (a : Nat) : P.Holds (memRead16 a) :=
  P.bind (P.memRead _) fun _ => P.bind (P.memRead _) fun _ => P.pure _

theorem holds_memWrite16 (a : Nat) (v : Word) : P.Holds (memWrite16 a v) :=
  P.bind (P.memWrite _ _) fun _ => P.memWrite _ _

theorem holds_programByte (z : Word) : P.Holds (programByte z) := P.bind (P.fetch _) fun _ => P.pure _

theorem holds_jumpBy (o : Word) : P.Holds (jumpBy o) := P.bind P.getPc fun p => P.setPc (p + o)

theorem holds_readReg (r : Reg) : P.Holds (readReg r) := P.memRead _

theorem holds_writeReg (r : Reg) (v : Byte) : P.Holds (writeReg r v) := P.memWrite _ _

theorem holds_readPair (r : Reg) : P.Holds (readPair r) := P.holds_memRead16 _

theorem holds_writePair (r : Reg) (v : Word) : P.Holds (writePair r v) := P.holds_memWrite16 _ _

theorem holds_readPointer (q : Pointer) : P.Holds (readPointer q) :=
  P.ofParams (fun p => memRead16 (pointerAddr p q)) fun _ => P.holds_memRead16 _

theorem holds_writePointer (q : Pointer) (v : Word) : P.Holds (writePointer q v) :=
  P.ofParams (fun p => memWrite16 (pointerAddr p q) v) fun _ => P.holds_memWrite16 _ _

theorem holds_readSreg : P.Holds readSreg :=
  P.ofParams (fun p => Machine.memRead p.sregAddr) fun _ => P.memRead _

theorem holds_writeSreg (v : Byte) : P.Holds (writeSreg v) :=
  P.ofParams (fun p => Machine.memWrite p.sregAddr v) fun _ => P.memWrite _ _

theorem holds_readFlag (k : BitIx) : P.Holds (readFlag k) := P.bind P.holds_readSreg fun _ => P.pure _

theorem holds_writeFlag (k : BitIx) (b : Bool) : P.Holds (writeFlag k b) :=
  P.bind P.holds_readSreg fun _ => P.holds_writeSreg _

theorem holds_updateFlags (ws : FlagWrites) : P.Holds (updateFlags ws) :=
  P.bind P.holds_readSreg fun _ => P.holds_writeSreg _

theorem holds_readIo (a : Nat) : P.Holds (readIo a) :=
  P.ofParams (fun p => Machine.memRead (ioAddr p a)) fun _ => P.memRead _

theorem holds_writeIo (a : Nat) (v : Byte) : P.Holds (writeIo a v) :=
  P.ofParams (fun p => Machine.memWrite (ioAddr p a) v) fun _ => P.memWrite _ _

theorem holds_readSp : P.Holds readSp :=
  P.ofParams (fun p => memRead16 p.spAddr) fun _ => P.holds_memRead16 _

theorem holds_writeSp (v : Word) : P.Holds (writeSp v) :=
  P.ofParams (fun p => memWrite16 p.spAddr v) fun _ => P.holds_memWrite16 _ _

theorem holds_push8 (v : Byte) : P.Holds (push8 v) :=
  P.bind P.holds_readSp fun _ => P.bind (P.holds_writeSp _) fun _ => P.memWrite _ _

theorem holds_pop8 : P.Holds pop8 :=
  P.bind P.holds_readSp fun _ => P.bind (P.memRead _) fun _ => P.bind (P.holds_writeSp _) fun _ => P.pure _

theorem holds_pushPc (p : Word) : P.Holds (pushPc p) := P.bind (P.holds_push8 _) fun _ => P.holds_push8 _

theorem holds_popPc : P.Holds popPc :=
  P.bind P.holds_pop8 fun _ => P.bind P.holds_pop8 fun _ => P.pure _

theorem holds_returnFromInterrupt : P.Holds returnFromInterrupt :=
  P.bind P.holds_popPc fun _ => P.bind (P.setPc _) fun _ => P.holds_writeFlag _ _

theorem holds_skipIf (c : Bool) : P.Holds (skipIf c) := by
  cases c with
  | false => exact P.pure 1
  | true =>
    refine P.bind P.getPc fun p => P.bind (P.fetch p) fun n => ?_
    cases isTwoWord n with
    | false => exact P.bind (P.setPc _) fun _ => P.pure _
    | true => exact P.bind (P.setPc _) fun _ => P.pure _

theorem holds_branchIf (c : Bool) (k : BitVec 7) : P.Holds (branchIf c k) := by
  cases c with
  | false => exact P.pure 1
  | true => exact P.bind (P.holds_jumpBy _) fun _ => P.pure _

theorem holds_sbcWith (d : Reg) (a b : Byte) : P.Holds (sbcWith d a b) :=
  P.bind P.holds_readSreg fun _ => P.bind (P.holds_writeReg _ _) fun _ =>
    P.bind (P.holds_writeSreg _) fun _ => P.pure _

/-! ## The operand forms -/

theorem holds_aluRR (d r : Reg) (f : Byte → Byte → Byte) (fl : Byte → Byte → Byte → FlagWrites) :
    P.Holds (aluRR d r f fl) :=
  P.bind (P.holds_readReg _) fun _ => P.bind (P.holds_readReg _) fun _ => P.bind (P.holds_writeReg _ _) fun _ =>
    P.bind (P.holds_updateFlags _) fun _ => P.pure _

theorem holds_aluRI (d : Reg) (k : Byte) (f : Byte → Byte → Byte) (fl : Byte → Byte → Byte → FlagWrites) :
    P.Holds (aluRI d k f fl) :=
  P.bind (P.holds_readReg _) fun _ => P.bind (P.holds_writeReg _ _) fun _ =>
    P.bind (P.holds_updateFlags _) fun _ => P.pure _

theorem holds_aluD (d : Reg) (f : Byte → Byte) (fl : Byte → Byte → FlagWrites) : P.Holds (aluD d f fl) :=
  P.bind (P.holds_readReg _) fun _ => P.bind (P.holds_writeReg _ _) fun _ =>
    P.bind (P.holds_updateFlags _) fun _ => P.pure _

theorem holds_aluPair (d : Reg) (k : BitVec 6) (f : Word → Word → Word) (fl : Word → Word → FlagWrites) :
    P.Holds (aluPair d k f fl) :=
  P.bind (P.holds_readPair _) fun _ => P.bind (P.holds_writePair _ _) fun _ =>
    P.bind (P.holds_updateFlags _) fun _ => P.pure _

theorem holds_multiply (d r : Reg) (product : Byte → Byte → Word) (shift : Nat) :
    P.Holds (multiply d r product shift) :=
  P.bind (P.holds_readReg _) fun _ => P.bind (P.holds_readReg _) fun _ => P.bind (P.holds_writePair _ _) fun _ =>
    P.bind (P.holds_updateFlags _) fun _ => P.pure _

theorem holds_loadIndirect (d : Reg) (p : Pointer) : P.Holds (loadIndirect d p) :=
  P.bind (P.holds_readPointer _) fun _ => P.bind (P.memRead _) fun _ =>
    P.bind (P.holds_writeReg _ _) fun _ => P.pure _

theorem holds_loadPostInc (d : Reg) (p : Pointer) : P.Holds (loadPostInc d p) :=
  P.bind (P.holds_readPointer _) fun _ => P.bind (P.memRead _) fun _ => P.bind (P.holds_writeReg _ _) fun _ =>
    P.bind (P.holds_writePointer _ _) fun _ => P.pure _

theorem holds_loadPreDec (d : Reg) (p : Pointer) : P.Holds (loadPreDec d p) :=
  P.bind (P.holds_readPointer _) fun _ => P.bind (P.holds_writePointer _ _) fun _ =>
    P.bind (P.memRead _) fun _ => P.bind (P.holds_writeReg _ _) fun _ => P.pure _

theorem holds_loadDisp (d : Reg) (p : Pointer) (q : BitVec 6) : P.Holds (loadDisp d p q) :=
  P.bind (P.holds_readPointer _) fun _ => P.bind (P.memRead _) fun _ =>
    P.bind (P.holds_writeReg _ _) fun _ => P.pure _

theorem holds_storeIndirect (p : Pointer) (r : Reg) : P.Holds (storeIndirect p r) :=
  P.bind (P.holds_readPointer _) fun _ => P.bind (P.holds_readReg _) fun _ =>
    P.bind (P.memWrite _ _) fun _ => P.pure _

theorem holds_storePostInc (p : Pointer) (r : Reg) : P.Holds (storePostInc p r) :=
  P.bind (P.holds_readPointer _) fun _ => P.bind (P.holds_readReg _) fun _ => P.bind (P.memWrite _ _) fun _ =>
    P.bind (P.holds_writePointer _ _) fun _ => P.pure _

theorem holds_storePreDec (p : Pointer) (r : Reg) : P.Holds (storePreDec p r) :=
  P.bind (P.holds_readPointer _) fun _ => P.bind (P.holds_writePointer _ _) fun _ =>
    P.bind (P.holds_readReg _) fun _ => P.bind (P.memWrite _ _) fun _ => P.pure _

theorem holds_storeDisp (p : Pointer) (q : BitVec 6) (r : Reg) : P.Holds (storeDisp p q r) :=
  P.bind (P.holds_readPointer _) fun _ => P.bind (P.holds_readReg _) fun _ =>
    P.bind (P.memWrite _ _) fun _ => P.pure _

theorem holds_loadProgram (d : Reg) : P.Holds (loadProgram d) :=
  P.bind (P.holds_readPointer _) fun _ => P.bind (P.holds_programByte _) fun _ =>
    P.bind (P.holds_writeReg _ _) fun _ => P.pure _

theorem holds_loadProgramPostInc (d : Reg) : P.Holds (loadProgramPostInc d) :=
  P.bind (P.holds_readPointer _) fun _ => P.bind (P.holds_programByte _) fun _ =>
    P.bind (P.holds_writeReg _ _) fun _ => P.bind (P.holds_writePointer _ _) fun _ => P.pure _

/-! ## The handlers -/

/-- The instruction's handler has the property. -/
def HandlerHolds (i : Instr) : Prop := ∃ h : Act Nat, (∀ s, exec i s = runHandler h s) ∧ P.Holds h

/-- Every handler of `REF_ITABLE` is a sequence of the named operations and operand forms. -/
theorem handlerHolds {i : Instr} (hi : refusedRow i = false) : P.HandlerHolds i := by
  cases i with
  | sleep | brk | spm => cases hi
  | nop | wdr => exact ⟨Pure.pure 1, fun _ => rfl, P.pure 1⟩
  | rjmp k =>
    exact ⟨do jumpBy (k.signExtend 16); return 2, fun _ => rfl, P.bind (P.holds_jumpBy _) fun _ => P.pure _⟩
  | jmp k => exact ⟨do Machine.setPc (targetOf k); return 3, fun _ => rfl, P.bind (P.setPc _) fun _ => P.pure _⟩
  | _ =>
    refine ⟨_, fun _ => rfl, ?_⟩
    repeat' with_reducible refine P.bind ?_ fun _ => ?_
    all_goals simp only [P.pure, P.memRead, P.memWrite, P.getPc, P.setPc, P.holds_jumpBy, P.holds_readReg,
      P.holds_writeReg, P.holds_readPair, P.holds_writePair, P.holds_readPointer, P.holds_readSreg,
      P.holds_writeSreg, P.holds_readFlag, P.holds_writeFlag, P.holds_updateFlags, P.holds_readIo, P.holds_writeIo,
      P.holds_push8, P.holds_pop8, P.holds_pushPc, P.holds_popPc, P.holds_returnFromInterrupt, P.holds_skipIf,
      P.holds_branchIf, P.holds_sbcWith, P.holds_aluRR, P.holds_aluRI, P.holds_aluD, P.holds_aluPair,
      P.holds_multiply, P.holds_loadIndirect, P.holds_loadPostInc, P.holds_loadPreDec, P.holds_loadDisp,
      P.holds_storeIndirect, P.holds_storePostInc, P.holds_storePreDec, P.holds_storeDisp, P.holds_loadProgram,
      P.holds_loadProgramPostInc]

/-- So is every handler of a table of its own. -/
theorem holds_runProg : ∀ p : HandlerProg, P.Holds (runProg p)
  | .done k => P.pure k
  | .memRead a next => P.bind (P.memRead a) fun v => holds_runProg (next v)
  | .memWrite a v next => P.bind (P.memWrite a v) fun _ => holds_runProg next
  | .fetch i next => P.bind (P.fetch i) fun w => holds_runProg (next w)
  | .readPc next => P.bind P.getPc fun p => holds_runProg (next p)
  | .writePc t next => P.bind (P.setPc t) fun _ => holds_runProg next

end AccessProperty

/-! ## The refused rows -/

theorem exec_sleep (s : State) : exec .sleep s = .fault (.decode 0x9588 (s.pc - 1)) := rfl

theorem exec_brk (s : State) : exec .brk s = .fault (.decode 0x9598 (s.pc - 1)) := rfl

theorem exec_spm (s : State) : exec .spm s = .fault (.decode 0x95E8 (s.pc - 1)) := rfl

end Sys2Proof.Machine
end

section
/-! SUPPORT. The faults of a handler (spec/40_engine_step.md R137, R303): accesses outside a space. -/

namespace Sys2Proof.Machine

/-- The fault of an access at an address outside its space. -/
def Outside (s : State) (f : Fault) : Prop :=
  (∃ a, f = .addressRange .data a ∧ s.params.dataSize ≤ a) ∨
    (∃ a, f = .addressRange .program a ∧ s.prog.length ≤ a)

/-- The sizes of the spaces are configuration. -/
theorem SameUnit.outside {s t : State} (h : SameUnit s t) {f : Fault} (out : Outside t f) : Outside s f := by
  rwa [Outside, h.params, h.prog] at out

/-- A part of a step that keeps the configuration and faults at addresses outside a space only. -/
structure FaultsOutside {α : Type} (m : Act α) : Prop where
  keeps : Keeps SameUnit m
  faults : ∀ s f, m s = .error f → Outside s f

theorem faultsOutside_of_evolves {α : Type} {m : Act α} (keeps : Keeps Evolves m)
    (faults : ∀ s f, m s = .error f → Outside s f) : FaultsOutside m :=
  ⟨fun s a t h => (keeps s a t h).unit, faults⟩

theorem memRead_fault {a : Nat} {s : State} {f : Fault} (h : memRead a s = .error f) : Outside s f := by
  by_cases inside : a < s.params.dataSize
  · obtain ⟨v, u, read⟩ := memRead_readAt inside
    rw [read.access] at h
    cases h
  · rw [memRead_outside (Nat.not_lt.mp inside)] at h
    cases h
    exact .inl ⟨a, rfl, Nat.not_lt.mp inside⟩

theorem memWrite_fault {a : Nat} {v : Byte} {s : State} {f : Fault} (h : memWrite a v s = .error f) :
    Outside s f := by
  by_cases inside : a < s.params.dataSize
  · cases hook : hookAt s.wrHooks a with
    | none =>
      rw [memWrite_unhooked inside hook] at h
      cases h
    | some b =>
      rw [memWrite_hooked inside hook] at h
      cases h
  · rw [memWrite_outside (Nat.not_lt.mp inside)] at h
    cases h
    exact .inl ⟨a, rfl, Nat.not_lt.mp inside⟩

theorem fetch_fault {i : Word} {s : State} {f : Fault} (h : fetch i s = .error f) : Outside s f := by
  cases found : progWord s i with
  | some w =>
    rw [fetch_inside found] at h
    cases h
  | none =>
    rw [fetch_outside found] at h
    cases h
    exact .inr ⟨i.toNat, rfl, List.getElem?_eq_none_iff.mp found⟩

theorem FaultsOutside.bind {α β : Type} {m : Act α} {f : α → Act β} (hm : FaultsOutside m)
    (hf : ∀ a, FaultsOutside (f a)) : FaultsOutside (m >>= f) where
  keeps s b u h := by
    obtain ⟨a, t, first, second⟩ := act_bind_eq_ok h
    exact (hm.keeps s a t first).trans ((hf a).keeps t b u second)
  faults s e h := by
    rw [act_bind] at h
    cases first : m s with
    | error e' =>
      rw [first] at h
      cases h
      exact hm.faults s e first
    | ok p =>
      obtain ⟨a, t⟩ := p
      rw [first] at h
      exact (hm.keeps s a t first).outside ((hf a).faults t e h)

/-- To fault only outside a space is a property of accesses. -/
def faultsOutside : AccessProperty where
  Holds := FaultsOutside
  pure a := faultsOutside_of_evolves (keeps_pure evolves_pcLike.toMemoryLike a) fun _ _ h => by cases h
  bind := FaultsOutside.bind
  memRead a := faultsOutside_of_evolves (keeps_memRead evolves_pcLike.toMemoryLike a) fun _ _ => memRead_fault
  memWrite a v := faultsOutside_of_evolves (keeps_memWrite evolves_pcLike.toMemoryLike a v)
    fun _ _ => memWrite_fault
  fetch i := faultsOutside_of_evolves (keeps_fetch evolves_pcLike.toMemoryLike i) fun _ _ => fetch_fault
  getPc := faultsOutside_of_evolves (keeps_getPc evolves_pcLike.toMemoryLike) fun _ _ h => by cases h
  setPc t := faultsOutside_of_evolves (keeps_setPc evolves_pcLike t) fun _ _ h => by cases h
  ofParams f hf := ⟨fun s => (hf s.params).keeps s, fun s => (hf s.params).faults s⟩

theorem runHandler_ne_refused (h : Act Nat) (s : State) (r : Refusal) : runHandler h s ≠ .refused r := by
  unfold runHandler
  cases h s <;> simp

theorem runHandler_eq_fault {h : Act Nat} {s : State} {f : Fault} (e : runHandler h s = .fault f) :
    h s = .error f := by
  unfold runHandler at e
  split at e <;> cases e
  assumption

end Sys2Proof.Machine
end

section
/-! SUPPORT. What no access sees: `total` and the instruction table (spec/10_state.md R29, R137). -/

namespace Sys2Proof.Machine

/-- The state with `total` and the instruction table changed. -/
def State.rebook (f : Nat → Nat) (g : ITable → ITable) (s : State) : State :=
  { s with total := f s.total, itable := g s.itable }

variable (f : Nat → Nat) (g : ITable → ITable)

/-- An answer with the state in it rebooked. -/
def rebookAnswer {α : Type} : Except Fault (α × State) → Except Fault (α × State)
  | .ok (a, t) => .ok (a, t.rebook f g)
  | .error e => .error e

/-- A part of a step that neither sees nor touches `total` and the table. -/
def Blind {α : Type} (m : Act α) : Prop := ∀ s, m (s.rebook f g) = rebookAnswer f g (m s)

theorem memRead_blind (a : Nat) : Blind f g (memRead a) := by
  intro s
  by_cases inside : a < s.params.dataSize
  · cases hook : hookAt s.rdHooks a with
    | none =>
      rw [memRead_unhooked inside hook]
      exact memRead_unhooked (s := s.rebook f g) inside hook
    | some h =>
      rw [memRead_hooked inside hook]
      exact memRead_hooked (s := s.rebook f g) inside hook
  · rw [memRead_outside (Nat.not_lt.mp inside)]
    exact memRead_outside (s := s.rebook f g) (Nat.not_lt.mp inside)

theorem memWrite_blind (a : Nat) (v : Byte) : Blind f g (memWrite a v) := by
  intro s
  by_cases inside : a < s.params.dataSize
  · cases hook : hookAt s.wrHooks a with
    | none =>
      rw [memWrite_unhooked inside hook]
      exact memWrite_unhooked (s := s.rebook f g) inside hook
    | some h =>
      rw [memWrite_hooked inside hook]
      exact memWrite_hooked (s := s.rebook f g) inside hook
  · rw [memWrite_outside (Nat.not_lt.mp inside)]
    exact memWrite_outside (s := s.rebook f g) (Nat.not_lt.mp inside)

theorem fetch_blind (i : Word) : Blind f g (fetch i) := by
  intro s
  cases found : progWord s i with
  | some w =>
    rw [fetch_inside found]
    exact fetch_inside (s := s.rebook f g) found
  | none =>
    rw [fetch_outside found]
    exact fetch_outside (s := s.rebook f g) found

theorem Blind.bind {α β : Type} {m : Act α} {k : α → Act β} (hm : Blind f g m) (hk : ∀ a, Blind f g (k a)) :
    Blind f g (m >>= k) := by
  intro s
  rw [act_bind, act_bind, hm s]
  cases m s with
  | error e => rfl
  | ok p => exact hk p.1 p.2

/-- Not to see `total` and the table is a property of accesses. -/
def blind : AccessProperty where
  Holds := Blind f g
  pure _ _ := rfl
  bind := Blind.bind f g
  memRead := memRead_blind f g
  memWrite := memWrite_blind f g
  fetch := fetch_blind f g
  getPc _ := rfl
  setPc _ _ := rfl
  ofParams _ hk s := hk s.params s

theorem runHandler_blind {h : Act Nat} (hh : Blind f g h) (s : State) :
    runHandler h (s.rebook f g) = mapNext (State.rebook f g) (runHandler h s) := by
  simp only [runHandler, hh s]
  cases h s <;> rfl

theorem exec_blind (i : Instr) (s : State) :
    exec i (s.rebook f g) = mapNext (State.rebook f g) (exec i s) := by
  cases hi : refusedRow i with
  | false =>
    obtain ⟨h, runs, hh⟩ := (blind f g).handlerHolds hi
    rw [runs, runs, runHandler_blind f g hh]
  | true => obtain rfl | rfl | rfl := eq_of_refusedRow hi <;> rfl

/-! ## The core's step without its count -/

theorem takeInterrupt_blind (v : Nat) : Blind f g (takeInterrupt v) :=
  Blind.bind f g (blind f g).getPc fun _ => Blind.bind f g ((blind f g).holds_pushPc _) fun _ =>
    Blind.bind f g ((blind f g).setPc _) fun _ => Blind.bind f g (fun _ => rfl) fun _ =>
      Blind.bind f g ((blind f g).holds_writeFlag _ _) fun _ _ => rfl

theorem interruptCheck_blind : Blind f g interruptCheck := by
  refine Blind.bind f g ((blind f g).holds_readFlag _) fun enabled => ?_
  cases enabled with
  | false => exact (blind f g).pure _
  | true => exact fun _ => rfl

theorem interruptStep_blind (v : Nat) (s : State) :
    interruptStep v (s.rebook f g) = mapNext (State.rebook f g) (interruptStep v s) := by
  simp only [interruptStep, takeInterrupt_blind f g v s]
  cases takeInterrupt v s <;> rfl

theorem executeReference_blind (s : State) :
    executeReference (s.rebook f g) = mapNext (State.rebook f g) (executeReference s) := by
  simp only [executeReference, show fetchInstr (s.rebook f g) = fetchInstr s from rfl]
  cases fetchInstr s with
  | error e => rfl
  | ok p => exact exec_blind f g p.1 { s with pc := p.2 }

/-- The execute step does not see `total`; the table it does see. -/
theorem executeStep_blind (s : State) :
    executeStep (s.rebook f id) = mapNext (State.rebook f id) (executeStep s) := by
  cases ho : progWord s s.pc with
  | none =>
    rw [executeStep_outside ho]
    exact executeStep_outside (s := s.rebook f id) ho
  | some op =>
    cases he : s.itable.entry op with
    | reference =>
      rw [executeStep_reference ho he, ← executeReference_blind]
      exact executeStep_reference (s := s.rebook f id) ho he
    | own own =>
      cases hp : ownProg own op with
      | none =>
        rw [executeStep_noInstruction ho he hp]
        exact executeStep_noInstruction (s := s.rebook f id) ho he hp
      | some p =>
        rw [executeStep_own ho he hp, ← runHandler_blind f id ((blind f id).holds_runProg p)]
        exact executeStep_own (s := s.rebook f id) ho he hp

theorem activeStep_blind (s : State) :
    activeStep (s.rebook f id) = mapNext (State.rebook f id) (activeStep s) := by
  simp only [activeStep, interruptCheck_blind f id s]
  cases interruptCheck s with
  | error e => rfl
  | ok p =>
    obtain ⟨taken, t⟩ := p
    cases taken with
    | none => exact executeStep_blind f t
    | some v => exact interruptStep_blind f id v t

theorem stepPeripherals_rebook : ∀ (l : List Behaviour) (s : State),
    stepPeripherals l (s.rebook f g) = (stepPeripherals l s).rebook f g
  | [], _ => rfl
  | b :: rest, s => stepPeripherals_rebook rest (stepPeripheral b s)

/-- A core step entered with another `total` is the same step, and leaves that `total` plus one (R135). -/
theorem coreStep_rebook (n : Nat) (s : State) :
    coreStep (s.rebook (fun _ => n) id) = mapNext (State.rebook (fun _ => n + 1) id) (coreStep s) := by
  cases halted : s.halted with
  | some e => simp only [coreStep, State.rebook, halted, mapNext]
  | none =>
    by_cases waiting : s.wait = 0
    · have active : ∀ u : State, u.halted = none → u.wait = 0 → coreStep u = finishStep (activeStep u) :=
        fun u running ready => by simp only [coreStep, running, ready, ne_eq, not_true, if_false]
      rw [active s halted waiting, active (s.rebook _ id) halted waiting, activeStep_blind]
      cases activeStep s <;> rfl
    · rw [coreStep_of_wait_ne_zero halted waiting]
      exact coreStep_of_wait_ne_zero (s := s.rebook _ id) halted waiting

/-- A tick entered with another `total`, likewise. -/
theorem step_rebook (n : Nat) (s : State) :
    step (s.rebook (fun _ => n) id) = mapNext (State.rebook (fun _ => n + 1) id) (step s) := by
  rw [step_eq, step_eq, stepPeripherals_rebook, show (s.rebook (fun _ => n) id).clock = s.clock from rfl,
    coreStep_rebook]
  cases coreStep (stepPeripherals s.clock.before s) with
  | next t => exact congrArg Host.Outcome.next (stepPeripherals_rebook _ _ _ t)
  | fault e => rfl
  | refused r => rfl

/-- Whether a state executes does not depend on the table. -/
theorem Executes.rebook {s : State} (h : Executes s) : Executes (s.rebook f g) :=
  ⟨h.running, h.ready, ⟨⟨h.plain.inv.params, h.plain.inv.memWf, h.plain.inv.memBelow⟩, h.plain.noHooks⟩, h.quiet⟩

/-- The step of an opcode with a handler of the table's own is that handler and the bookkeeping (R134). -/
theorem coreStep_own {s : State} {op : Word} {h : OwnHandler} {p : HandlerProg} (executes : Executes s)
    (ho : progWord s s.pc = some op) (he : s.itable.entry op = .own h) (hp : ownProg h op = some p) :
    coreStep s = finishStep (runHandler (runProg p) { s with pc := s.pc + 1 }) := by
  rw [executes.coreStep_eq, executeStep_own ho he hp]

/-- A step by such a handler under another table with the same entry for the opcode. -/
theorem coreStep_own_rebook {s : State} {op : Word} {h : OwnHandler} {p : HandlerProg} (executes : Executes s)
    (ho : progWord s s.pc = some op) (he : s.itable.entry op = .own h) (hp : ownProg h op = some p)
    {table : ITable} (ht : table.entry op = .own h) :
    coreStep (s.rebook id fun _ => table) = mapNext (State.rebook id fun _ => table) (coreStep s) := by
  rw [coreStep_own executes ho he hp]
  refine (coreStep_own (s := s.rebook id fun _ => table) (executes.rebook _ _) ho ht hp).trans ?_
  have ran := runHandler_blind id (fun _ => table) ((blind _ _).holds_runProg p) { s with pc := s.pc + 1 }
  refine (congrArg finishStep ran).trans ?_
  cases runHandler (runProg p) { s with pc := s.pc + 1 } <;> rfl

/-! ## Every function is a table -/

/-- The table that lists every opcode word with its entry. -/
def tableOf (entries : Word → ITableEntry) : ITable :=
  { listed := ((List.range 65536).map (BitVec.ofNat 16)).map fun w => (w, entries w), others := .reference }

theorem tableOf_entry (entries : Word → ITableEntry) (op : Word) : (tableOf entries).entry op = entries op := by
  have listed : op ∈ (List.range 65536).map (BitVec.ofNat 16) :=
    List.mem_map.mpr ⟨op.toNat, List.mem_range.mpr op.isLt, by rw [BitVec.ofNat_toNat, BitVec.setWidth_eq]⟩
  rw [ITable.entry, tableOf, entryIn_map, if_pos listed]

end Sys2Proof.Machine
end

section
/-! SUPPORT. What a handler keeps where there are no hooks (spec/40_engine_step.md R137). -/

namespace Sys2Proof.Machine

/-- The hook tables stay, and where they are empty the pending flags and the peripherals' state stay too. -/
structure QuietUnhooked (s t : State) : Prop where
  rdHooks : t.rdHooks = s.rdHooks
  wrHooks : t.wrHooks = s.wrHooks
  quiet : s.rdHooks = [] → s.wrHooks = [] → t.pend = s.pend ∧ t.plat = s.plat

theorem quietUnhooked_pcLike : PcLike QuietUnhooked where
  refl _ := ⟨rfl, rfl, fun _ _ => ⟨rfl, rfl⟩⟩
  trans h g := ⟨g.rdHooks.trans h.rdHooks, g.wrHooks.trans h.wrHooks, fun rd wr =>
    have ⟨pend, plat⟩ := h.quiet rd wr
    have ⟨pend', plat'⟩ := g.quiet (h.rdHooks.trans rd) (h.wrHooks.trans wr)
    ⟨pend'.trans pend, plat'.trans plat⟩⟩
  set _ _ _ _ := ⟨rfl, rfl, fun _ _ => ⟨rfl, rfl⟩⟩
  hook s a h i hook := ⟨rfl, rfl, fun rd wr => by
    rw [rd, wr] at hook
    obtain hook | hook := hook <;> cases hook⟩
  pc _ _ := ⟨rfl, rfl, fun _ _ => ⟨rfl, rfl⟩⟩

/-- `wait` is not an access's to write. -/
theorem sameWait_pcLike : PcLike fun s t => t.wait = s.wait where
  refl _ := rfl
  trans h g := g.trans h
  set _ _ _ _ := rfl
  hook _ _ _ _ _ := rfl
  pc _ _ := rfl

/-- `pc` is not a data access's to write. -/
theorem samePc_memoryLike : MemoryLike fun s t => t.pc = s.pc where
  refl _ := rfl
  trans h g := g.trans h
  set _ _ _ _ := rfl
  hook _ _ _ _ _ := rfl

end Sys2Proof.Machine
end

section
/-! The statements on every handler (spec/40_engine_step.md R137, R101; spec/10_state.md R29). -/

namespace Sys2Proof.Machine

/-- Settles O18: a list of all opcode words is a table for any function; the step is the handler's, which
does not see the table. -/
theorem theUnitsTableDecidesTheExecuteStep : Obligations.TheUnitsTableDecidesTheExecuteStep := by
  refine ⟨fun entries => ⟨tableOf entries, tableOf_entry entries⟩, fun s op h p executes ho he hp =>
    ⟨fun k t ran => ?_, fun e faulted => ?_, fun table ht => ?_⟩⟩
  · rw [coreStep_own executes ho he hp, runHandler_ok ran]
    rfl
  · rw [coreStep_own executes ho he hp, runHandler_error faulted]
    rfl
  · refine (coreStep_own_rebook executes ho he hp ht).trans ?_
    cases coreStep s <;> rfl

/-- Settles O22: to fault only outside a space is a property of accesses; the refused rows are apart. -/
theorem handlersFaultOnlyOutsideTheSpaces : Obligations.HandlersFaultOnlyOutsideTheSpaces := by
  refine ⟨fun i s => ?_, fun p s f => (faultsOutside.holds_runProg p).faults s f⟩
  cases hi : refusedRow i with
  | false =>
    obtain ⟨h, runs, hh⟩ := faultsOutside.handlerHolds hi
    rw [runs]
    refine ⟨runHandler_ne_refused h s, fun f faulted => ?_⟩
    exact .inr (.inr (.inr (hh.faults s f (runHandler_eq_fault faulted))))
  | true =>
    obtain rfl | rfl | rfl := eq_of_refusedRow hi
    · rw [exec_sleep]
      refine ⟨fun r => nofun, fun f h => .inl ⟨rfl, ?_⟩⟩
      cases h
      rfl
    · rw [exec_brk]
      refine ⟨fun r => nofun, fun f h => .inr (.inl ⟨rfl, ?_⟩)⟩
      cases h
      rfl
    · rw [exec_spm]
      refine ⟨fun r => nofun, fun f h => .inr (.inr (.inl ⟨rfl, ?_⟩))⟩
      cases h
      rfl

/-- Settles O23: three relations that accesses keep. -/
theorem handlersKeepTheEngineState : Obligations.HandlersKeepTheEngineState := by
  refine ⟨fun i s t ran => ?_, fun p k s t ran => ?_⟩
  · have evolves := exec_evolves ran
    have quiet := exec_keeps_pcLike quietUnhooked_pcLike (fun _ _ => ⟨rfl, rfl, fun _ _ => ⟨rfl, rfl⟩⟩) ran
    exact ⟨evolves.unit, evolves.total, evolves.halted, evolves.vectors, quiet.quiet⟩
  · have evolves := keeps_runProg evolves_pcLike p s k t ran
    exact ⟨evolves.unit, evolves.total, keeps_runProg sameWait_pcLike p s k t ran, evolves.halted,
      evolves.vectors, (keeps_runProg quietUnhooked_pcLike p s k t ran).quiet⟩

/-- Settles O24: nothing before the bookkeeping sees `total`. -/
theorem stepCounterOnlyCounts : Obligations.StepCounterOnlyCounts := by
  intro s n
  refine (step_rebook n s).trans ?_
  cases step s <;> rfl

/-- Settles O25: the other handlers make data accesses only. -/
theorem onlyControlTransfersMoveThePc : Obligations.OnlyControlTransfersMoveThePc :=
  fun _ _ _ hi ran => exec_keeps_memoryLike samePc_memoryLike (fun _ _ => rfl) hi ran

end Sys2Proof.Machine
end

section
/-! SUPPORT. A byte of the program store as a load (spec/43_ref_data_transfer.md R260 to R263). -/

namespace Sys2Proof.Machine

/-- The byte at `z` of the program store: the low byte of word `z` / 2 for even `z`, else its high byte. -/
def byteOfWord (z w : Word) : Byte := BitVec.ofNat 8 (if z.toNat % 2 = 0 then w.toNat % 256 else w.toNat / 256)

theorem wordIndex (z : Word) : (z >>> 1).toNat = z.toNat / 2 := by
  rw [BitVec.toNat_ushiftRight, Nat.shiftRight_one]

theorem programByte_inside {s : State} {z w : Word} (found : s.prog[z.toNat / 2]? = some w) :
    programByte z s = .ok (byteOfWord z w, s) := by
  have word : progWord s (z >>> 1) = some w := by rwa [progWord, wordIndex]
  refine (act_bind_ok (fetch_inside word)).trans ?_
  by_cases even : z.toNat % 2 = 0
  · simp only [byteOfWord, even, if_true]
    exact congrArg (fun v : Byte => Except.ok (v, s)) (BitVec.eq_of_toNat_eq (by simp [lowByte]))
  · simp only [byteOfWord, even, if_false]
    rfl

theorem programByte_outside {s : State} {z : Word} (outside : s.prog.length ≤ z.toNat / 2) :
    programByte z s = .error (.addressRange .program (z.toNat / 2)) := by
  have none : progWord s (z >>> 1) = none := by rwa [progWord, wordIndex, List.getElem?_eq_none_iff]
  rw [← wordIndex z]
  exact act_bind_error (fetch_outside none)

section Plain

variable {s : State} (hs : s.Plain)
include hs

/-- A register write and then a pointer write, the last over a written half of the pointer. -/
theorem writeReg_writePointer_ends (d : Reg) (v : Byte) (p : Pointer) (w : Word) (k : Nat) :
    ∃ t, runHandler (do writeReg d v; writePointer p w; return k) s = .next t ∧ Ran s t s.pc k ∧
      ∀ a, t.byte a = withWord (pointerAddr s.params p) w (fun x => if x = d.val then v else s.byte x) a := by
  have written := plain_setMem hs v (params_reg_lt hs.inv.params d.isLt)
  refine ⟨_, (runHandler_bind_ok (writeReg_plain hs.inv.params hs.noHooks d v)).trans
    (runHandler_bind_ok (ptr_write written p w)),
    ⟨rfl, rfl, rfl, rfl, rfl, rfl, ⟨rfl, rfl, rfl, rfl, rfl, rfl⟩⟩, fun a => ?_⟩
  refine ((after_pointer written p w).bytes a).trans ?_
  simp only [withWord, State.byte, memory_get_set hs.inv.memWf]

theorem loadProgram_ends (d : Reg) {w : Word} (found : s.prog[(s.ptr .z).toNat / 2]? = some w) :
    ∃ t, runHandler (loadProgram d) s = .next t ∧ RegResult s t d (byteOfWord (s.ptr .z) w) 3 := by
  obtain ⟨t, ends, result⟩ := writeReg_ends hs d (byteOfWord (s.ptr .z) w) 3
  exact ⟨t, (runHandler_bind_ok (ptr_read hs .z)).trans
    ((runHandler_bind_ok (programByte_inside found)).trans ends), result⟩

theorem loadProgramPostInc_ends (d : Reg) {w : Word} (found : s.prog[(s.ptr .z).toNat / 2]? = some w) :
    ∃ t, runHandler (loadProgramPostInc d) s = .next t ∧ Ran s t s.pc 3 ∧
      ∀ a, t.byte a = withWord (pointerAddr s.params .z) (s.ptr .z + 1)
        (fun x => if x = d.val then byteOfWord (s.ptr .z) w else s.byte x) a := by
  obtain ⟨t, ends, result⟩ :=
    writeReg_writePointer_ends hs d (byteOfWord (s.ptr .z) w) .z (s.ptr .z + 1) 3
  exact ⟨t, (runHandler_bind_ok (ptr_read hs .z)).trans
    ((runHandler_bind_ok (programByte_inside found)).trans ends), result⟩

/-- A handler that reads Z and then the program store at it faults where that lies outside the image. -/
theorem programLoad_outside (outside : s.prog.length ≤ (s.ptr .z).toNat / 2) (f : Word → Byte → Act Nat) :
    runHandler (do let z ← readPointer .z; let v ← programByte z; f z v) s =
      .fault (.addressRange .program ((s.ptr .z).toNat / 2)) :=
  (runHandler_bind_ok (ptr_read hs .z)).trans (runHandler_bind_error (programByte_outside outside))

end Plain

end Sys2Proof.Machine
end

section
/-! The statements on loads and stores with update and on LPM (spec/43_ref_data_transfer.md R231, R232,
R237 to R263), on NOP and WDR and on the refused rows (spec/44_ref_bit_and_mcu.md R287 to R292). -/

namespace Sys2Proof.Machine

/-- Settles O47: the two addressing modes with update, each at three pointers. -/
theorem loadAndUpdateResults : Obligations.LoadAndUpdateResults := by
  intro d
  refine ⟨rowOf_RD 0x900D .ldXInc d (by simp [table, tableLoad]) rfl,
    rowOf_RD 0x900E .ldXDec d (by simp [table, tableLoad]) rfl,
    rowOf_RD 0x9009 .ldYInc d (by simp [table, tableLoad]) rfl,
    rowOf_RD 0x900A .ldYDec d (by simp [table, tableLoad]) rfl,
    rowOf_RD 0x9001 .ldZInc d (by simp [table, tableLoad]) rfl,
    rowOf_RD 0x9002 .ldZDec d (by simp [table, tableLoad]) rfl, fun s hs => ⟨fun i p hi => ?_, fun i p hi => ?_⟩⟩
  · simp only [List.mem_cons, List.not_mem_nil, or_false, Prod.mk.injEq] at hi
    obtain ⟨rfl, rfl⟩ | ⟨rfl, rfl⟩ | ⟨rfl, rfl⟩ := hi
    · exact loadPostInc_runs hs d .x
    · exact loadPostInc_runs hs d .y
    · exact loadPostInc_runs hs d .z
  · simp only [List.mem_cons, List.not_mem_nil, or_false, Prod.mk.injEq] at hi
    obtain ⟨rfl, rfl⟩ | ⟨rfl, rfl⟩ | ⟨rfl, rfl⟩ := hi
    · exact loadPreDec_runs hs d .x
    · exact loadPreDec_runs hs d .y
    · exact loadPreDec_runs hs d .z

/-- Settles O49: likewise. -/
theorem storeAndUpdateResults : Obligations.StoreAndUpdateResults := by
  intro r
  refine ⟨rowOf_RD 0x920D .stXInc r (by simp [table, tableStore]) rfl,
    rowOf_RD 0x920E .stXDec r (by simp [table, tableStore]) rfl,
    rowOf_RD 0x9209 .stYInc r (by simp [table, tableStore]) rfl,
    rowOf_RD 0x920A .stYDec r (by simp [table, tableStore]) rfl,
    rowOf_RD 0x9201 .stZInc r (by simp [table, tableStore]) rfl,
    rowOf_RD 0x9202 .stZDec r (by simp [table, tableStore]) rfl, fun s hs => ⟨fun i p hi => ?_, fun i p hi => ?_⟩⟩
  · simp only [List.mem_cons, List.not_mem_nil, or_false, Prod.mk.injEq] at hi
    obtain ⟨rfl, rfl⟩ | ⟨rfl, rfl⟩ | ⟨rfl, rfl⟩ := hi
    · exact storePostInc_runs hs r .x
    · exact storePostInc_runs hs r .y
    · exact storePostInc_runs hs r .z
  · simp only [List.mem_cons, List.not_mem_nil, or_false, Prod.mk.injEq] at hi
    obtain ⟨rfl, rfl⟩ | ⟨rfl, rfl⟩ | ⟨rfl, rfl⟩ := hi
    · exact storePreDec_runs hs r .x
    · exact storePreDec_runs hs r .y
    · exact storePreDec_runs hs r .z

/-- Settles O52: LPM is LPM Rd,Z into `r0`; the Z+ form ends with the write of Z. -/
theorem programLoadResults : Obligations.ProgramLoadResults := by
  intro d
  refine ⟨rowOf_Z0 0x95C8 .lpm (by simp [table, tableOne]) rfl,
    rowOf_RD 0x9004 .lpmZ d (by simp [table, tableLoad]) rfl,
    rowOf_RD 0x9005 .lpmZInc d (by simp [table, tableLoad]) rfl, fun s hs => ⟨fun w found =>
      ⟨loadProgram_ends hs 0 found, loadProgram_ends hs d found, loadProgramPostInc_ends hs d found⟩,
      fun outside i hi => ?_⟩⟩
  simp only [List.mem_cons, List.not_mem_nil, or_false] at hi
  obtain rfl | rfl | rfl := hi
  · exact programLoad_outside hs outside _
  · exact programLoad_outside hs outside _
  · exact programLoad_outside hs outside _

/-- Settles O59: both handlers are the constant of their cost. -/
theorem nopAndWdrDoNothing : Obligations.NopAndWdrDoNothing := by
  refine ⟨rowOf_Z0 0x0000 .nop (by simp [table, tableMoves]) rfl,
    rowOf_Z0 0x95A8 .wdr (by simp [table, tableOne]) rfl, fun s i hi => ?_⟩
  simp only [List.mem_cons, List.not_mem_nil, or_false] at hi
  obtain rfl | rfl := hi
  · rfl
  · rfl

/-- Settles O60: the handler of a refused row raises the fault, of `pc` as it was before the word. -/
theorem refusedInstructionsFault : Obligations.RefusedInstructionsFault :=
  ⟨rowOf_Z0 0x9588 .sleep (by simp [table, tableOne]) rfl, rowOf_Z0 0x9598 .brk (by simp [table, tableOne]) rfl,
    rowOf_Z0 0x95E8 .spm (by simp [table, tableOne]) rfl, fun s => ⟨exec_sleep s, exec_brk s, exec_spm s⟩⟩

end Sys2Proof.Machine
end

section
/-! SUPPORT. A call: the return address on the stack, and the jump (spec/42_ref_control_transfer.md R214
to R216); and RET (R217). -/

namespace Sys2Proof.Machine

/-- Push the return address and go to the target. -/
def callTo (ret target : Word) (cost : Nat) : Act Nat := do
  pushPc ret
  setPc target
  return cost

/-- RCALL's target is relative to `pc`, which its pushes leave as it is. -/
theorem exec_rcall (k : BitVec 12) (s : State) :
    exec (.rcall k) s = runHandler (callTo s.pc (BitVec.ofInt 16 (s.pc.toNat + k.toInt)) 3) s := by
  rw [← add_signExtend_eq_ofInt]
  refine (runHandler_bind_ok (getPc_apply s)).trans ?_
  match pushed : pushPc s.pc s with
  | .error f => rw [callTo, runHandler_bind_error pushed, runHandler_bind_error pushed]
  | .ok ((), u) =>
    have pc : u.pc = s.pc := keeps_pushPc samePc_memoryLike s.pc s () u pushed
    rw [callTo, runHandler_bind_ok pushed, runHandler_bind_ok pushed, ← pc]
    rfl

theorem exec_call (k : BitVec 22) (s : State) :
    exec (.call k) s = runHandler (callTo s.pc (BitVec.ofNat 16 (k.toNat % 65536)) 4) s := by
  rw [ofNat_toNat_mod]
  exact runHandler_bind_ok (getPc_apply s)

section Plain

variable {s : State} (hs : s.Plain)
include hs

/-- ICALL reads Z before the pushes. -/
theorem exec_icall_plain : exec .icall s = runHandler (callTo s.pc (s.ptr .z) 3) s :=
  (runHandler_bind_ok (ptr_read hs .z)).trans (runHandler_bind_ok (getPc_apply s))

/-- The two pushes and the jump, or the fault of a push. -/
theorem call_ends {i : Instr} {target : Word} {cost : Nat}
    (hi : exec i s = runHandler (callTo s.pc target cost) s) :
    (StackOpen s → ∃ t, exec i s = .next t ∧ Ran s t target cost ∧ ∀ a, t.byte a = withReturnAddress s s.pc a) ∧
    (∀ m u, push8 (highByte s.pc) s = .ok ((), m) → push8 (lowByte s.pc) m = .ok ((), u) →
      exec i s = .next { u with pc := target, wait := cost }) ∧
    (∀ f, push8 (highByte s.pc) s = .error f → exec i s = .fault f) ∧
    (∀ m f, push8 (highByte s.pc) s = .ok ((), m) → push8 (lowByte s.pc) m = .error f → exec i s = .fault f) := by
  rw [hi]
  refine ⟨fun room => ?_, fun m u high low => ?_, fun f high => ?_, fun m f high low => ?_⟩
  · obtain ⟨m, pushed, -, -, bytes⟩ := pushPc_open hs s.pc room
    exact ⟨_, runHandler_bind_ok pushed, ⟨rfl, rfl, rfl, rfl, rfl, rfl, ⟨rfl, rfl, rfl, rfl, rfl, rfl⟩⟩, bytes⟩
  · exact runHandler_bind_ok ((act_bind_ok high).trans low)
  · exact runHandler_bind_error (act_bind_error high)
  · exact runHandler_bind_error ((act_bind_ok high).trans low)

/-- RET on a stack that exists (R217). -/
theorem exec_ret_plain (hlo : s.sp.toNat < s.params.dataSize) (hhi : (s.sp + 1).toNat < s.params.dataSize)
    (h0 : hookAt s.rdHooks s.sp.toNat = none) (h1 : hookAt s.rdHooks (s.sp + 1).toNat = none) :
    ∃ t, exec .ret s = .next t ∧
      Ran s t (joinBytes (withWord s.params.spAddr (s.sp + 1) s.byte (s.sp + 1).toNat) (s.byte s.sp.toNat)) 4 ∧
      ∀ a, t.byte a = withWord s.params.spAddr (s.sp + 2) s.byte a := by
  obtain ⟨m, popped, bytes⟩ := popPc_plain hs hlo hhi h0 h1
  exact ⟨_, runHandler_bind_ok popped, ⟨rfl, rfl, rfl, rfl, rfl, rfl, ⟨rfl, rfl, rfl, rfl, rfl, rfl⟩⟩, bytes⟩

theorem popPc_outside_low (outside : s.params.dataSize ≤ s.sp.toNat) :
    popPc s = .error (.addressRange .data s.sp.toNat) :=
  act_bind_error (pop8_outside hs outside)

theorem popPc_outside_high (inside : s.sp.toNat < s.params.dataSize)
    (unhooked : hookAt s.rdHooks s.sp.toNat = none)
    (outside : s.params.dataSize ≤ (s.sp + 1).toNat) :
    popPc s = .error (.addressRange .data (s.sp + 1).toNat) := by
  obtain ⟨v, u, read, popped⟩ := pop8_inside hs inside
  obtain ⟨-, rfl⟩ := read.unhooked unhooked
  have second := pop8_outside (withSp_plain hs (u.sp + 1)) (by rwa [withSp_sp hs])
  rw [withSp_sp hs] at second
  exact (act_bind_ok popped).trans (act_bind_error second)

end Plain

/-- A return whose pops fault. -/
theorem exec_return_of_popPc_error {s : State} {f : Fault} (popped : popPc s = .error f) :
    ∀ i ∈ [Instr.ret, .reti], exec i s = .fault f := by
  intro i hi
  simp only [List.mem_cons, List.not_mem_nil, or_false] at hi
  obtain rfl | rfl := hi
  · exact runHandler_bind_error popped
  · exact runHandler_bind_error (m := returnFromInterrupt) (act_bind_error popped)

end Sys2Proof.Machine
end

section
/-! The statements on JMP, the calls and the returns (spec/42_ref_control_transfer.md R212 to R218). -/

namespace Sys2Proof.Machine

/-- Settles O54: three calls with the same two pushes. -/
theorem jmpAndCallResults : Obligations.JmpAndCallResults := by
  intro k j
  refine ⟨rowOf_J12 0xD000 .rcall k (by simp [table, tableHigh]) rfl,
    rowOf_J22 0x940C .jmp j (by simp [table, tableOne]) rfl,
    rowOf_J22 0x940E .call j (by simp [table, tableOne]) rfl,
    rowOf_Z0 0x9509 .icall (by simp [table, tableOne]) rfl, fun s => ?_, fun s hs i target cost hi => ?_⟩
  · rw [ofNat_toNat_mod]
    exact ⟨_, rfl, ran_pc s _ 3, fun _ _ => rfl⟩
  · simp only [List.mem_cons, List.not_mem_nil, or_false, Prod.mk.injEq] at hi
    obtain ⟨rfl, rfl, rfl⟩ | ⟨rfl, rfl, rfl⟩ | ⟨rfl, rfl, rfl⟩ := hi
    · exact call_ends hs (exec_rcall k s)
    · exact call_ends hs (exec_call j s)
    · exact call_ends hs (exec_icall_plain hs)

/-- Settles O55: RET is two pops and a jump, RETI sets I after them. -/
theorem returnResults : Obligations.ReturnResults :=
  ⟨rowOf_Z0 0x9508 .ret (by simp [table, tableOne]) rfl, rowOf_Z0 0x9518 .reti (by simp [table, tableOne]) rfl,
    fun _ hs => ⟨fun hlo hhi h0 h1 => ⟨exec_ret_plain hs hlo hhi h0 h1, exec_reti_plain hs hlo hhi h0 h1⟩,
      fun i hi => ⟨fun outside => exec_return_of_popPc_error (popPc_outside_low hs outside) i hi,
        fun inside unhooked outside =>
          exec_return_of_popPc_error (popPc_outside_high hs inside unhooked outside) i hi⟩⟩⟩

end Sys2Proof.Machine
end
